-- ==== Sys2Proof/Word.lean ====
section
/-! DEFINITION. The machine's word and value types: the 32-bit command and register word (R7, R70, R26), the binary64
Scalar (R21, R126), a complex value (R9), and the two ways in which a data register can stand (R40). -/

namespace Sys2Proof

/-- A 32-bit command word, control register or information word (R26, R70, R201). -/
abbrev Word := BitVec 32

/-- A `Scalar` of the hardware: the 64 bits of an IEEE 754 binary64 value (R21, R126). -/
abbrev Scalar := BitVec 64

/-- A complex value `(re, im)` over the Scalars `α` (R9): the element of IBUF and OBUF (R34, R35). -/
structure Cplx (α : Type) where
  re : α
  im : α
deriving DecidableEq, Repr

/-- What a data register holds. `noDefinedValue` is the spec's own state of an element, from the moment a rule says so until
the next write of it (R40); it is the reset state of DRE and DIM (R23, R43). -/
inductive Held (α : Type) where
  | noDefinedValue
  | value (v : α)
deriving DecidableEq, Repr

end Sys2Proof
end

