-- ==== Sys2Proof/Syntax.lean ====
section
/-! DEFINITION. The instruction set: the seven host commands of `spec/opcode_table.json` (R2, R71), one constructor each, with
the operands of their formats (R72 to R76). -/

namespace Sys2Proof

/-- The strategy that PREPARE selects (R6, R72): `r2` is `rdx = 0`, radix-2 throughout; `r4` is `rdx = 1`, radix-4 with a
radix-2 tail. -/
inductive Radix where
  | r2
  | r4
deriving DecidableEq, Repr

/-- The direction of a RUN (R10, R74): `fwd` is `d = +1`, encoded `dir = 0`; `inv` is `d = -1`, encoded `dir = 1`. -/
inductive Direction where
  | fwd
  | inv
deriving DecidableEq, Repr

/-- The seven commands, in the opcode table's order. `size`, `idx` and `len` are the 24-bit unsigned fields of R72 to R74;
`csr` is the 4-bit register number of R76, of which 0 to 6 are legal. -/
inductive Instr where
  | prepare (rdx : Radix) (size : BitVec 24)
  | setin (idx : BitVec 24)
  | getin (idx : BitVec 24)
  | run (dir : Direction) (len : BitVec 24)
  | getout (idx : BitVec 24)
  | dispose
  | rdcsr (csr : BitVec 4)
deriving DecidableEq, Repr

/-- The control registers, numbers 0 to 6 (R26). -/
inductive Csr where
  | status
  | n
  | cap
  | fsticky
  | fcode
  | fexp
  | fact
deriving DecidableEq, Repr

end Sys2Proof
end

