-- ==== Sys2Proof/WellFormed.lean ====
section
/-! DEFINITION. Which instructions have an encoding that the engine accepts. The widths of `size`, `idx` and `len` are in their
types (R82: they "must fit 24 bits"); what is left to check is the register number of RDCSR (R76, R78). -/

namespace Sys2Proof

/-- A register number that RDCSR accepts: 0 to 6 (R26, R78). -/
def csrLegal (csr : BitVec 4) : Bool := csr.toNat ≤ 6

/-- The instruction is one of the legal words of R78. -/
def Instr.wellFormed : Instr → Bool
  | .prepare _ _ => true
  | .setin _ => true
  | .getin _ => true
  | .run _ _ => true
  | .getout _ => true
  | .dispose => true
  | .rdcsr csr => csrLegal csr

end Sys2Proof
end

