-- ==== Sys2Proof/Decode.lean ====
section
/-! DEFINITION. The decoder, total on every 32-bit word (R78), the encoder (R72 to R76, R82), and the mask and match table
of R81. A command word is a number with bit 0 least significant (R7); no byte order enters (R53, log 14). -/

namespace Sys2Proof

/-- Why a word is illegal (R78, R79). -/
inductive Illegal where
  /-- opcode 0x0 or 0x8 to 0xF -/
  | reservedOpcode
  /-- a bit that the format marks reserved is 1 -/
  | reservedBit
  /-- RDCSR of register 7 to 15 -/
  | reservedCsr
deriving DecidableEq, Repr

/-- What a word decodes to: one of the seven commands with its fields, or *illegal* (R78). -/
inductive Decoded where
  | legal (i : Instr)
  | illegal (why : Illegal)
deriving DecidableEq, Repr

/-- Bits 31:28 (R71). -/
def opcodeOf (w : Word) : BitVec 4 := w.extractLsb' 28 4

/-- Bits 23:0: `size`, `idx` or `len` (R72 to R74, R77). -/
def field24 (w : Word) : BitVec 24 := w.extractLsb' 0 24

/-- Bits 3:0: `csr` (R76). -/
def csrField (w : Word) : BitVec 4 := w.extractLsb' 0 4

/-- Bit 24 of a PREPARE (R72). -/
def radixOf (w : Word) : Radix := if w.getLsbD 24 then .r4 else .r2

/-- Bit 24 of a RUN (R74). -/
def directionOf (w : Word) : Direction := if w.getLsbD 24 then .inv else .fwd

/-- `i` when every bit of the word under `reserved` is 0 (R78). -/
def unlessReserved (w reserved : Word) (i : Instr) : Decoded :=
  if w &&& reserved = 0#32 then .legal i else .illegal .reservedBit

/-- The decoding procedure of R78: the opcode, then the reserved bits of its format, then the register number of RDCSR. -/
def decode (w : Word) : Decoded :=
  match (opcodeOf w).toNat with
  | 1 => unlessReserved w 0x0E000000#32 (.prepare (radixOf w) (field24 w))
  | 2 => unlessReserved w 0x0F000000#32 (.setin (field24 w))
  | 3 => unlessReserved w 0x0F000000#32 (.getin (field24 w))
  | 4 => unlessReserved w 0x0E000000#32 (.run (directionOf w) (field24 w))
  | 5 => unlessReserved w 0x0F000000#32 (.getout (field24 w))
  | 6 => unlessReserved w 0x0FFFFFFF#32 .dispose
  | 7 =>
    match unlessReserved w 0x0FFFFFF0#32 (.rdcsr (csrField w)) with
    | .legal i => if csrLegal (csrField w) then .legal i else .illegal .reservedCsr
    | .illegal why => .illegal why
  | _ => .illegal .reservedOpcode

/-- The bit that encodes the strategy (R72). -/
def radixBit : Radix → BitVec 1
  | .r2 => 0#1
  | .r4 => 1#1

/-- The bit that encodes the direction (R74). -/
def directionBit : Direction → BitVec 1
  | .fwd => 0#1
  | .inv => 1#1

/-- The word of an instruction, field by field from the format tables R72 to R76. -/
def encode : Instr → Word
  | .prepare rdx size => 0x1#4 ++ 0#3 ++ radixBit rdx ++ size
  | .setin idx => 0x2#4 ++ 0#4 ++ idx
  | .getin idx => 0x3#4 ++ 0#4 ++ idx
  | .run dir len => 0x4#4 ++ 0#3 ++ directionBit dir ++ len
  | .getout idx => 0x5#4 ++ 0#4 ++ idx
  | .dispose => 0x6#4 ++ 0#28
  | .rdcsr csr => 0x7#4 ++ 0#24 ++ csr

/-- The opcode of an instruction (R71). -/
def opcode (i : Instr) : BitVec 4 := opcodeOf (encode i)

/-- One row of the decoder table R81. -/
structure TableRow where
  mask : Word
  pattern : Word
deriving DecidableEq, Repr

/-- The table of R81, in its order: PREPARE, SETIN, GETIN, RUN, GETOUT, DISPOSE, RDCSR. -/
def decodeTable : List TableRow :=
  [⟨0xFE000000#32, 0x10000000#32⟩, ⟨0xFF000000#32, 0x20000000#32⟩, ⟨0xFF000000#32, 0x30000000#32⟩,
   ⟨0xFE000000#32, 0x40000000#32⟩, ⟨0xFF000000#32, 0x50000000#32⟩, ⟨0xFFFFFFFF#32, 0x60000000#32⟩,
   ⟨0xFFFFFFF0#32, 0x70000000#32⟩]

/-- "a word `w` is the command when `w AND mask = match`" (R81). -/
def TableRow.accepts (r : TableRow) (w : Word) : Bool := w &&& r.mask = r.pattern

/-- The control register that a number names; 7 to 15 are reserved (R26). -/
def csrOfNumber (csr : BitVec 4) : Option Csr :=
  match csr.toNat with
  | 0 => some .status
  | 1 => some .n
  | 2 => some .cap
  | 3 => some .fsticky
  | 4 => some .fcode
  | 5 => some .fexp
  | 6 => some .fact
  | _ => none

/-- The command word whose table bits are `w`, the bits above `nbits` being 0. -/
def tableWord (nbits w : Nat) : Word := BitVec.ofNat 32 (w % 2 ^ nbits)

/-- The instruction the decoder reads from a row of `spec/opcode_table.json`, whose bits are numbered as the word's own
(R7, R70: every command is one 32-bit word). -/
def decodeTableWord (nbits w : Nat) : Option Instr :=
  match decode (tableWord nbits w) with
  | .legal i => some i
  | .illegal _ => none

end Sys2Proof
end

