-- ==== Sys2Proof/Config.lean ====
section
/-! DEFINITION. What an implementation fixes, and the free values: constants with no body, which nothing in Lean can
evaluate, for what the spec leaves open (R40, R126; log 5, log 9). -/

namespace Sys2Proof

/-- Names one occurrence of a Scalar operation inside a RUN, so that each occurrence has a free NaN of its own (I9, log 9):
`draw` numbers the command, `len` the pass (its block size), `slot` the butterfly (its first slot), `op` the operation inside
the butterfly. -/
structure Occ where
  draw : Nat
  len : Nat
  slot : Nat
  op : Nat
deriving DecidableEq, Repr

/-- The `i`-th operation after `o` inside the same butterfly. -/
def Occ.plus (o : Occ) (i : Nat) : Occ := { o with op := o.op + i }

/-- LOGNMAX, the log2 of the capacity, as State.reset has it in CAP. R5 allows 2 to 23; 16 is the value the spec's own
vectors use (DESIGN CHOICE, log 3). The step reads CAP, so statements about all states do not depend on it. -/
def Config.logNMax : Nat := 16

/-- A FREE VALUE: what the `pos`-th read of an element without a defined value obtains in the command or host move numbered
`draw` (R40: "a fresh draw at each read, under no law"; log 5). -/
opaque Config.freeScalar (draw pos : Nat) : Scalar

/-- A FREE VALUE: the bits from which the NaN of one occurrence of an operation takes its sign and payload (R126, I9;
log 9). -/
opaque Config.freeNaN (o : Occ) : BitVec 64

end Sys2Proof
end

