-- ==== Sys2Proof/Machine/State.lean ====
section
/-! DEFINITION. The machine's whole state as plain data (R20), the host's inputs and the step's outputs (R264), the ways the
model could stop, and the state after reset (R43, R250). -/

namespace Sys2Proof.Machine

/-- One of the four element-indexed memories (R33, R50): pairs of an index and the element it holds, indices strictly
rising. An index that is not listed is an element that holds no defined value (R40). -/
abbrev Memory (α : Type) := List (Nat × α)

/-- What the host or the environment can do to the engine, each between commands (R199, R258, R264). -/
inductive HostInput where
  /-- the host presents a 32-bit command word -/
  | command (w : Word)
  /-- the host move WriteData -/
  | writeData (re im : Scalar)
  /-- the host move ReadData -/
  | readData
  /-- the environment asserts reset -/
  | reset
deriving DecidableEq, Repr

/-- What a step hands to the host (R201, R258, R264). -/
inductive Output where
  | nothing
  | response (code : BitVec 4) (info0 info1 : Word)
  | data (re im : Scalar)
deriving DecidableEq, Repr

/-- The fault codes of R221. Code 3 is reserved and never raised (R225). A fault of the spec is a response with the code, and
the machine goes on (R220, R233): it is not a stop of the model. -/
inductive FaultCode where
  | invalidSize
  | lengthMismatch
  | aliasingViolation
  | indexRange
  | notPrepared
  | illegalCommand
deriving DecidableEq, Repr

/-- Stops of the machine. None: "the engine never hangs, never stays busy, and never ignores a word" (R190; I20, "nothing can
be stuck"). No meaning raises one. -/
inductive Fault : Type
deriving DecidableEq, Repr

/-- Instructions without a meaning. `notModelled` is the constructor the host's interface asks for; every command has its
meaning, so nothing raises it. -/
inductive Refusal where
  | notModelled (mnemonic : String)
deriving DecidableEq, Repr

/-- The architectural state of R20, then the model's own three fields. The memories are element-indexed (R33); PERM's
entries are natural numbers, which the rules keep below `n` (R36, D36). -/
structure State where
  /-- data register DRE (R21) -/
  dre : Held Scalar
  /-- data register DIM (R21) -/
  dim : Held Scalar
  /-- control register 0, STATUS (R27) -/
  status : Word
  /-- control register 1, N (R28) -/
  n : Word
  /-- control register 2, CAP (R29), constant: it holds LOGNMAX, and the step reads LOGNMAX from it (log 3) -/
  cap : Word
  /-- control register 3, FSTICKY (R30) -/
  fsticky : Word
  /-- control register 4, FCODE (R31) -/
  fcode : Word
  /-- control register 5, FEXP (R32) -/
  fexp : Word
  /-- control register 6, FACT (R32) -/
  fact : Word
  /-- the input buffer IBUF (R34) -/
  ibuf : Memory (Cplx Scalar)
  /-- the output buffer OBUF (R35) -/
  obuf : Memory (Cplx Scalar)
  /-- the permutation table PERM (R36) -/
  perm : Memory Nat
  /-- the twiddle factor ROM TW (R37) -/
  tw : Memory Scalar
  /-- the model's own: what the host has presented and the engine has not yet taken, the next first (R264, log 1) -/
  inputs : List HostInput
  /-- the model's own: the output of the last step (R264, log 2) -/
  output : Output
  /-- the model's own: numbers the commands and host moves that may obtain a free value (R40, log 6) -/
  draws : Nat
deriving DecidableEq, Repr

/-- The state after reset (R43, R250): Unprepared, the fault registers clear, CAP = LOGNMAX, and no defined value in DRE, DIM
and the four memories. The values of `inputs`, `output` and `draws` are the model's (DESIGN CHOICE, log 1, 2, 6). -/
def State.reset : State where
  dre := .noDefinedValue
  dim := .noDefinedValue
  status := 0#32
  n := 0#32
  cap := BitVec.ofNat 32 Config.logNMax
  fsticky := 0#32
  fcode := 0#32
  fexp := 0#32
  fact := 0#32
  ibuf := []
  obuf := []
  perm := []
  tw := []
  inputs := []
  output := .nothing
  draws := 0

end Sys2Proof.Machine
end

