-- ==== Sys2Proof/Machine/Flags.lean ====
section
/-! DEFINITION. The engine has no condition codes and no floating-point flags, and no command writes a flag as a side effect
(R25, R137). Its only status bits are the fields of STATUS (R27) and the sticky fault mask FSTICKY (R30): this file reads and
builds them. -/

namespace Sys2Proof.Machine

/-- STATUS.PREP, bit 0 (R27). -/
def statusPrep (status : Word) : Bool := status.getLsbD 0

/-- STATUS.RDX, bit 1 (R27). -/
def statusRdx (status : Word) : Radix := if status.getLsbD 1 then .r4 else .r2

/-- STATUS.LOGN, bits 6:2 (R27). -/
def statusLogn (status : Word) : Nat := (status.extractLsb' 2 5).toNat

/-- The STATUS that PREPARE writes: `{ 0[31:7], log2(size)[4:0], rdx, 1 }` (R192). -/
def statusPrepared (rdx : Radix) (logn : Nat) : Word :=
  0#25 ++ BitVec.ofNat 5 logn ++ (match rdx with | .r2 => 0#1 | .r4 => 1#1) ++ 1#1

/-- The number of a fault code (R221, D41). -/
def FaultCode.number : FaultCode → BitVec 4
  | .invalidSize => 1#4
  | .lengthMismatch => 2#4
  | .aliasingViolation => 3#4
  | .indexRange => 4#4
  | .notPrepared => 5#4
  | .illegalCommand => 6#4

/-- The bit of FSTICKY that a fault sets: `1 << c` (R30, R231). -/
def stickyBit (c : FaultCode) : Word := 1#32 <<< c.number.toNat

end Sys2Proof.Machine
end

