-- ==== Sys2Proof/Machine/Ops.lean ====
section
/-! DEFINITION. The named operations that every command is made of: reading and writing one element of a memory (R9, R56),
reading a control register (R26), the counted loop of the pseudocode (R9), the OK response (R201), TAKING A FAULT as one
shared operation (R231), and the reset event (R250). There is no return from a fault: nothing was entered (R233). -/

namespace Sys2Proof.Machine

/-- `MemRead(M, i)` (R9): the element at index `i`, or nothing where it holds no defined value (R40). -/
def Memory.read {α : Type} : Memory α → Nat → Option α
  | [], _ => none
  | (j, v) :: m, i => if i = j then some v else Memory.read m i

/-- `MemWrite(M, i, v)` (R9). It keeps the indices strictly rising. -/
def Memory.write {α : Type} : Memory α → Nat → α → Memory α
  | [], i, v => [(i, v)]
  | (j, u) :: m, i, v =>
    if i < j then (i, v) :: (j, u) :: m
    else if i = j then (i, v) :: m
    else (j, u) :: Memory.write m i v

/-- Makes the element at index `i` one that holds no defined value (R40). -/
def Memory.forget {α : Type} : Memory α → Nat → Memory α
  | [], _ => []
  | (j, u) :: m, i => if i = j then Memory.forget m i else (j, u) :: Memory.forget m i

/-- Writes an element that may itself be without a defined value (R117: such an element "is copied as an `unspecified`
value"). -/
def Memory.put {α : Type} (m : Memory α) (i : Nat) : Option α → Memory α
  | some v => Memory.write m i v
  | none => Memory.forget m i

/-- Every index of the memory is at least `k` and they rise strictly. -/
def Memory.risingFrom {α : Type} : Nat → Memory α → Bool
  | _, [] => true
  | k, (j, _) :: m => decide (k ≤ j) && Memory.risingFrom (j + 1) m

/-- The canonical form: indices strictly rising. No entry equals what an unlisted index reads as, because an entry always
holds a value. -/
def Memory.wf {α : Type} (m : Memory α) : Bool := Memory.risingFrom 0 m

/-- Every listed index is below `n`. -/
def Memory.below {α : Type} (n : Nat) (m : Memory α) : Bool := m.all fun e => decide (e.1 < n)

/-- `for i = 0 .. count-1: s <- body i s`, in that order (R9). -/
def loop {σ : Type} : Nat → (Nat → σ → σ) → σ → σ
  | 0, _, s => s
  | count + 1, body, s => body count (loop count body s)

/-- NMAX, from the LOGNMAX that CAP holds (R5, R29). -/
def State.nMax (s : State) : Nat := 2 ^ s.cap.toNat

/-- STATUS.PREP (R27). -/
def State.prepared (s : State) : Bool := statusPrep s.status

/-- The value of a control register (R26). CAP is read where it stands: nothing writes it (R29). -/
def State.readCsr (s : State) : Csr → Word
  | .status => s.status
  | .n => s.n
  | .cap => s.cap
  | .fsticky => s.fsticky
  | .fcode => s.fcode
  | .fexp => s.fexp
  | .fact => s.fact

/-- `respond OK(info0, info1)` (R9, R201). -/
def State.respondOk (s : State) (info0 info1 : Word) : State :=
  { s with output := .response 0#4 info0 info1 }

/-- TAKING A FAULT: `raise F(a, b)` (R231). It is the same for every fault and it is everything that happens. -/
def State.raise (s : State) (c : FaultCode) (a b : Word) : State :=
  { s with
    fsticky := s.fsticky ||| stickyBit c
    fcode := c.number.setWidth 32
    fexp := a
    fact := b
    output := .response c.number a b }

/-- Every element of IBUF, OBUF, PERM and TW holds no defined value (R192, R197). -/
def State.forgetMemories (s : State) : State :=
  { s with ibuf := [], obuf := [], perm := [], tw := [] }

/-- This command or host move has taken its free values: the next one takes others (R40, log 6). -/
def State.nextDraw (s : State) : State := { s with draws := s.draws + 1 }

/-- The reset event (R250, R251): every piece of architectural state as State.reset has it, but CAP, a constant of the
implementation (R29). The host's later inputs are not the engine's and stay; `draws` goes on, so that no free value comes
twice (log 11). -/
def State.resetEvent (s : State) : State :=
  { State.reset with cap := s.cap, inputs := s.inputs, draws := s.draws }

end Sys2Proof.Machine
end

