-- ==== Sys2Proof/Machine/Operands.lean ====
section
/-! DEFINITION. The operands of the commands and how they are assembled (R77): zero-extended fields, the direction, the
complex value in DRE and DIM, an element of a buffer; and the checks of the state and of the operands, in the order of R191
(state, then operand; an illegal word never comes so far). -/

namespace Sys2Proof.Machine

/-- What a step of this machine answers. -/
abbrev Result := Host.Outcome State Fault Refusal

/-- `size`, `idx` or `len` as the 32-bit word `zext_32(bits[23:0])` (R77). -/
def zext (field : BitVec 24) : Word := field.setWidth 32

/-- A data register as read: its value, or where it holds none a free value (R40). -/
def readHeld (r : Held Scalar) (draw pos : Nat) : Scalar :=
  match r with
  | .value v => v
  | .noDefinedValue => Config.freeScalar draw pos

/-- The complex value in DRE and DIM, as SETIN and ReadData read it (R21, R22). -/
def State.readData (s : State) : Cplx Scalar :=
  ⟨readHeld s.dre s.draws 0, readHeld s.dim s.draws 1⟩

/-- `x[DRE] <- z.re; x[DIM] <- z.im` (R22). -/
def State.writeData (s : State) (z : Cplx Scalar) : State :=
  { s with dre := .value z.re, dim := .value z.im }

/-- An element of IBUF or OBUF as GETIN and GETOUT read it: its value, or where it holds none two free values (R40). -/
def State.readElement (s : State) (m : Memory (Cplx Scalar)) (idx : Nat) : Cplx Scalar :=
  match Memory.read m idx with
  | some z => z
  | none => ⟨Config.freeScalar s.draws 0, Config.freeScalar s.draws 1⟩

/-- The state check of R191: the effect, or NotPrepared with the opcode of the command (R227). -/
def State.ifPrepared (s : State) (i : Instr) (effect : State) : Result :=
  if s.prepared then .next effect
  else .next (s.raise .notPrepared 0#32 ((opcode i).setWidth 32))

/-- The operand check of SETIN, GETIN and GETOUT: the effect, or IndexRange (R52, R226). -/
def State.ifInRange (s : State) (idx : BitVec 24) (effect : State) : State :=
  if idx.toNat < s.n.toNat then effect else s.raise .indexRange s.n (zext idx)

/-- The operand check of RUN: the effect, or LengthMismatch (R223). -/
def State.ifLength (s : State) (len : BitVec 24) (effect : State) : State :=
  if zext len = s.n then effect else s.raise .lengthMismatch s.n (zext len)

/-- The operand check of PREPARE (R192): `size` is 0, not a power of two, or greater than NMAX. -/
def State.invalidSize (s : State) (size : BitVec 24) : Bool :=
  size = 0#24 || decide (s.nMax < size.toNat) || size &&& (size - 1#24) != 0#24

end Sys2Proof.Machine
end

