-- ==== Sys2Proof/Machine/ControlRegs.lean ====
section
/-! DEFINITION. The command RDCSR (R198). -/

namespace Sys2Proof.Machine

/-- RDCSR(csr): responds with the register and changes nothing (R198). The decoder never gives a `csr` above 6; the arm for
it raises what such a word raises, IllegalCommand with the word (R26, R228, log 15). -/
def execRdcsr (csr : BitVec 4) (s : State) : Result :=
  match csrOfNumber csr with
  | some r => .next (s.respondOk (s.readCsr r) 0#32)
  | none => .next (s.raise .illegalCommand 0#32 (encode (.rdcsr csr)))

end Sys2Proof.Machine
end

