-- ==== Sys2Proof/Machine/Permutation.lean ====
section
/-! DEFINITION. The bit-reversal permutation unit: PERMGEN2 (R111), PERMGEN4 (R113) and PERMUTE (R117). The passes of a build
are numbered by `t`; the block size and the stride of pass `t` are those the pseudocode reaches after `t` halvings and
doublings (log 16). -/

namespace Sys2Proof.Machine

/-- `PERM[j] <- PERM[j] + amount`. -/
def addAt (perm : Memory Nat) (j amount : Nat) : Memory Nat :=
  match Memory.read perm j with
  | some v => Memory.write perm j (v + amount)
  | none => perm

/-- `for j = first .. first+count-1: PERM[j] <- PERM[j] + amount`. -/
def addRange (perm : Memory Nat) (first count amount : Nat) : Memory Nat :=
  loop count (fun i perm => addAt perm (first + i) amount) perm

/-- `for j = 0 .. n-1: PERM[j] <- 0`. -/
def permClear (n : Nat) (perm : Memory Nat) : Memory Nat :=
  loop n (fun j perm => Memory.write perm j 0) perm

/-- One pass of PERMGEN2: `fs` is added to the second half of every block of size `len` (R111). -/
def permPass2 (n len fs : Nat) (perm : Memory Nat) : Memory Nat :=
  loop (n / len) (fun b perm => addRange perm (b * len + len / 2) (len / 2) fs) perm

/-- PERMGEN2(n) (R111): passes `(len, fs) = (n, 1), (n/2, 2), .. , (2, n/2)`. -/
def permgen2 (n : Nat) (perm : Memory Nat) : Memory Nat :=
  loop (Nat.log2 n) (fun t perm => permPass2 n (n / 2 ^ t) (2 ^ t) perm) (permClear n perm)

/-- One radix-4 pass of PERMGEN4: quarter `t` of every block of size `len` receives `t * fs` (R113). -/
def permPass4 (n len fs : Nat) (perm : Memory Nat) : Memory Nat :=
  loop (n / len)
    (fun b perm => loop 4 (fun t perm => addRange perm (b * len + t * (len / 4)) (len / 4) (t * fs)) perm) perm

/-- PERMGEN4(n) (R113): when `L` is odd the radix-2 step first, then the radix-4 steps. -/
def permgen4 (n : Nat) (perm : Memory Nat) : Memory Nat :=
  let zero := permClear n perm
  if Nat.log2 n % 2 = 1 then
    loop (Nat.log2 n / 2) (fun t perm => permPass4 n (n / 2 / 4 ^ t) (2 * 4 ^ t) perm)
      (addRange zero (n / 2) (n / 2) 1)
  else loop (Nat.log2 n / 2) (fun t perm => permPass4 n (n / 4 ^ t) (4 ^ t) perm) zero

/-- The table that PREPARE builds for a strategy (R192). -/
def permgen (rdx : Radix) (n : Nat) (perm : Memory Nat) : Memory Nat :=
  match rdx with
  | .r2 => permgen2 n perm
  | .r4 => permgen4 n perm

/-- PERMUTE: `OBUF[k] <- IBUF[PERM[k]]` for `k = 0 .. n-1` (R117). Elements are copied whole; one without a defined value
is copied as one (R117, R195, log 8). -/
def permute {α : Type} (n : Nat) (perm : Memory Nat) (ibuf obuf : Memory (Cplx α)) : Memory (Cplx α) :=
  loop n (fun k obuf => Memory.put obuf k ((Memory.read perm k).bind (Memory.read ibuf))) obuf

end Sys2Proof.Machine
end

