-- ==== Sys2Proof/Machine/Binary64.lean ====
section
/-! DEFINITION. The binary64 Scalar of R126: IEEE 754 add, sub and mul, each rounded once to nearest with ties to even, and
neg. A finite value is a whole number of *units* of 2^-1074, so every exact sum is an integer number of units and every exact
product an integer number of units of 2^-2148; each result is computed exactly and rounded once. -/

namespace Sys2Proof.Machine

/-- Bits 62:52, the biased exponent (R126). -/
def Binary64.exponent (x : Scalar) : Nat := x.toNat / 2 ^ 52 % 2 ^ 11

/-- Bits 51:0, the fraction (R126). -/
def Binary64.fraction (x : Scalar) : Nat := x.toNat % 2 ^ 52

/-- Bit 63, the sign (R126). -/
def Binary64.sign (x : Scalar) : Bool := x.msb

def Binary64.isNaN (x : Scalar) : Bool := Binary64.exponent x == 2047 && Binary64.fraction x != 0

def Binary64.isInf (x : Scalar) : Bool := Binary64.exponent x == 2047 && Binary64.fraction x == 0

def Binary64.isFinite (x : Scalar) : Bool := Binary64.exponent x != 2047

/-- The magnitude of a finite value in units of 2^-1074; a subnormal has no hidden bit. -/
def Binary64.magnitude (x : Scalar) : Nat :=
  if Binary64.exponent x = 0 then Binary64.fraction x
  else (2 ^ 52 + Binary64.fraction x) * 2 ^ (Binary64.exponent x - 1)

/-- The signed value of a finite Scalar in units of 2^-1074. -/
def Binary64.units (x : Scalar) : Int :=
  if Binary64.sign x then -(Binary64.magnitude x : Int) else (Binary64.magnitude x : Int)

/-- The bits with the given sign and the given bits 62:0. -/
def Binary64.pack (negative : Bool) (low : Nat) : Scalar :=
  BitVec.ofNat 64 ((if negative then 2 ^ 63 else 0) + low)

/-- Bits 62:0 of an infinity. -/
def Binary64.infinityBits : Nat := 2047 * 2 ^ 52

/-- Quotient by `2 ^ d`, rounded to nearest with ties to even (R126). -/
def Binary64.divRound (m d : Nat) : Nat :=
  let q := m / 2 ^ d
  let r := m % 2 ^ d
  if 2 * r < 2 ^ d then q
  else if 2 * r = 2 ^ d then q + q % 2
  else q + 1

/-- Bits 62:0 of the binary64 nearest to `m / 2 ^ s` units, ties to even; infinity on overflow (R126). `d` is how many low
bits of `m` lie below the last place: the last place of a result of at least 2^53 units is 52 places below its leading bit,
and never below one unit (subnormals are kept). A rounding that carries into the next binade carries into the exponent
field. -/
def Binary64.roundMagnitude (m s : Nat) : Nat :=
  let d := max (Nat.log2 m - 52) s
  min ((d - s) * 2 ^ 52 + Binary64.divRound m d) Binary64.infinityBits

/-- A NaN with the sign and the payload of the free bits (R126: "any value among the NaNs", log 9). A payload of 0 would be
an infinity and is replaced by 1, so that every NaN is possible and nothing else. -/
def Binary64.nanOf (free : BitVec 64) : Scalar :=
  let payload := free.toNat % 2 ^ 52
  Binary64.pack free.msb (Binary64.infinityBits + if payload = 0 then 1 else payload)

/-- The NaN that one occurrence of an operation returns (I9). -/
def Binary64.nan (o : Occ) : Scalar := Binary64.nanOf (Config.freeNaN o)

/-- `neg` flips bit 63 and nothing else, for every operand (R126). -/
def Binary64.neg (x : Scalar) : Scalar := x ^^^ 0x8000000000000000#64

/-- The sum of two finite values. An exact sum of zero is +0 unless both operands are negative (R128: `(+0) + (-0) = +0`,
`x + (-x) = +0`). -/
def Binary64.addFinite (a b : Scalar) : Scalar :=
  let t := Binary64.units a + Binary64.units b
  if t = 0 then Binary64.pack (Binary64.sign a && Binary64.sign b) 0
  else Binary64.pack (decide (t < 0)) (Binary64.roundMagnitude t.natAbs 0)

/-- `add` (R126): a NaN operand and `inf - inf` give a NaN. -/
def Binary64.add (o : Occ) (a b : Scalar) : Scalar :=
  if Binary64.isNaN a || Binary64.isNaN b then Binary64.nan o
  else if Binary64.isInf a then
    if Binary64.isInf b && Binary64.sign a != Binary64.sign b then Binary64.nan o else a
  else if Binary64.isInf b then b
  else Binary64.addFinite a b

/-- `sub` (R126): the difference is the sum with the second operand's sign flipped. -/
def Binary64.sub (o : Occ) (a b : Scalar) : Scalar := Binary64.add o a (Binary64.neg b)

/-- `mul` (R126): a NaN operand and `0 * inf` give a NaN; the sign is the exclusive or of the signs. -/
def Binary64.mul (o : Occ) (a b : Scalar) : Scalar :=
  let negative := Binary64.sign a != Binary64.sign b
  if Binary64.isNaN a || Binary64.isNaN b then Binary64.nan o
  else if Binary64.isInf a || Binary64.isInf b then
    if (Binary64.isFinite a && Binary64.magnitude a == 0) || (Binary64.isFinite b && Binary64.magnitude b == 0) then
      Binary64.nan o
    else Binary64.pack negative Binary64.infinityBits
  else Binary64.pack negative
    (Binary64.roundMagnitude (Binary64.magnitude a * Binary64.magnitude b) 1074)

/-- `zero = +0.0` (R126). -/
def Binary64.zero : Scalar := 0x0000000000000000#64

/-- `one = 1.0` (R126). -/
def Binary64.one : Scalar := 0x3FF0000000000000#64

end Sys2Proof.Machine
end

