-- ==== Sys2Proof/Machine/Cosine.lean ====
section
/-! DEFINITION. The table function cosq of the binary64 Scalar (R92): the binary64 nearest to the exact real cos(2πk/n). The
cosine is enclosed between two integers over 2^240 by the half-angle formula `cos θ = sqrt ((1 + cos 2θ) / 2)`, which needs
only integer square roots, and the lower one is rounded once (log 10). -/

namespace Sys2Proof.Machine

/-- Binary digits of the fixed-point cosine. -/
def Cosine.precision : Nat := 240

/-- Newton's iteration for the integer square root from a start `g` that is not below it, stopping when it no longer falls. -/
def Cosine.newton (m : Nat) : Nat → Nat → Nat
  | 0, g => g
  | fuel + 1, g =>
    let h := (g + m / g) / 2
    if h < g then Cosine.newton m fuel h else g

/-- The integer square root, rounded down. -/
def Cosine.sqrtDown (m : Nat) : Nat := Cosine.newton m (Nat.log2 m + 2) (2 ^ (Nat.log2 m / 2 + 1))

/-- The integer square root, rounded up. -/
def Cosine.sqrtUp (m : Nat) : Nat :=
  let s := Cosine.sqrtDown m
  if s * s = m then s else s + 1

/-- A pair of bounds, in units of 2^-240. -/
structure Cosine.Bounds where
  lower : Int
  upper : Int
deriving DecidableEq, Repr

/-- Bounds of `cos (φ / 2)`, for `φ / 2` in the first quadrant, from bounds of `cos φ`. -/
def Cosine.halve (b : Cosine.Bounds) : Cosine.Bounds :=
  let scaled (x : Int) : Nat := ((2 ^ Cosine.precision + x) * 2 ^ (Cosine.precision - 1)).toNat
  ⟨(Cosine.sqrtDown (scaled b.lower) : Int), (Cosine.sqrtUp (scaled b.upper) : Int)⟩

/-- Bounds of `-c` from bounds of `c`. -/
def Cosine.negate (b : Cosine.Bounds) : Cosine.Bounds := ⟨-b.upper, -b.lower⟩

/-- Bounds of `cos (2πk/n)` for `n = 4 * 2 ^ l` and `0 <= k <= n/4`. The double of the angle is index `k` of the table for
`n / 2`, whose quarter turn is index `2 ^ (l - 1)`; beyond that, `cos` is minus the cosine of the supplement. -/
def Cosine.bounds : Nat → Nat → Cosine.Bounds
  | 0, k => if k = 0 then ⟨2 ^ Cosine.precision, 2 ^ Cosine.precision⟩ else ⟨0, 0⟩
  | l + 1, k =>
    Cosine.halve
      (if k ≤ 2 ^ l then Cosine.bounds l k else Cosine.negate (Cosine.bounds l (2 * 2 ^ l - k)))

/-- The binary64 nearest to `x` units of 2^-240, for `x >= 0`. -/
def Cosine.round (x : Int) : Scalar :=
  Binary64.pack false (Binary64.roundMagnitude (x.toNat * 2 ^ 1074) Cosine.precision)

/-- `cosq(n, k)`, for `n` a power of two with `n >= 4` and `0 <= k <= n/4` (R92). -/
def Binary64.cosq (n k : Nat) : Scalar := Cosine.round (Cosine.bounds (Nat.log2 n - 2) k).lower

end Sys2Proof.Machine
end

