-- ==== Sys2Proof/Machine/Arith.lean ====
section
/-! DEFINITION. The `Scalar` parameter of R125 as one record of operations, and its binary64 instantiation, which is the
hardware's (R126, log 4). The datapath and the sequencer are written once over any such record. -/

namespace Sys2Proof.Machine

/-- The operations the datapath assumes of a Scalar (R125). `add`, `sub` and `mul` are told which occurrence of an operation
they are, because with binary64 the NaN of each occurrence is free (I9, log 9); nothing else may depend on it. -/
structure Arith (α : Type) where
  zero : α
  one : α
  add : Occ → α → α → α
  sub : Occ → α → α → α
  mul : Occ → α → α → α
  neg : α → α
  cosq : Nat → Nat → α

/-- `Scalar = binary64` (R126, R92). -/
def binary64 : Arith Scalar where
  zero := Binary64.zero
  one := Binary64.one
  add := Binary64.add
  sub := Binary64.sub
  mul := Binary64.mul
  neg := Binary64.neg
  cosq := Binary64.cosq

end Sys2Proof.Machine
end

