-- ==== Sys2Proof/Machine/Twiddle.lean ====
section
/-! DEFINITION. The twiddle factor ROM: TWGEN (R91) and TWLOOKUP (R93 to R97), over any Scalar. -/

namespace Sys2Proof.Machine

/-- TWGEN(n): `TW[k] <- cosq(n, k)` for `k = 0 .. n/4` (R91). -/
def twgen {α : Type} (A : Arith α) (n : Nat) (tw : Memory α) : Memory α :=
  loop (n / 4 + 1) (fun k tw => Memory.write tw k (A.cosq n k)) tw

/-- The fold of R95: the cosine and the sine of the angle in quadrant `hi`, from the first-quadrant cosine `c` and sine
`s`. -/
def foldQuadrant {α : Type} (A : Arith α) (hi : Nat) (c s : α) : Cplx α :=
  match hi with
  | 0 => ⟨c, s⟩
  | 1 => ⟨A.neg s, c⟩
  | 2 => ⟨A.neg c, A.neg s⟩
  | _ => ⟨s, A.neg c⟩

/-- The direction, applied to the sine only, by one negation (R96). -/
def applyDirection {α : Type} (A : Arith α) (d : Direction) (w : Cplx α) : Cplx α :=
  match d with
  | .fwd => w
  | .inv => ⟨w.re, A.neg w.im⟩

/-- TWLOOKUP(d, r), written W(d, r), for any integer `r` (R97). It answers nothing only where TW holds no defined value,
which no RUN of a prepared engine meets (R39, log 12). -/
def twlookup {α : Type} (A : Arith α) (n : Nat) (tw : Memory α) (d : Direction) (r : Int) : Option (Cplx α) :=
  let q := n / 4
  let rr := (r % (n : Int)).toNat
  let hi := rr / q
  let lo := rr % q
  match Memory.read tw lo, Memory.read tw (q - lo) with
  | some c, some s => some (applyDirection A d (foldQuadrant A hi c s))
  | _, _ => none

end Sys2Proof.Machine
end

