-- ==== Sys2Proof/Machine/Lifecycle.lean ====
section
/-! DEFINITION. The commands that open and close the prepared kernel: PREPARE (R192) and DISPOSE (R197). -/

namespace Sys2Proof.Machine

/-- PREPARE's tables for a valid size, from memories that hold no defined value: none below size 4 (R99, R119). -/
def State.buildTables (s : State) (rdx : Radix) (size : Nat) : State :=
  if 4 ≤ size then { s with tw := twgen binary64 size s.tw, perm := permgen rdx size s.perm } else s

/-- PREPARE's writes of N and STATUS (R192). -/
def State.setPrepared (s : State) (rdx : Radix) (size : BitVec 24) : State :=
  { s with n := zext size, status := statusPrepared rdx (Nat.log2 size.toNat) }

/-- PREPARE(rdx, size) (R192). -/
def execPrepare (rdx : Radix) (size : BitVec 24) (s : State) : Result :=
  if s.invalidSize size then .next (s.raise .invalidSize (BitVec.ofNat 32 s.nMax) (zext size))
  else .next ((((s.setPrepared rdx size).forgetMemories).buildTables rdx size.toNat).respondOk 0#32 0#32)

/-- DISPOSE() (R197). -/
def execDispose (s : State) : Result :=
  .next ({ s with status := 0#32, n := 0#32 }.forgetMemories.respondOk 0#32 0#32)

end Sys2Proof.Machine
end

