-- ==== Sys2Proof/Machine/Transfer.lean ====
section
/-! DEFINITION. The commands that move one complex value between DRE, DIM and the buffers: SETIN (R193), GETIN (R194) and
GETOUT (R196). -/

namespace Sys2Proof.Machine

/-- SETIN(idx): `IBUF[idx] <- (DRE, DIM)` (R193). -/
def execSetin (idx : BitVec 24) (s : State) : Result :=
  s.ifPrepared (.setin idx) <| s.ifInRange idx <|
    ({ s with ibuf := Memory.write s.ibuf idx.toNat s.readData }.nextDraw).respondOk 0#32 0#32

/-- GETIN(idx): `(DRE, DIM) <- IBUF[idx]` (R194). -/
def execGetin (idx : BitVec 24) (s : State) : Result :=
  s.ifPrepared (.getin idx) <| s.ifInRange idx <|
    ((s.writeData (s.readElement s.ibuf idx.toNat)).nextDraw).respondOk 0#32 0#32

/-- GETOUT(idx): `(DRE, DIM) <- OBUF[idx]` (R196). -/
def execGetout (idx : BitVec 24) (s : State) : Result :=
  s.ifPrepared (.getout idx) <| s.ifInRange idx <|
    ((s.writeData (s.readElement s.obuf idx.toNat)).nextDraw).respondOk 0#32 0#32

end Sys2Proof.Machine
end

