-- ==== Sys2Proof/Machine/Butterfly.lean ====
section
/-! DEFINITION. The complex multiply-accumulate datapath and the butterflies (R128 to R136), over any Scalar. `o` names the
first Scalar operation of each compound operation (log 9); the operations are numbered in the order of the pseudocode. -/

namespace Sys2Proof.Machine

/-- CADD(a, b) (R128). -/
def cadd {α : Type} (A : Arith α) (o : Occ) (a b : Cplx α) : Cplx α :=
  ⟨A.add o a.re b.re, A.add (o.plus 1) a.im b.im⟩

/-- CSUB(a, b) (R129). -/
def csub {α : Type} (A : Arith α) (o : Occ) (a b : Cplx α) : Cplx α :=
  ⟨A.sub o a.re b.re, A.sub (o.plus 1) a.im b.im⟩

/-- CMUL(w, z): four products, one difference, one sum, in this association (R130). -/
def cmul {α : Type} (A : Arith α) (o : Occ) (w z : Cplx α) : Cplx α :=
  ⟨A.sub (o.plus 2) (A.mul o w.re z.re) (A.mul (o.plus 1) w.im z.im),
   A.add (o.plus 5) (A.mul (o.plus 3) w.re z.im) (A.mul (o.plus 4) w.im z.re)⟩

/-- ROT90(d, z) (R131). -/
def rot90 {α : Type} (A : Arith α) (d : Direction) (z : Cplx α) : Cplx α :=
  match d with
  | .fwd => ⟨A.neg z.im, z.re⟩
  | .inv => ⟨z.im, A.neg z.re⟩

/-- CMAC(e, w, o): the product once, then its sum and its difference with `e` (R132). Ten Scalar operations. -/
def cmac {α : Type} (A : Arith α) (occ : Occ) (e w o : Cplx α) : Cplx α × Cplx α :=
  let t := cmul A occ w o
  (cadd A (occ.plus 6) e t, csub A (occ.plus 8) e t)

/-- The four results of the radix-4 butterfly on the values `a b c dd` with the twiddles `w1 w2 w3` (R134). -/
def radix4 {α : Type} (A : Arith α) (o : Occ) (d : Direction) (w1 w2 w3 a b c dd : Cplx α) :
    Cplx α × Cplx α × Cplx α × Cplx α :=
  let b1 := cmul A o w1 b
  let c1 := cmul A (o.plus 6) w2 c
  let d1 := cmul A (o.plus 12) w3 dd
  let s0 := cadd A (o.plus 18) a c1
  let s1 := csub A (o.plus 20) a c1
  let s2 := cadd A (o.plus 22) b1 d1
  let s3 := csub A (o.plus 24) b1 d1
  let t3 := rot90 A d s3
  (cadd A (o.plus 26) s0 s2, cadd A (o.plus 28) s1 t3, csub A (o.plus 30) s0 s2, csub A (o.plus 32) s1 t3)

/-- BFLY2(d, p0, p1, r) on OBUF: both reads, then both writes (R133). Where an operand holds no defined value, neither do the
results that depend on it (R195, I6, log 8). -/
def bfly2 {α : Type} (A : Arith α) (o : Occ) (n : Nat) (tw : Memory α) (d : Direction) (p0 p1 r : Nat)
    (obuf : Memory (Cplx α)) : Memory (Cplx α) :=
  match Memory.read obuf p0, Memory.read obuf p1, twlookup A n tw d r with
  | some e, some odd, some w =>
    let uv := cmac A o e w odd
    Memory.write (Memory.write obuf p0 uv.1) p1 uv.2
  | _, _, _ => Memory.forget (Memory.forget obuf p0) p1

/-- BFLY4(d, p0, p1, p2, p3, r1, r2, r3) on OBUF: the four reads, then the four writes (R134). -/
def bfly4 {α : Type} (A : Arith α) (o : Occ) (n : Nat) (tw : Memory α) (d : Direction) (p0 p1 p2 p3 r1 r2 r3 : Nat)
    (obuf : Memory (Cplx α)) : Memory (Cplx α) :=
  match Memory.read obuf p0, Memory.read obuf p1, Memory.read obuf p2, Memory.read obuf p3,
    twlookup A n tw d r1, twlookup A n tw d r2, twlookup A n tw d r3 with
  | some a, some b, some c, some dd, some w1, some w2, some w3 =>
    let x := radix4 A o d w1 w2 w3 a b c dd
    Memory.write (Memory.write (Memory.write (Memory.write obuf p0 x.1) p1 x.2.1) p2 x.2.2.1) p3 x.2.2.2
  | _, _, _, _, _, _, _ =>
    Memory.forget (Memory.forget (Memory.forget (Memory.forget obuf p0) p1) p2) p3

end Sys2Proof.Machine
end

