-- ==== Sys2Proof/Machine/Sequencer.lean ====
section
/-! DEFINITION. The RUN sequencer (R150 to R162), over any Scalar: the small-size paths, the passes and their schedules. The
passes of a schedule are numbered; a twiddle index is computed as the multiple of its stride, reduced modulo `n`, which R161
allows (log 16). -/

namespace Sys2Proof.Machine

/-- SMALL1: size 1, a copy (R151). -/
def small1 {α : Type} (ibuf obuf : Memory (Cplx α)) : Memory (Cplx α) :=
  Memory.put obuf 0 (Memory.read ibuf 0)

/-- SMALL2: size 2, one sum and one difference (R152). -/
def small2 {α : Type} (A : Arith α) (draw : Nat) (ibuf obuf : Memory (Cplx α)) : Memory (Cplx α) :=
  match Memory.read ibuf 0, Memory.read ibuf 1 with
  | some a, some b =>
    Memory.write (Memory.write obuf 0 (cadd A ⟨draw, 2, 0, 0⟩ a b)) 1 (csub A ⟨draw, 2, 0, 2⟩ a b)
  | _, _ => Memory.forget (Memory.forget obuf 0) 1

/-- PASS2(d, len): one radix-2 pass (R155). -/
def pass2 {α : Type} (A : Arith α) (draw n : Nat) (tw : Memory α) (d : Direction) (len : Nat)
    (obuf : Memory (Cplx α)) : Memory (Cplx α) :=
  let h := len / 2
  let st := n / len
  loop (n / len)
    (fun b obuf => loop h
      (fun k obuf =>
        bfly2 A ⟨draw, len, b * len + k, 0⟩ n tw d (b * len + k) (b * len + k + h) (k * st % n) obuf)
      obuf)
    obuf

/-- PASS4(d, len): one radix-4 pass (R157). -/
def pass4 {α : Type} (A : Arith α) (draw n : Nat) (tw : Memory α) (d : Direction) (len : Nat)
    (obuf : Memory (Cplx α)) : Memory (Cplx α) :=
  let q := len / 4
  let st := n / len
  loop (n / len)
    (fun b obuf => loop q
      (fun k obuf =>
        bfly4 A ⟨draw, len, b * len + k, 0⟩ n tw d
          (b * len + k) (b * len + k + q) (b * len + k + 2 * q) (b * len + k + 3 * q)
          (k * st % n) (k * (2 * st) % n) (k * (3 * st) % n) obuf)
      obuf)
    obuf

/-- SCHED2(d): `len = 2, 4, 8, .. , n` (R154). -/
def sched2 {α : Type} (A : Arith α) (draw n : Nat) (tw : Memory α) (d : Direction) (obuf : Memory (Cplx α)) :
    Memory (Cplx α) :=
  loop (Nat.log2 n) (fun p obuf => pass2 A draw n tw d (2 ^ (p + 1)) obuf) obuf

/-- SCHED4(d): `len = 4, 16, 64, .. , top`, then the radix-2 tail when `L` is odd (R156, R158). -/
def sched4 {α : Type} (A : Arith α) (draw n : Nat) (tw : Memory α) (d : Direction) (obuf : Memory (Cplx α)) :
    Memory (Cplx α) :=
  let fours := loop (Nat.log2 n / 2) (fun p obuf => pass4 A draw n tw d (4 ^ (p + 1)) obuf) obuf
  if Nat.log2 n % 2 = 1 then pass2 A draw n tw d n fours else fours

/-- The passes of the prepared strategy (R150). -/
def sched {α : Type} (A : Arith α) (draw n : Nat) (rdx : Radix) (tw : Memory α) (d : Direction)
    (obuf : Memory (Cplx α)) : Memory (Cplx α) :=
  match rdx with
  | .r2 => sched2 A draw n tw d obuf
  | .r4 => sched4 A draw n tw d obuf

/-- RUNBODY(d): the new contents of OBUF (R150). It reads IBUF, PERM and TW, and writes OBUF only (R166). -/
def runBody {α : Type} (A : Arith α) (draw n : Nat) (rdx : Radix) (d : Direction) (perm : Memory Nat) (tw : Memory α)
    (ibuf obuf : Memory (Cplx α)) : Memory (Cplx α) :=
  if n = 1 then small1 ibuf obuf
  else if n = 2 then small2 A draw ibuf obuf
  else sched A draw n rdx tw d (permute n perm ibuf obuf)

end Sys2Proof.Machine
end

