-- ==== Sys2Proof/Machine/Transform.lean ====
section
/-! DEFINITION. The command RUN (R195). -/

namespace Sys2Proof.Machine

/-- The effect of RUN: OBUF is written by RUNBODY, nothing else of the spec's state changes (R166). -/
def State.runTransform (s : State) (d : Direction) : State :=
  { s with
    obuf := runBody binary64 s.draws s.n.toNat (statusRdx s.status) d s.perm s.tw s.ibuf s.obuf }

/-- RUN(dir, len) (R195). -/
def execRun (dir : Direction) (len : BitVec 24) (s : State) : Result :=
  s.ifPrepared (.run dir len) <| s.ifLength len <| ((s.runTransform dir).nextDraw).respondOk 0#32 0#32

end Sys2Proof.Machine
end

