-- ==== Sys2Proof/Machine/Dispatch.lean ====
section
/-! DEFINITION. One arm per command (R2, R71). -/

namespace Sys2Proof.Machine

def exec (i : Instr) (s : State) : Host.Outcome State Fault Refusal :=
  match i with
  | .prepare rdx size => Sys2Proof.Machine.execPrepare rdx size s
  | .setin idx => Sys2Proof.Machine.execSetin idx s
  | .getin idx => Sys2Proof.Machine.execGetin idx s
  | .run dir len => Sys2Proof.Machine.execRun dir len s
  | .getout idx => Sys2Proof.Machine.execGetout idx s
  | .dispose => Sys2Proof.Machine.execDispose s
  | .rdcsr csr => Sys2Proof.Machine.execRdcsr csr s

end Sys2Proof.Machine
end

