-- ==== Sys2Proof/Machine/Present.lean ====
section
/-! DEFINITION. What the engine does with one input of the host (R264): a command word is decoded and executed (R190, R191),
the host moves WriteData and ReadData (R199), the reset event (R250), and waiting when there is none (log 1). -/

namespace Sys2Proof.Machine

/-- A command word: decode, then the command; an illegal word raises IllegalCommand with the word (R78, R191, R228). -/
def presentWord (w : Word) (s : State) : Result :=
  match decode w with
  | .legal i => exec i s
  | .illegal _ => .next (s.raise .illegalCommand 0#32 w)

/-- WriteData(re, im): `x[DRE] <- re; x[DIM] <- im`, with no output (R199). -/
def hostWriteData (re im : Scalar) (s : State) : State :=
  { s.writeData ⟨re, im⟩ with output := .nothing }

/-- ReadData: the host obtains `(x[DRE], x[DIM])`; nothing changes (R199). -/
def hostReadData (s : State) : State :=
  { s with output := .data s.readData.re s.readData.im }.nextDraw

/-- No input: the engine waits and executes nothing by itself (R190, R253). -/
def idle (s : State) : State := { s with output := .nothing }

/-- One input (R264). -/
def takeInput (input : HostInput) (s : State) : Result :=
  match input with
  | .command w => presentWord w s
  | .writeData re im => .next (hostWriteData re im s)
  | .readData => .next (hostReadData s)
  | .reset => .next s.resetEvent

end Sys2Proof.Machine
end

