-- ==== Sys2Proof/Machine/Step.lean ====
section
/-! DEFINITION. One step: the engine takes the host's next input (R264); and where a test places a command word. -/

namespace Sys2Proof.Machine

/-- One step of the machine (R16, R264). -/
def step (s : State) : Host.Outcome State Fault Refusal :=
  match s.inputs with
  | [] => .next (idle s)
  | input :: rest => takeInput input { s with inputs := rest }

/-- The host presents the command word of a table row as its next input (log 1). -/
def State.withFetchWord (s : State) (nbits w : Nat) : State :=
  { s with inputs := .command (tableWord nbits w) :: s.inputs }

end Sys2Proof.Machine
end

