-- ==== Sys2Proof/Machine/Exact.lean ====
section
/-! DEFINITION. Functions of the specification, not hardware state, which no command reaches (R3): the `exact` instantiation of
the Scalar (R127), with which the engine's datapath is instantiated in statements; the transform (R176); and the reference
kernel REF in its exact form, the only normative one (R175, log 13). -/

namespace Sys2Proof.Machine

/-- `Scalar = exact`: the real numbers, with `cosq(n, k) = cos(2πk/n)` (R127, R92). -/
noncomputable def exactReal : Arith ℝ where
  zero := 0
  one := 1
  add := fun _ a b => a + b
  sub := fun _ a b => a - b
  mul := fun _ a b => a * b
  neg := fun a => -a
  cosq := fun n k => Real.cos (2 * Real.pi * k / n)

/-- A complex value of the exact datapath as a complex number. -/
def toComplex (z : Cplx ℝ) : ℂ := ⟨z.re, z.im⟩

/-- `d`, `+1` or `-1` (R10, R77). -/
def directionSign : Direction → ℤ
  | .fwd => 1
  | .inv => -1

/-- `exp(i·d·2π·r/n)` (R98). -/
noncomputable def rootOfUnity (d : Direction) (n : Nat) (r : ℤ) : ℂ :=
  Complex.exp (Complex.I * (directionSign d * (2 * Real.pi * r / n)))

/-- `DFT(x, d)[k] = sum over j = 0 .. n-1 of x[j]·exp(i·d·2π·j·k/n)` (R176). -/
noncomputable def dft (d : Direction) (n : Nat) (x : Nat → ℂ) (k : Nat) : ℂ :=
  ∑ j ∈ Finset.range n, x j * rootOfUnity d n (j * k)

/-- REF(x, d) for a sequence of length `2 ^ l` (R175): recursion on the even and the odd half, with a freshly computed
factor. -/
noncomputable def reference (d : Direction) : (l : Nat) → (Nat → ℂ) → Nat → ℂ
  | 0, x => x
  | l + 1, x => fun k =>
    let even := reference d l fun j => x (2 * j)
    let odd := reference d l fun j => x (2 * j + 1)
    let len := 2 ^ (l + 1)
    if k < 2 ^ l then even k + rootOfUnity d len k * odd k
    else even (k - 2 ^ l) - rootOfUnity d len (k - 2 ^ l : Nat) * odd (k - 2 ^ l)

/-- The exact engine: RUNBODY over the real numbers, with the tables PREPARE builds for size `n` and strategy `rdx`, and an
IBUF that holds `x` (R177). -/
noncomputable def exactRun (rdx : Radix) (d : Direction) (n : Nat) (ibuf obuf : Memory (Cplx ℝ)) : Memory (Cplx ℝ) :=
  runBody exactReal 0 n rdx d (permgen rdx n []) (twgen exactReal n []) ibuf obuf

end Sys2Proof.Machine
end

