-- ==== Sys2Proof/Machine/Simultaneous.lean ====
section
/-! DEFINITION. The butterflies of one pass taken all at once: "any other order of the butterflies of one pass, or all of them at
once, gives the same OBUF bit for bit" (R160). The sequencer's loops are the model; these are the handier form that claims
relate them to. -/

namespace Sys2Proof.Machine

variable {α : Type}

/-- The two results of a radix-2 butterfly on operands that may hold no defined value (R133). -/
def bfly2Results (A : Arith α) (o : Occ) (w : Option (Cplx α)) (e odd : Option (Cplx α)) :
    Option (Cplx α × Cplx α) :=
  match e, odd, w with
  | some e, some odd, some w => some (cmac A o e w odd)
  | _, _, _ => none

/-- What the radix-2 pass at block size `len` leaves in slot `p`, from OBUF before the pass (R155). -/
def pass2At (A : Arith α) (draw n : Nat) (tw : Memory α) (d : Direction) (len : Nat) (obuf : Memory (Cplx α))
    (p : Nat) : Option (Cplx α) :=
  let h := len / 2
  let k := p % h
  let p0 := p / len * len + k
  let x := bfly2Results A ⟨draw, len, p0, 0⟩ (twlookup A n tw d ((k * (n / len) % n : Nat) : Int))
    (Memory.read obuf p0) (Memory.read obuf (p0 + h))
  if p % len < h then x.map (·.1) else x.map (·.2)

/-- The four results of a radix-4 butterfly on operands that may hold no defined value (R134). -/
def bfly4Results (A : Arith α) (o : Occ) (d : Direction) (w1 w2 w3 a b c dd : Option (Cplx α)) :
    Option (Cplx α × Cplx α × Cplx α × Cplx α) :=
  match a, b, c, dd, w1, w2, w3 with
  | some a, some b, some c, some dd, some w1, some w2, some w3 => some (radix4 A o d w1 w2 w3 a b c dd)
  | _, _, _, _, _, _, _ => none

/-- What the radix-4 pass at block size `len` leaves in slot `p`, from OBUF before the pass (R157). -/
def pass4At (A : Arith α) (draw n : Nat) (tw : Memory α) (d : Direction) (len : Nat) (obuf : Memory (Cplx α))
    (p : Nat) : Option (Cplx α) :=
  let q := len / 4
  let st := n / len
  let k := p % q
  let p0 := p / len * len + k
  let w (r : Nat) := twlookup A n tw d ((r % n : Nat) : Int)
  let x := bfly4Results A ⟨draw, len, p0, 0⟩ d (w (k * st)) (w (k * (2 * st))) (w (k * (3 * st)))
    (Memory.read obuf p0) (Memory.read obuf (p0 + q)) (Memory.read obuf (p0 + 2 * q)) (Memory.read obuf (p0 + 3 * q))
  match p % len / q with
  | 0 => x.map (·.1)
  | 1 => x.map (·.2.1)
  | 2 => x.map (·.2.2.1)
  | _ => x.map (·.2.2.2)

end Sys2Proof.Machine
end

