-- ==== Sys2Proof/Safety.lean ====
section
/-! DEFINITION. What claims call a good state and a safe run: the invariant of the reachable states (R27 to R32, R33, R39), a
state with no fault recorded (R30), and what a fault may change (R232). -/

namespace Sys2Proof.Machine

/-- LOGNMAX is a legal parameter (R5). -/
def State.CapLegal (s : State) : Prop := 2 ≤ s.cap.toNat ∧ s.cap.toNat ≤ 23

/-- STATUS and N agree (R27, R28): Unprepared, both are 0; Prepared, `N = 2^LOGN` with `LOGN <= LOGNMAX`, and the reserved
bits of STATUS are 0. -/
def State.KernelLegal (s : State) : Prop :=
  (s.prepared = false → s.status = 0#32 ∧ s.n = 0#32) ∧
  (s.prepared = true →
    s.status = statusPrepared (statusRdx s.status) (statusLogn s.status) ∧
    statusLogn s.status ≤ s.cap.toNat ∧ s.n.toNat = 2 ^ statusLogn s.status)

/-- The four memories have their canonical form, and no element at or beyond N holds a value (R33, R40, R52). -/
def State.BuffersLegal (s : State) : Prop :=
  Memory.wf s.ibuf = true ∧ Memory.below s.n.toNat s.ibuf = true ∧
  Memory.wf s.obuf = true ∧ Memory.below s.n.toNat s.obuf = true ∧
  Memory.wf s.perm = true ∧ Memory.wf s.tw = true

/-- The tables are those of the prepared size and strategy for `N >= 4`, and hold no defined value otherwise (R39, R99,
R119). -/
def State.TablesLegal (s : State) : Prop :=
  (4 ≤ s.n.toNat →
    s.tw = twgen binary64 s.n.toNat [] ∧ s.perm = permgen (statusRdx s.status) s.n.toNat []) ∧
  (s.n.toNat < 4 → s.tw = [] ∧ s.perm = [])

/-- The codes that a fault can have: AliasingViolation is never raised (R225). -/
def raisable : List FaultCode := [.invalidSize, .lengthMismatch, .indexRange, .notPrepared, .illegalCommand]

/-- The fault registers hold a record (R30 to R32): none yet, or the code of the most recent fault, whose bit of FSTICKY is
set; no other bit of FSTICKY is ever set than those of codes 1, 2, 4, 5 and 6. -/
def State.FaultRecordLegal (s : State) : Prop :=
  s.fsticky &&& ~~~0x76#32 = 0#32 ∧
  ((s.fsticky = 0#32 ∧ s.fcode = 0#32 ∧ s.fexp = 0#32 ∧ s.fact = 0#32) ∨
   ∃ c ∈ raisable, s.fcode = c.number.setWidth 32 ∧ s.fsticky &&& stickyBit c ≠ 0#32)

/-- The invariant of the machine. -/
structure State.Inv (s : State) : Prop where
  cap : s.CapLegal
  kernel : s.KernelLegal
  buffers : s.BuffersLegal
  tables : s.TablesLegal
  record : s.FaultRecordLegal

/-- "A host that wants to claim that no fault has been recorded reads FSTICKY = 0" (R30). -/
def State.faultFree (s : State) : Prop := s.fsticky = 0#32

/-- `t` differs from `s` at most in the four fault registers and in the output (R232). -/
def State.sameButFaultRecord (s t : State) : Prop :=
  t = { s with fsticky := t.fsticky, fcode := t.fcode, fexp := t.fexp, fact := t.fact, output := t.output }

/-- The size of a PREPARE is valid: a power of two, at least 1 and at most NMAX (R192, R222). -/
def State.validSize (s : State) (size : BitVec 24) : Prop :=
  ∃ e, size.toNat = 2 ^ e ∧ e ≤ s.cap.toNat

/-- The fault of SETIN, GETIN and GETOUT, whose opcode is `op` (R226, R227, R229). -/
def State.faultOfIndex (s : State) (op : Nat) (idx : BitVec 24) : Option (FaultCode × Word × Word) :=
  if s.prepared = false then some (.notPrepared, 0#32, BitVec.ofNat 32 op)
  else if idx.toNat < s.n.toNat then none
  else some (.indexRange, s.n, idx.setWidth 32)

/-- The fault that a command raises, with its two information words, or nothing: the matrix of R229 in the order of R230, the
state check before the operand check. -/
def State.faultOf (s : State) : Instr → Option (FaultCode × Word × Word)
  | .prepare _ size =>
    if (∃ e ∈ List.range (s.cap.toNat + 1), size.toNat = 2 ^ e) then none
    else some (.invalidSize, BitVec.ofNat 32 (2 ^ s.cap.toNat), size.setWidth 32)
  | .setin idx => s.faultOfIndex 2 idx
  | .getin idx => s.faultOfIndex 3 idx
  | .run _ len =>
    if s.prepared = false then some (.notPrepared, 0#32, 4#32)
    else if len.toNat = s.n.toNat then none
    else some (.lengthMismatch, s.n, len.setWidth 32)
  | .getout idx => s.faultOfIndex 5 idx
  | .dispose => none
  | .rdcsr csr => if csr.toNat ≤ 6 then none else some (.illegalCommand, 0#32, 0x70000000#32 ||| csr.setWidth 32)

/-- The next input of `s` is a word that decodes to the instruction `i`. -/
def State.presents (s : State) (i : Instr) : Prop :=
  ∃ w rest, s.inputs = .command w :: rest ∧ decode w = .legal i

/-- The next input of `s` is the reset event. -/
def State.resets (s : State) : Prop := ∃ rest, s.inputs = .reset :: rest

/-- `t` agrees with `s` in every piece of architectural state (R20) but OBUF. -/
def State.sameButObuf (s t : State) : Prop :=
  t = { s with obuf := t.obuf, output := t.output, draws := t.draws }

/-- The same Scalar, or a NaN in both places: what two occurrences of one computation agree in (R126, I9). -/
def Binary64.sameUpToNaN (x y : Scalar) : Prop := x = y ∨ Binary64.isNaN x = true ∧ Binary64.isNaN y = true

/-- Two elements agree up to NaNs: both hold no defined value, or both parts agree. -/
def sameElementUpToNaN : Option (Cplx Scalar) → Option (Cplx Scalar) → Prop
  | none, none => True
  | some z, some z' => Binary64.sameUpToNaN z.re z'.re ∧ Binary64.sameUpToNaN z.im z'.im
  | _, _ => False

/-- Reversal of the low `l` bits of `j` (R112). -/
def bitReverse : (l j : Nat) → Nat
  | 0, _ => 0
  | l + 1, j => (j % 2) * 2 ^ l + bitReverse l (j / 2)

/-- Reversal of the low `m` base-4 digits of `j`, each digit kept whole (R114). -/
def digitReverse4 : (m j : Nat) → Nat
  | 0, _ => 0
  | m + 1, j => (j % 4) * 4 ^ m + digitReverse4 m (j / 4)

/-- The closed form of PERMGEN4 for `n = 2 ^ l` (R114): for odd `l` the top bit of the slot is the lowest digit of the input
index. -/
def mixedReverse (l j : Nat) : Nat :=
  if l % 2 = 0 then digitReverse4 (l / 2) j
  else j / 2 ^ (l - 1) + 2 * digitReverse4 (l / 2) (j % 2 ^ (l - 1))

end Sys2Proof.Machine
end

