-- ==== Sys2Proof/Certificates/Slice0/Obligations.lean ====
section
/-! DEFINITION. The statements for the provers, from the numbered rules of the spec. -/

open Sys2Proof Sys2Proof.Machine

/-! ## Reset and the host's inputs -/

/-- R43: every piece of state after reset. That LOGNMAX is 16 is the model's choice (log 3); the statement says CAP = LOGNMAX. -/
def Obligations.ResetLeavesUnpreparedAndUndefined : Prop :=
  State.reset.status = 0#32 ∧ State.reset.n = 0#32 ∧ State.reset.cap = BitVec.ofNat 32 Config.logNMax ∧
  State.reset.fsticky = 0#32 ∧ State.reset.fcode = 0#32 ∧ State.reset.fexp = 0#32 ∧ State.reset.fact = 0#32 ∧
  State.reset.dre = .noDefinedValue ∧ State.reset.dim = .noDefinedValue ∧
  (∀ j, Memory.read State.reset.ibuf j = none ∧ Memory.read State.reset.obuf j = none ∧
    Memory.read State.reset.perm j = none ∧ Memory.read State.reset.tw j = none)

/-- R250, R29: the reset event, from every state: the values of R43, CAP as before, and the host's later inputs as before. -/
def Obligations.ResetEventRestoresResetState : Prop :=
  ∀ (s : State) (rest : List HostInput), s.inputs = .reset :: rest →
    ∃ t, step s = .next t ∧ t.status = 0#32 ∧ t.n = 0#32 ∧ t.cap = s.cap ∧
      t.fsticky = 0#32 ∧ t.fcode = 0#32 ∧ t.fexp = 0#32 ∧ t.fact = 0#32 ∧
      t.dre = .noDefinedValue ∧ t.dim = .noDefinedValue ∧
      (∀ j, Memory.read t.ibuf j = none ∧ Memory.read t.obuf j = none ∧
        Memory.read t.perm j = none ∧ Memory.read t.tw j = none) ∧
      t.inputs = rest ∧ t.output = .nothing

/-- R199: WriteData writes DRE and DIM and nothing else; ReadData obtains them and changes nothing; neither has a response.
`draws` is the model's counter of free values (log 6). -/
def Obligations.HostMovesTouchOnlyDataRegisters : Prop :=
  (∀ (s : State) (re im : Scalar) (rest : List HostInput), s.inputs = .writeData re im :: rest →
    step s = .next { s with dre := .value re, dim := .value im, inputs := rest, output := .nothing }) ∧
  (∀ (s : State) (rest : List HostInput), s.inputs = .readData :: rest →
    ∃ re im, step s = .next { s with inputs := rest, output := .data re im, draws := s.draws + 1 } ∧
      (∀ a, s.dre = .value a → re = a) ∧ (∀ b, s.dim = .value b → im = b))

/-- A step runs the decoded instruction: the next command word is taken from the host's inputs and presented (R190), a legal
word runs its command and an illegal word raises IllegalCommand with the word (R78, R228); nothing else happens around it. -/
def Obligations.StepRunsTheDecodedCommand : Prop :=
  ∀ (s : State) (w : Word) (rest : List HostInput), s.inputs = .command w :: rest →
    step s = presentWord w { s with inputs := rest } ∧
    (∀ i, decode w = .legal i → step s = exec i { s with inputs := rest }) ∧
    (∀ why, decode w = .illegal why → step s = .next (State.raise { s with inputs := rest } .illegalCommand 0#32 w))

/-- R190: every word gets a response, in every state; and no input whatever stops the machine. -/
def Obligations.EveryWordGetsAResponse : Prop :=
  (∀ s : State, ∃ t, step s = .next t) ∧
  (∀ (s : State) (w : Word) (rest : List HostInput), s.inputs = .command w :: rest →
    ∃ t code info0 info1, step s = .next t ∧ t.output = .response code info0 info1 ∧ t.inputs = rest)

/-! ## Encoding -/

/-- Decode and encode agree: every operand of every command at every value the encoding admits. -/
def Obligations.DecodeOfEncodeIsTheCommand : Prop :=
  ∀ i : Instr, i.wellFormed = true → decode (encode i) = .legal i

/-- The other direction: a legal word is the word of its command, so no bit of a legal word is ignored (R78). -/
def Obligations.LegalWordIsTheEncodingOfItsCommand : Prop :=
  ∀ (w : Word) (i : Instr), decode w = .legal i → encode i = w ∧ i.wellFormed = true

/-- R81: the mask and match table. Each row accepts the words of its command, with the fields the table gives, RDCSR under
its further test; a word that matches no row is illegal, and no word matches two. -/
def Obligations.MaskMatchTableDecidesTheCommand : Prop :=
  ∀ w : Word,
    (w &&& 0xFE000000#32 = 0x10000000#32 →
      decode w = .legal (.prepare (if w.getLsbD 24 then .r4 else .r2) (w.extractLsb' 0 24))) ∧
    (w &&& 0xFF000000#32 = 0x20000000#32 → decode w = .legal (.setin (w.extractLsb' 0 24))) ∧
    (w &&& 0xFF000000#32 = 0x30000000#32 → decode w = .legal (.getin (w.extractLsb' 0 24))) ∧
    (w &&& 0xFE000000#32 = 0x40000000#32 →
      decode w = .legal (.run (if w.getLsbD 24 then .inv else .fwd) (w.extractLsb' 0 24))) ∧
    (w &&& 0xFF000000#32 = 0x50000000#32 → decode w = .legal (.getout (w.extractLsb' 0 24))) ∧
    (w &&& 0xFFFFFFFF#32 = 0x60000000#32 → decode w = .legal .dispose) ∧
    (w &&& 0xFFFFFFF0#32 = 0x70000000#32 →
      if (w.extractLsb' 0 4).toNat ≤ 6 then decode w = .legal (.rdcsr (w.extractLsb' 0 4))
      else ∃ why, decode w = .illegal why) ∧
    ((∀ r ∈ decodeTable, r.accepts w = false) → ∃ why, decode w = .illegal why) ∧
    ∀ r ∈ decodeTable, ∀ q ∈ decodeTable, r.accepts w = true → q.accepts w = true → r = q

/-- Words written out from the spec's encodings (V5) and what they stand for. -/
def Obligations.SampleWordsDecodeAsTheSpecSays : Prop :=
  decode 0x10000004#32 = .legal (.prepare .r2 4#24) ∧ decode 0x11000400#32 = .legal (.prepare .r4 1024#24) ∧
  decode 0x20FFFFFF#32 = .legal (.setin 0xFFFFFF#24) ∧ decode 0x30000002#32 = .legal (.getin 2#24) ∧
  decode 0x40000004#32 = .legal (.run .fwd 4#24) ∧ decode 0x41010000#32 = .legal (.run .inv 65536#24) ∧
  decode 0x50000007#32 = .legal (.getout 7#24) ∧ decode 0x60000000#32 = .legal .dispose ∧
  decode 0x70000006#32 = .legal (.rdcsr 6#4)

/-! ## The commands -/

/-- R192: PREPARE, valid and invalid. -/
def Obligations.PrepareBuildsOrRefuses : Prop :=
  ∀ (rdx : Radix) (size : BitVec 24) (s : State),
    (s.validSize size → ∃ t, exec (.prepare rdx size) s = .next t ∧
      t.n = size.setWidth 32 ∧ t.status = statusPrepared rdx (Nat.log2 size.toNat) ∧
      (∀ j, Memory.read t.ibuf j = none ∧ Memory.read t.obuf j = none) ∧
      (4 ≤ size.toNat → t.tw = twgen binary64 size.toNat [] ∧ t.perm = permgen rdx size.toNat []) ∧
      (size.toNat < 4 → ∀ j, Memory.read t.tw j = none ∧ Memory.read t.perm j = none) ∧
      t.dre = s.dre ∧ t.dim = s.dim ∧ t.cap = s.cap ∧ t.fsticky = s.fsticky ∧ t.fcode = s.fcode ∧
      t.fexp = s.fexp ∧ t.fact = s.fact ∧ t.inputs = s.inputs ∧ t.output = .response 0#4 0#32 0#32) ∧
    (¬ s.validSize size → exec (.prepare rdx size) s =
      .next (s.raise .invalidSize (BitVec.ofNat 32 (2 ^ s.cap.toNat)) (size.setWidth 32))) ∧
    (∀ w : Word, opcodeOf w = 1#4 → w &&& 0x0E000000#32 ≠ 0#32 →
      presentWord w s = .next (s.raise .illegalCommand 0#32 w))

/-- R91: the twiddle ROM after a PREPARE that responds OK, entry by entry. -/
def Obligations.PrepareFillsTheTwiddleRom : Prop :=
  ∀ (rdx : Radix) (size : BitVec 24) (s : State), s.validSize size → 4 ≤ size.toNat →
    ∃ t, exec (.prepare rdx size) s = .next t ∧
      ∀ k, Memory.read t.tw k = if k ≤ size.toNat / 4 then some (Binary64.cosq size.toNat k) else none

/-- R192 (a), R197: PREPARE while Prepared stands for DISPOSE and then PREPARE. -/
def Obligations.PrepareReplacesLikeDisposeThenPrepare : Prop :=
  ∀ (rdx : Radix) (size : BitVec 24) (s : State), s.validSize size →
    ∃ t u, exec .dispose s = .next t ∧ exec (.prepare rdx size) t = .next u ∧ exec (.prepare rdx size) s = .next u

/-- R193: SETIN. The value of a data register that holds none is free (R40, log 7). -/
def Obligations.SetinWritesOneInputElement : Prop :=
  ∀ (idx : BitVec 24) (s : State),
    (s.prepared = false → exec (.setin idx) s = .next (s.raise .notPrepared 0#32 2#32)) ∧
    (s.prepared = true → s.n.toNat ≤ idx.toNat →
      exec (.setin idx) s = .next (s.raise .indexRange s.n (idx.setWidth 32))) ∧
    (s.prepared = true → idx.toNat < s.n.toNat → ∃ t re im, exec (.setin idx) s = .next t ∧
      Memory.read t.ibuf idx.toNat = some ⟨re, im⟩ ∧
      (∀ a, s.dre = .value a → re = a) ∧ (∀ b, s.dim = .value b → im = b) ∧
      (∀ j, j ≠ idx.toNat → Memory.read t.ibuf j = Memory.read s.ibuf j) ∧
      t = { s with ibuf := t.ibuf, output := .response 0#4 0#32 0#32, draws := t.draws }) ∧
    (∀ w : Word, opcodeOf w = 2#4 → w &&& 0x0F000000#32 ≠ 0#32 →
      presentWord w s = .next (s.raise .illegalCommand 0#32 w))

/-- R194: GETIN. What it obtains from an element that holds no value is free (R40, log 7). -/
def Obligations.GetinReadsOneInputElement : Prop :=
  ∀ (idx : BitVec 24) (s : State),
    (s.prepared = false → exec (.getin idx) s = .next (s.raise .notPrepared 0#32 3#32)) ∧
    (s.prepared = true → s.n.toNat ≤ idx.toNat →
      exec (.getin idx) s = .next (s.raise .indexRange s.n (idx.setWidth 32))) ∧
    (s.prepared = true → idx.toNat < s.n.toNat → ∃ (z : Cplx Scalar) (t : State),
      exec (.getin idx) s = .next t ∧
      t = { s with
        dre := .value z.re, dim := .value z.im, output := .response 0#4 0#32 0#32, draws := t.draws } ∧
      ∀ v, Memory.read s.ibuf idx.toNat = some v → z = v) ∧
    (∀ w : Word, opcodeOf w = 3#4 → w &&& 0x0F000000#32 ≠ 0#32 →
      presentWord w s = .next (s.raise .illegalCommand 0#32 w))

/-- R196: GETOUT. What it obtains from an element that holds no value is free (R40, log 7). -/
def Obligations.GetoutReadsOneOutputElement : Prop :=
  ∀ (idx : BitVec 24) (s : State),
    (s.prepared = false → exec (.getout idx) s = .next (s.raise .notPrepared 0#32 5#32)) ∧
    (s.prepared = true → s.n.toNat ≤ idx.toNat →
      exec (.getout idx) s = .next (s.raise .indexRange s.n (idx.setWidth 32))) ∧
    (s.prepared = true → idx.toNat < s.n.toNat → ∃ (z : Cplx Scalar) (t : State),
      exec (.getout idx) s = .next t ∧
      t = { s with
        dre := .value z.re, dim := .value z.im, output := .response 0#4 0#32 0#32, draws := t.draws } ∧
      ∀ v, Memory.read s.obuf idx.toNat = some v → z = v) ∧
    (∀ w : Word, opcodeOf w = 5#4 → w &&& 0x0F000000#32 ≠ 0#32 →
      presentWord w s = .next (s.raise .illegalCommand 0#32 w))

/-- R195, R166: RUN's checks, and what it changes: OBUF below N and nothing else. -/
def Obligations.RunChecksThenWritesOnlyObuf : Prop :=
  ∀ (d : Direction) (len : BitVec 24) (s : State),
    (s.prepared = false → exec (.run d len) s = .next (s.raise .notPrepared 0#32 4#32)) ∧
    (s.prepared = true → len.toNat ≠ s.n.toNat →
      exec (.run d len) s = .next (s.raise .lengthMismatch s.n (len.setWidth 32))) ∧
    (s.prepared = true → len.toNat = s.n.toNat → ∃ t, exec (.run d len) s = .next t ∧
      t.obuf = runBody binary64 s.draws s.n.toNat (statusRdx s.status) d s.perm s.tw s.ibuf s.obuf ∧
      (∀ j, s.n.toNat ≤ j → Memory.read t.obuf j = Memory.read s.obuf j) ∧
      s.sameButObuf t ∧ t.output = .response 0#4 0#32 0#32) ∧
    (∀ w : Word, opcodeOf w = 4#4 → w &&& 0x0E000000#32 ≠ 0#32 →
      presentWord w s = .next (s.raise .illegalCommand 0#32 w))

/-- R197: DISPOSE, in both states. -/
def Obligations.DisposeForgetsTheKernel : Prop :=
  ∀ s : State, ∃ t, exec .dispose s = .next t ∧ t.status = 0#32 ∧ t.n = 0#32 ∧
    (∀ j, Memory.read t.ibuf j = none ∧ Memory.read t.obuf j = none ∧
      Memory.read t.perm j = none ∧ Memory.read t.tw j = none) ∧
    t.dre = s.dre ∧ t.dim = s.dim ∧ t.cap = s.cap ∧ t.fsticky = s.fsticky ∧ t.fcode = s.fcode ∧
    t.fexp = s.fexp ∧ t.fact = s.fact ∧ t.inputs = s.inputs ∧ t.output = .response 0#4 0#32 0#32 ∧
    (∀ w : Word, opcodeOf w = 6#4 → w &&& 0x0FFFFFFF#32 ≠ 0#32 →
      presentWord w s = .next (s.raise .illegalCommand 0#32 w))

/-- R198, R26: RDCSR of each register changes nothing and responds with it; a reserved register number or bit is illegal. -/
def Obligations.RdcsrRespondsWithTheRegister : Prop :=
  ∀ s : State,
    exec (.rdcsr 0#4) s = .next { s with output := .response 0#4 s.status 0#32 } ∧
    exec (.rdcsr 1#4) s = .next { s with output := .response 0#4 s.n 0#32 } ∧
    exec (.rdcsr 2#4) s = .next { s with output := .response 0#4 s.cap 0#32 } ∧
    exec (.rdcsr 3#4) s = .next { s with output := .response 0#4 s.fsticky 0#32 } ∧
    exec (.rdcsr 4#4) s = .next { s with output := .response 0#4 s.fcode 0#32 } ∧
    exec (.rdcsr 5#4) s = .next { s with output := .response 0#4 s.fexp 0#32 } ∧
    exec (.rdcsr 6#4) s = .next { s with output := .response 0#4 s.fact 0#32 } ∧
    (∀ csr : BitVec 4, 6 < csr.toNat → ∀ w, w = 0x70000000#32 ||| csr.setWidth 32 →
      presentWord w s = .next (s.raise .illegalCommand 0#32 w)) ∧
    (∀ w : Word, opcodeOf w = 7#4 → w &&& 0x0FFFFFF0#32 ≠ 0#32 →
      presentWord w s = .next (s.raise .illegalCommand 0#32 w))

/-- R151: RUN at size 1 copies the element, bit for bit, in both directions and with both strategies. (An element without a
defined value: UnwrittenInputLeavesNoDefinedOutput.) -/
def Obligations.RunOfSizeOneCopies : Prop :=
  ∀ (d : Direction) (s : State), s.prepared = true → s.n = 1#32 →
    ∃ t, exec (.run d 1#24) s = .next t ∧
      (∀ z, Memory.read s.ibuf 0 = some z → Memory.read t.obuf 0 = some z) ∧
      (∀ j, j ≠ 0 → Memory.read t.obuf j = Memory.read s.obuf j) ∧ s.sameButObuf t

/-- R152: RUN at size 2 is one complex sum and one complex difference, in both directions and with both strategies; the
occurrences name the free NaNs only (log 9). -/
def Obligations.RunOfSizeTwoAddsAndSubtracts : Prop :=
  ∀ (d : Direction) (s : State) (a b : Cplx Scalar), s.prepared = true → s.n = 2#32 →
    Memory.read s.ibuf 0 = some a → Memory.read s.ibuf 1 = some b →
    ∃ t o1 o2 o3 o4, exec (.run d 2#24) s = .next t ∧
      Memory.read t.obuf 0 = some ⟨Binary64.add o1 a.re b.re, Binary64.add o2 a.im b.im⟩ ∧
      Memory.read t.obuf 1 = some ⟨Binary64.sub o3 a.re b.re, Binary64.sub o4 a.im b.im⟩ ∧
      (∀ j, 2 ≤ j → Memory.read t.obuf j = Memory.read s.obuf j) ∧ s.sameButObuf t

/-! ## Faults -/

/-- R231: taking a fault, for every fault: the four fault registers and the response, and everything else as it was. -/
def Obligations.FaultEntryWritesTheRecord : Prop :=
  ∀ (s : State) (c : FaultCode) (a b : Word),
    s.raise c a b = { s with
      fsticky := s.fsticky ||| 1#32 <<< c.number.toNat, fcode := c.number.setWidth 32, fexp := a, fact := b,
      output := .response c.number a b } ∧
    FaultCode.invalidSize.number = 1#4 ∧ FaultCode.lengthMismatch.number = 2#4 ∧
    FaultCode.aliasingViolation.number = 3#4 ∧ FaultCode.indexRange.number = 4#4 ∧
    FaultCode.notPrepared.number = 5#4 ∧ FaultCode.illegalCommand.number = 6#4

/-- R229, R230: exactly which fault each word raises, with its information words, in the order decode, state, operand; and a
word that raises none responds OK. -/
def Obligations.FaultMatrixIsComplete : Prop :=
  ∀ (w : Word) (s : State),
    (∀ why, decode w = .illegal why → presentWord w s = .next (s.raise .illegalCommand 0#32 w)) ∧
    (∀ i c a b, decode w = .legal i → s.faultOf i = some (c, a, b) → presentWord w s = .next (s.raise c a b)) ∧
    (∀ i, decode w = .legal i → s.faultOf i = none →
      ∃ t info0, presentWord w s = .next t ∧ t.output = .response 0#4 info0 0#32)

/-- R232: a word that faults changes the fault registers and nothing else. -/
def Obligations.FaultLeavesNoOtherTrace : Prop :=
  ∀ (w : Word) (s t : State) (code : BitVec 4) (info0 info1 : Word), presentWord w s = .next t →
    t.output = .response code info0 info1 → code ≠ 0#4 →
    s.sameButFaultRecord t ∧ t.fsticky = s.fsticky ||| 1#32 <<< code.toNat ∧ t.fcode = code.setWidth 32 ∧
      t.fexp = info0 ∧ t.fact = info1

/-- R201: an OK response carries the register for RDCSR and 0 for every other command, and its second word is 0; a fault's
triple is copied into FCODE, FEXP and FACT. -/
def Obligations.ResponseCarriesTheRegisterOrZero : Prop :=
  ∀ (w : Word) (s t : State) (code : BitVec 4) (a b : Word), presentWord w s = .next t →
    t.output = .response code a b →
    (code = 0#4 → b = 0#32 ∧
      (∀ csr r, decode w = .legal (.rdcsr csr) → csrOfNumber csr = some r → a = s.readCsr r) ∧
      ((∀ csr, decode w ≠ .legal (.rdcsr csr)) → a = 0#32)) ∧
    (code ≠ 0#4 → t.fcode = code.setWidth 32 ∧ t.fexp = a ∧ t.fact = b)

/-- R31, R32: a word that responds OK does not change the fault registers. -/
def Obligations.OkKeepsTheFaultRecord : Prop :=
  ∀ (w : Word) (s t : State) (info0 info1 : Word), presentWord w s = .next t →
    t.output = .response 0#4 info0 info1 →
    t.fsticky = s.fsticky ∧ t.fcode = s.fcode ∧ t.fexp = s.fexp ∧ t.fact = s.fact

/-- R233: after a fault the same word raises the same fault with the same information words. -/
def Obligations.SameWordRaisesTheSameFaultAgain : Prop :=
  ∀ (w : Word) (s t : State) (code : BitVec 4) (info0 info1 : Word), presentWord w s = .next t →
    t.output = .response code info0 info1 → code ≠ 0#4 →
    ∃ u, presentWord w t = .next u ∧ u.output = .response code info0 info1

/-- R233: "every check is a pure function of the word, STATUS and N" (and of the constant CAP): two states that agree in
these, whatever else they hold, answer a word with the same code, and with the same information words when it faults. -/
def Obligations.ChecksReadOnlyStatusNAndCap : Prop :=
  ∀ (w : Word) (s s' t t' : State) (code code' : BitVec 4) (a b a' b' : Word),
    s.status = s'.status → s.n = s'.n → s.cap = s'.cap →
    presentWord w s = .next t → presentWord w s' = .next t' →
    t.output = .response code a b → t'.output = .response code' a' b' →
    code = code' ∧ (code ≠ 0#4 → a = a' ∧ b = b')

/-- R30, R251: only reset clears a bit of FSTICKY, and the four fault registers change only by a fault, which writes all of
them. -/
def Obligations.OnlyResetClearsTheFaultRecord : Prop :=
  ∀ s t : State, step s = .next t → ¬ s.resets →
    (t.fsticky = s.fsticky ∧ t.fcode = s.fcode ∧ t.fexp = s.fexp ∧ t.fact = s.fact) ∨
    ∃ c ∈ raisable, ∃ a b, t.output = .response c.number a b ∧ t.fsticky = s.fsticky ||| stickyBit c ∧
      t.fcode = c.number.setWidth 32 ∧ t.fexp = a ∧ t.fact = b

/-! ## Which inputs change what -/

/-- R27, R28: STATUS and N change only by a PREPARE of a valid size, by DISPOSE and by reset; CAP never changes (R29). -/
def Obligations.OnlyPrepareDisposeResetChangeStatus : Prop :=
  ∀ s t : State, step s = .next t →
    t.cap = s.cap ∧
    (t.status ≠ s.status ∨ t.n ≠ s.n →
      (∃ rdx size, s.presents (.prepare rdx size) ∧ s.validSize size) ∨ s.presents .dispose ∨ s.resets)

/-- R38: PERM and TW change only by PREPARE, DISPOSE and reset. -/
def Obligations.TablesAreImmutableBetweenPrepares : Prop :=
  ∀ s t : State, step s = .next t → t.perm ≠ s.perm ∨ t.tw ≠ s.tw →
    (∃ rdx size, s.presents (.prepare rdx size) ∧ s.validSize size) ∨ s.presents .dispose ∨ s.resets

/-- R34, R35: IBUF changes only by SETIN, OBUF only by RUN, besides PREPARE, DISPOSE and reset. In particular RUN never
changes IBUF (R178). -/
def Obligations.BuffersHaveOneWriterEach : Prop :=
  ∀ s t : State, step s = .next t →
    ¬ (∃ rdx size, s.presents (.prepare rdx size)) → ¬ s.presents .dispose → ¬ s.resets →
    (t.ibuf ≠ s.ibuf → ∃ idx, s.presents (.setin idx)) ∧
    (t.obuf ≠ s.obuf → ∃ d len, s.presents (.run d len))

/-- R22: DRE and DIM change only by WriteData, by a GETIN or GETOUT that responds OK, and by reset. -/
def Obligations.DataRegistersChangeOnlyByTransfers : Prop :=
  ∀ s t : State, step s = .next t → t.dre ≠ s.dre ∨ t.dim ≠ s.dim →
    (∃ re im rest, s.inputs = .writeData re im :: rest) ∨ s.resets ∨
    ((∃ idx, s.presents (.getin idx) ∨ s.presents (.getout idx)) ∧ t.output = .response 0#4 0#32 0#32)

/-- R200: the state machine. A PREPARE of a valid size leads to Prepared(size) and DISPOSE to Unprepared; every other word,
whatever it answers, leaves the engine Unprepared or Prepared(n) as it was. -/
def Obligations.PreparedFollowsTheStateMachine : Prop :=
  ∀ (w : Word) (s t : State), presentWord w s = .next t →
    (∀ rdx size, decode w = .legal (.prepare rdx size) → s.validSize size →
      t.prepared = true ∧ statusRdx t.status = rdx ∧ t.n = size.setWidth 32) ∧
    (decode w = .legal .dispose → t.prepared = false ∧ t.n = 0#32) ∧
    ((∀ rdx size, decode w = .legal (.prepare rdx size) → ¬ s.validSize size) → decode w ≠ .legal .dispose →
      t.status = s.status ∧ t.n = s.n)

/-! ## The invariant -/

/-- The invariant holds after reset. -/
def Obligations.ResetStateMeetsTheInvariant : Prop := State.reset.Inv

/-- R27 to R32, R33, R38, R39, R225: every step keeps the invariant: STATUS and N agree, the tables are those of the prepared
size, the memories are canonical, and the fault registers hold a record in which bit 3 of FSTICKY is 0. -/
def Obligations.EveryStepKeepsTheInvariant : Prop :=
  ∀ s t : State, s.Inv → step s = .next t → t.Inv

/-! ## The twiddle ROM -/

/-- R92: the ends and the middle of the table, and one table serves all sizes (R102). -/
def Obligations.RomEndsAreExactAndScaleFree : Prop :=
  (∀ l, 2 ≤ l → Binary64.cosq (2 ^ l) 0 = 0x3FF0000000000000#64 ∧ Binary64.cosq (2 ^ l) (2 ^ l / 4) = 0#64) ∧
  (∀ l, 3 ≤ l → Binary64.cosq (2 ^ l) (2 ^ l / 8) = 0x3FE6A09E667F3BCD#64) ∧
  (∀ l k, 2 ≤ l → k ≤ 2 ^ l / 4 → Binary64.cosq (2 ^ l) k = Binary64.cosq (2 * 2 ^ l) (2 * k))

/-- The bounds from which the ROM is rounded enclose the exact cosine and are close (R92, log 10); so for every size each ROM
entry is finite and, within twice their distance, as near to the exact cosine as any finite Scalar. Bounds are in units of
2^-240, Scalars in units of 2^-1074. -/
def Obligations.CosineBoundsEncloseTheCosine : Prop :=
  (∀ l k, k ≤ 2 ^ l →
    ((Cosine.bounds l k).lower : ℝ) ≤ 2 ^ Cosine.precision * Real.cos (2 * Real.pi * k / (4 * 2 ^ l)) ∧
    2 ^ Cosine.precision * Real.cos (2 * Real.pi * k / (4 * 2 ^ l)) ≤ ((Cosine.bounds l k).upper : ℝ) ∧
    (Cosine.bounds l k).upper - (Cosine.bounds l k).lower ≤ 2 ^ (l + 2)) ∧
  ∀ l k, 2 ≤ l → k ≤ 2 ^ l / 4 →
    Binary64.isFinite (Binary64.cosq (2 ^ l) k) = true ∧
    ∀ y : Scalar, Binary64.isFinite y = true →
      |(Binary64.units (Binary64.cosq (2 ^ l) k) : ℝ) - 2 ^ 1074 * Real.cos (2 * Real.pi * k / 2 ^ l)| ≤
        |(Binary64.units y : ℝ) - 2 ^ 1074 * Real.cos (2 * Real.pi * k / 2 ^ l)| + 2 ^ (l + 835)

/-- R92 for the sizes up to 32: each entry is a finite Scalar, and no finite Scalar is nearer to the exact cosine. -/
def Obligations.RomEntriesAreNearestUpToThirtyTwo : Prop :=
  ∀ l k, 2 ≤ l → l ≤ 5 → k ≤ 2 ^ l / 4 →
    Binary64.isFinite (Binary64.cosq (2 ^ l) k) = true ∧
    ∀ y : Scalar, Binary64.isFinite y = true →
      |(Binary64.units (Binary64.cosq (2 ^ l) k) : ℝ) - 2 ^ 1074 * Real.cos (2 * Real.pi * k / 2 ^ l)| ≤
        |(Binary64.units y : ℝ) - 2 ^ 1074 * Real.cos (2 * Real.pi * k / 2 ^ l)|

/-- R93, R97: TWLOOKUP answers for every integer index and depends on it modulo `n` only. -/
def Obligations.TwiddleLookupIsPeriodic : Prop :=
  ∀ (n : Nat) (d : Direction) (r m : Int), 4 ≤ n →
    ∃ w, twlookup binary64 n (twgen binary64 n []) d r = some w ∧
      twlookup binary64 n (twgen binary64 n []) d (r + m * n) = some w

/-- R100, for every Scalar whose `neg` undoes itself, as both of the spec's do: the inverse direction is the complex conjugate,
a half turn of the index negates both parts, a quarter turn is ROT90, a whole turn changes nothing. The equalities hold bit
for bit, also of a zero. -/
def Obligations.TwiddleSymmetries : Prop :=
  ∀ (α : Type) (A : Arith α) (l : Nat) (d : Direction) (r : Int), 2 ≤ l → (∀ x, A.neg (A.neg x) = x) →
    let W (d : Direction) (r : Int) := twlookup A (2 ^ l) (twgen A (2 ^ l) []) d r
    (∃ w, W d r = some w) ∧
    W .inv r = (W .fwd r).map (fun w => ⟨w.re, A.neg w.im⟩) ∧
    W d (r + 2 ^ l / 2) = (W d r).map (fun w => ⟨A.neg w.re, A.neg w.im⟩) ∧
    W d (r + 2 ^ l / 4) = (W d r).map (rot90 A d) ∧
    W d (r + 2 ^ l) = W d r

/-- R98: with the exact Scalar, TWLOOKUP is the root of unity. -/
def Obligations.ExactTwiddleIsTheRootOfUnity : Prop :=
  ∀ (l : Nat) (d : Direction) (r : Int), 2 ≤ l →
    ∃ w, twlookup exactReal (2 ^ l) (twgen exactReal (2 ^ l) []) d r = some w ∧
      toComplex w = rootOfUnity d (2 ^ l) r

/-! ## The permutation unit -/

/-- R112: PERMGEN2 is bit reversal. -/
def Obligations.PermgenTwoIsBitReversal : Prop :=
  ∀ l j, j < 2 ^ l → Memory.read (permgen2 (2 ^ l) []) j = some (bitReverse l j)

/-- R114: PERMGEN4 is the mixed-radix digit reversal. -/
def Obligations.PermgenFourIsMixedDigitReversal : Prop :=
  ∀ l j, 2 ≤ l → j < 2 ^ l → Memory.read (permgen4 (2 ^ l) []) j = some (mixedReverse l j)

/-- R115, R120: both tables have exactly `n` entries, each below `n`, and every index appears exactly once. -/
def Obligations.PermutationTablesAreBijections : Prop :=
  ∀ (rdx : Radix) (l : Nat), 2 ≤ l →
    (∀ j, j < 2 ^ l → ∃ v, Memory.read (permgen rdx (2 ^ l) []) j = some v ∧ v < 2 ^ l) ∧
    (∀ j, 2 ^ l ≤ j → Memory.read (permgen rdx (2 ^ l) []) j = none) ∧
    (∀ v, v < 2 ^ l → ∃! j, Memory.read (permgen rdx (2 ^ l) []) j = some v)

/-- R116: the radix-2 table is an involution, the radix-4 table is one for even `log2 n`, and for odd `log2 n` it is not; at
`n = 8`, `PERM[1] = 2` and `PERM[2] = 4`. -/
def Obligations.InvolutionOnlyWhereTheSpecSays : Prop :=
  (∀ l j v, 2 ≤ l → Memory.read (permgen2 (2 ^ l) []) j = some v → Memory.read (permgen2 (2 ^ l) []) v = some j) ∧
  (∀ l j v, 2 ≤ l → l % 2 = 0 →
    Memory.read (permgen4 (2 ^ l) []) j = some v → Memory.read (permgen4 (2 ^ l) []) v = some j) ∧
  (∀ l, 3 ≤ l → l % 2 = 1 → ∃ j v,
    Memory.read (permgen4 (2 ^ l) []) j = some v ∧ Memory.read (permgen4 (2 ^ l) []) v ≠ some j) ∧
  Memory.read (permgen4 8 []) 1 = some 2 ∧ Memory.read (permgen4 8 []) 2 = some 4

/-! ## The datapath and the sequencer -/

/-- R126: `neg` flips bit 63 and nothing else, for every operand; so it undoes itself, as R100's symmetries need. -/
def Obligations.NegFlipsTheSignBitOnly : Prop :=
  (∀ (x : Scalar) (i : Nat), i < 64 → (Binary64.neg x).getLsbD i = if i = 63 then !x.getLsbD i else x.getLsbD i) ∧
  ∀ x : Scalar, Binary64.neg (Binary64.neg x) = x

/-- R126: NaNs and infinities, in every operand position. A NaN operand gives a NaN, `inf - inf` and `0 * inf` give a NaN, and
an infinity otherwise gives the infinity of the sign of IEEE 754; whatever the free NaN is. -/
def Obligations.SpecialValuesPropagate : Prop :=
  ∀ (o : Occ) (a b : Scalar),
    (Binary64.isNaN a = true ∨ Binary64.isNaN b = true →
      Binary64.isNaN (Binary64.add o a b) = true ∧ Binary64.isNaN (Binary64.sub o a b) = true ∧
      Binary64.isNaN (Binary64.mul o a b) = true) ∧
    (Binary64.isInf a = true → Binary64.isInf b = true →
      (Binary64.sign a = Binary64.sign b →
        Binary64.add o a b = a ∧ Binary64.isNaN (Binary64.sub o a b) = true) ∧
      (Binary64.sign a ≠ Binary64.sign b →
        Binary64.isNaN (Binary64.add o a b) = true ∧ Binary64.sub o a b = a) ∧
      Binary64.isInf (Binary64.mul o a b) = true ∧
      Binary64.sign (Binary64.mul o a b) = (Binary64.sign a != Binary64.sign b)) ∧
    (Binary64.isInf a = true → Binary64.isFinite b = true →
      Binary64.add o a b = a ∧ Binary64.add o b a = a ∧
      Binary64.sub o a b = a ∧ Binary64.sub o b a = Binary64.neg a ∧
      (Binary64.units b = 0 → Binary64.isNaN (Binary64.mul o a b) = true ∧ Binary64.isNaN (Binary64.mul o b a) = true) ∧
      (Binary64.units b ≠ 0 →
        Binary64.isInf (Binary64.mul o a b) = true ∧ Binary64.isInf (Binary64.mul o b a) = true ∧
        Binary64.sign (Binary64.mul o a b) = (Binary64.sign a != Binary64.sign b) ∧
        Binary64.sign (Binary64.mul o b a) = (Binary64.sign a != Binary64.sign b)))

/-- R126: the sum of two finite values is the exact sum rounded once to nearest, ties to even, subnormals kept; an exact sum of
`2^1024 - 2^970` or more in magnitude overflows to the infinity of its sign. Values are in units of 2^-1074. -/
def Obligations.AddRoundsOnceToNearestEven : Prop :=
  ∀ (o : Occ) (a b : Scalar), Binary64.isFinite a = true → Binary64.isFinite b = true →
    let exact := Binary64.units a + Binary64.units b
    (|exact| < 2 ^ 2098 - 2 ^ 2044 → Binary64.isFinite (Binary64.add o a b) = true ∧
      ∀ y : Scalar, Binary64.isFinite y = true → Binary64.units y ≠ Binary64.units (Binary64.add o a b) →
        |Binary64.units (Binary64.add o a b) - exact| < |Binary64.units y - exact| ∨
        |Binary64.units (Binary64.add o a b) - exact| = |Binary64.units y - exact| ∧
          Binary64.fraction (Binary64.add o a b) % 2 = 0) ∧
    (2 ^ 2098 - 2 ^ 2044 ≤ |exact| → Binary64.isInf (Binary64.add o a b) = true ∧
      Binary64.sign (Binary64.add o a b) = decide (exact < 0)) ∧
    (exact = 0 → Binary64.add o a b = if Binary64.sign a && Binary64.sign b then 0x8000000000000000#64 else 0#64)

/-- R126: the product of two finite values is the exact product rounded once to nearest, ties to even, subnormals kept, with
the exclusive or of the signs; overflow as for the sum. The exact product is in units of 2^-2148. -/
def Obligations.MulRoundsOnceToNearestEven : Prop :=
  ∀ (o : Occ) (a b : Scalar), Binary64.isFinite a = true → Binary64.isFinite b = true →
    let exact := Binary64.units a * Binary64.units b
    let scaled (x : Scalar) : Int := Binary64.units x * 2 ^ 1074
    Binary64.sign (Binary64.mul o a b) = (Binary64.sign a != Binary64.sign b) ∧
    (|exact| < (2 ^ 2098 - 2 ^ 2044) * 2 ^ 1074 → Binary64.isFinite (Binary64.mul o a b) = true ∧
      ∀ y : Scalar, Binary64.isFinite y = true → Binary64.units y ≠ Binary64.units (Binary64.mul o a b) →
        |scaled (Binary64.mul o a b) - exact| < |scaled y - exact| ∨
        |scaled (Binary64.mul o a b) - exact| = |scaled y - exact| ∧
          Binary64.fraction (Binary64.mul o a b) % 2 = 0) ∧
    ((2 ^ 2098 - 2 ^ 2044) * 2 ^ 1074 ≤ |exact| → Binary64.isInf (Binary64.mul o a b) = true)

/-- R155, R160, R135: a radix-2 pass equals its butterflies taken all at once, for every Scalar, and leaves the slots beyond
`n` alone. R130, R132, R133: what the butterfly `(b, k)` leaves in its two slots, operation by operation. The occurrences
`o i` name the free NaNs only (log 9). -/
def Obligations.RadixTwoPassEqualsSimultaneousButterflies : Prop :=
  ∀ (α : Type) (A : Arith α) (draw n len : Nat) (tw : Memory α) (d : Direction) (m : Memory (Cplx α)),
    2 ∣ len → len ∣ n → 0 < n →
    (∀ p, Memory.read (pass2 A draw n tw d len m) p =
      if p < n then pass2At A draw n tw d len m p else Memory.read m p) ∧
    ∀ (b k : Nat) (e odd w : Cplx α), b < n / len → k < len / 2 →
      Memory.read m (b * len + k) = some e → Memory.read m (b * len + k + len / 2) = some odd →
      twlookup A n tw d ((k * (n / len) : Nat) : Int) = some w →
      ∃ o : Nat → Occ,
        let tre := A.sub (o 2) (A.mul (o 0) w.re odd.re) (A.mul (o 1) w.im odd.im)
        let tim := A.add (o 5) (A.mul (o 3) w.re odd.im) (A.mul (o 4) w.im odd.re)
        Memory.read (pass2 A draw n tw d len m) (b * len + k) = some ⟨A.add (o 6) e.re tre, A.add (o 7) e.im tim⟩ ∧
        Memory.read (pass2 A draw n tw d len m) (b * len + k + len / 2) =
          some ⟨A.sub (o 8) e.re tre, A.sub (o 9) e.im tim⟩

/-- R157, R160, R135: the same of a radix-4 pass. R130, R131, R134: what the butterfly `(b, k)` leaves in its four slots,
operation by operation, with the three twiddles `k·st`, `2k·st` and `3k·st`. -/
def Obligations.RadixFourPassEqualsSimultaneousButterflies : Prop :=
  ∀ (α : Type) (A : Arith α) (draw n len : Nat) (tw : Memory α) (d : Direction) (m : Memory (Cplx α)),
    4 ∣ len → len ∣ n → 0 < n →
    (∀ p, Memory.read (pass4 A draw n tw d len m) p =
      if p < n then pass4At A draw n tw d len m p else Memory.read m p) ∧
    ∀ (b k : Nat) (x0 x1 x2 x3 w1 w2 w3 : Cplx α), b < n / len → k < len / 4 →
      Memory.read m (b * len + k) = some x0 → Memory.read m (b * len + k + len / 4) = some x1 →
      Memory.read m (b * len + k + 2 * (len / 4)) = some x2 → Memory.read m (b * len + k + 3 * (len / 4)) = some x3 →
      twlookup A n tw d ((k * (n / len) : Nat) : Int) = some w1 →
      twlookup A n tw d ((2 * k * (n / len) : Nat) : Int) = some w2 →
      twlookup A n tw d ((3 * k * (n / len) : Nat) : Int) = some w3 →
      ∃ o : Nat → Occ,
        let product (i : Nat) (w z : Cplx α) : Cplx α :=
          ⟨A.sub (o (i + 2)) (A.mul (o i) w.re z.re) (A.mul (o (i + 1)) w.im z.im),
           A.add (o (i + 5)) (A.mul (o (i + 3)) w.re z.im) (A.mul (o (i + 4)) w.im z.re)⟩
        let plus (i : Nat) (x y : Cplx α) : Cplx α := ⟨A.add (o i) x.re y.re, A.add (o (i + 1)) x.im y.im⟩
        let minus (i : Nat) (x y : Cplx α) : Cplx α := ⟨A.sub (o i) x.re y.re, A.sub (o (i + 1)) x.im y.im⟩
        let b1 := product 0 w1 x1
        let c1 := product 6 w2 x2
        let d1 := product 12 w3 x3
        let s0 := plus 18 x0 c1
        let s1 := minus 20 x0 c1
        let s2 := plus 22 b1 d1
        let s3 := minus 24 b1 d1
        let t3 : Cplx α := if d = .fwd then ⟨A.neg s3.im, s3.re⟩ else ⟨s3.im, A.neg s3.re⟩
        let after := pass4 A draw n tw d len m
        Memory.read after (b * len + k) = some (plus 26 s0 s2) ∧
        Memory.read after (b * len + k + len / 4) = some (plus 28 s1 t3) ∧
        Memory.read after (b * len + k + 2 * (len / 4)) = some (minus 30 s0 s2) ∧
        Memory.read after (b * len + k + 3 * (len / 4)) = some (minus 32 s1 t3)

/-- R166: the previous contents of OBUF do not influence what RUN leaves below N. -/
def Obligations.RunIgnoresThePreviousObuf : Prop :=
  ∀ (d : Direction) (len : BitVec 24) (s t : State) (old : Memory (Cplx Scalar)), s.Inv → s.prepared = true →
    len.toNat = s.n.toNat → exec (.run d len) s = .next t →
    ∃ u, exec (.run d len) { s with obuf := old } = .next u ∧
      ∀ k, k < s.n.toNat → Memory.read u.obuf k = Memory.read t.obuf k

/-- R57, R166: RUN is a function of the prepared state, IBUF and the direction, but for free NaNs. Two states that agree in
STATUS, N, PERM, TW and IBUF, whatever else they hold, are left by the same RUN with the same OBUF below N, each part equal or
a NaN in both. And with any Scalar whose results depend on the operands alone (R125) the number of the command, which the
model uses to name free NaNs (log 9), plays no part in RUNBODY at all. -/
def Obligations.RunIsDeterministicUpToFreeNaNs : Prop :=
  (∀ (d : Direction) (len : BitVec 24) (s s' : State), s.prepared = true → len.toNat = s.n.toNat →
    s.status = s'.status → s.n = s'.n → s.perm = s'.perm → s.tw = s'.tw → s.ibuf = s'.ibuf →
    ∃ t t', exec (.run d len) s = .next t ∧ exec (.run d len) s' = .next t' ∧
      ∀ k, k < s.n.toNat → sameElementUpToNaN (Memory.read t.obuf k) (Memory.read t'.obuf k)) ∧
  ∀ (α : Type) (A : Arith α) (draw draw' n : Nat) (rdx : Radix) (d : Direction) (perm : Memory Nat) (tw : Memory α)
    (ibuf obuf : Memory (Cplx α)),
    (∀ o o' a b, A.add o a b = A.add o' a b ∧ A.sub o a b = A.sub o' a b ∧ A.mul o a b = A.mul o' a b) →
    runBody A draw n rdx d perm tw ibuf obuf = runBody A draw' n rdx d perm tw ibuf obuf

/-- R177: with every element of IBUF below N written, a RUN leaves a value in every element of OBUF below N. -/
def Obligations.RunFillsTheOutput : Prop :=
  ∀ (d : Direction) (len : BitVec 24) (s : State), s.Inv → s.prepared = true → len.toNat = s.n.toNat →
    (∀ j, j < s.n.toNat → Memory.read s.ibuf j ≠ none) →
    ∃ t, exec (.run d len) s = .next t ∧ ∀ k, k < s.n.toNat → Memory.read t.obuf k ≠ none

/-- R195, I6: with one element of IBUF below N unwritten, a RUN leaves no defined value in any element of OBUF below N: "every
element of OBUF that depends on them, which for n >= 2 is all of them, is unspecified". That the model keeps such an element
as one without a defined value is the model's choice (log 8). -/
def Obligations.UnwrittenInputLeavesNoDefinedOutput : Prop :=
  ∀ (d : Direction) (len : BitVec 24) (s : State) (j : Nat), s.Inv → s.prepared = true → len.toNat = s.n.toNat →
    j < s.n.toNat → Memory.read s.ibuf j = none →
    ∃ t, exec (.run d len) s = .next t ∧ ∀ k, k < s.n.toNat → Memory.read t.obuf k = none

/-! ## The exact transform -/

/-- R138: with the exact Scalar the radix-4 butterfly is the radix-4 decimation-in-time combination. -/
def Obligations.ExactRadixFourButterflyCombines : Prop :=
  ∀ (o : Occ) (d : Direction) (w1 w2 w3 a b c dd : Cplx ℝ),
    let x := radix4 exactReal o d w1 w2 w3 a b c dd
    let J : ℂ := directionSign d * Complex.I
    let y (m : Nat) : ℂ := toComplex a + J ^ m * (toComplex w1 * toComplex b) +
      J ^ (2 * m) * (toComplex w2 * toComplex c) + J ^ (3 * m) * (toComplex w3 * toComplex dd)
    toComplex x.1 = y 0 ∧ toComplex x.2.1 = y 1 ∧ toComplex x.2.2.1 = y 2 ∧ toComplex x.2.2.2 = y 3

/-- R176: the exact reference kernel is the transform. -/
def Obligations.ReferenceKernelIsTheDft : Prop :=
  ∀ (d : Direction) (l : Nat) (x : Nat → ℂ) (k : Nat), k < 2 ^ l → reference d l x k = dft d (2 ^ l) x k

/-- R177: with the exact Scalar, for every size, both strategies and both directions, RUN leaves the transform of IBUF in
OBUF. -/
def Obligations.ExactRunComputesTheDft : Prop :=
  ∀ (rdx : Radix) (d : Direction) (l : Nat) (x : Nat → Cplx ℝ) (ibuf obuf : Memory (Cplx ℝ)),
    (∀ j, j < 2 ^ l → Memory.read ibuf j = some (x j)) →
    ∀ k, k < 2 ^ l → ∃ z, Memory.read (exactRun rdx d (2 ^ l) ibuf obuf) k = some z ∧
      toComplex z = dft d (2 ^ l) (fun j => toComplex (x j)) k

/-- R179, R165: with the exact Scalar a forward RUN followed by an inverse RUN of its result, and the other order, yields
`n * x`: the inverse is not scaled. -/
def Obligations.ExactRoundTripScalesByN : Prop :=
  ∀ (rdx : Radix) (d d' : Direction) (l : Nat) (x : Nat → Cplx ℝ) (ibuf obuf obuf' : Memory (Cplx ℝ)), d ≠ d' →
    (∀ j, j < 2 ^ l → Memory.read ibuf j = some (x j)) →
    ∀ k, k < 2 ^ l → ∃ z,
      Memory.read (exactRun rdx d' (2 ^ l) (exactRun rdx d (2 ^ l) ibuf obuf) obuf') k = some z ∧
        toComplex z = (2 ^ l : ℂ) * toComplex (x k)

/-! ## Subtraction -/

/-- R126, R129: the difference of two finite values is the exact difference rounded once to nearest, ties to even, subnormals
kept, with the overflow of the sum; `x - x = +0` and `(-0) - (+0) = -0`. Values are in units of 2^-1074. -/
def Obligations.SubRoundsOnceToNearestEven : Prop :=
  ∀ (o : Occ) (a b : Scalar), Binary64.isFinite a = true → Binary64.isFinite b = true →
    let exact := Binary64.units a - Binary64.units b
    (|exact| < 2 ^ 2098 - 2 ^ 2044 → Binary64.isFinite (Binary64.sub o a b) = true ∧
      ∀ y : Scalar, Binary64.isFinite y = true → Binary64.units y ≠ Binary64.units (Binary64.sub o a b) →
        |Binary64.units (Binary64.sub o a b) - exact| < |Binary64.units y - exact| ∨
        |Binary64.units (Binary64.sub o a b) - exact| = |Binary64.units y - exact| ∧
          Binary64.fraction (Binary64.sub o a b) % 2 = 0) ∧
    (2 ^ 2098 - 2 ^ 2044 ≤ |exact| → Binary64.isInf (Binary64.sub o a b) = true ∧
      Binary64.sign (Binary64.sub o a b) = decide (exact < 0)) ∧
    (exact = 0 → Binary64.sub o a b = if Binary64.sign a && !Binary64.sign b then 0x8000000000000000#64 else 0#64) ∧
    Binary64.sub o a a = 0#64 ∧
    Binary64.sub o 0x8000000000000000#64 0#64 = 0x8000000000000000#64
end

