-- ==== Sys2Proof/Laws/Binary64.lean ====
section
/-! SUPPORT. The small lemmas of binary64: the fields of packed bits, what negation keeps, that the free NaN is a NaN, and that
every operation respects equality up to NaNs. -/

namespace Sys2Proof.Machine.Binary64

variable (o o' : Occ) (x y : Scalar)

theorem exponent_pack (negative : Bool) {low : Nat} (h : low < 2 ^ 63) : exponent (pack negative low) = low / 2 ^ 52 := by
  simp only [exponent, pack, BitVec.toNat_ofNat]
  cases negative <;> simp <;> omega

theorem fraction_pack (negative : Bool) (low : Nat) : fraction (pack negative low) = low % 2 ^ 52 := by
  simp only [fraction, pack, BitVec.toNat_ofNat]
  cases negative <;> simp; omega

/-- Whatever the free bits are, the result is a NaN (R126). -/
@[simp] theorem isNaN_nanOf (free : BitVec 64) : isNaN (nanOf free) = true := by
  have hp : ∀ p, 0 < p → p < 2 ^ 52 → ∀ n, isNaN (pack n (infinityBits + p)) = true := by
    intro p h0 h1 n
    have hlow : infinityBits + p < 2 ^ 63 := by simp only [infinityBits]; omega
    have he : (infinityBits + p) / 2 ^ 52 = 2047 := by simp only [infinityBits]; omega
    have hf : (infinityBits + p) % 2 ^ 52 = p := by simp only [infinityBits]; omega
    simp only [isNaN, exponent_pack n hlow, fraction_pack n, he, hf]
    simpa using Nat.pos_iff_ne_zero.mp h0
  simp only [nanOf]
  split
  · exact hp 1 (by omega) (by omega) _
  · exact hp _ (by omega) (by omega) _

@[simp] theorem isNaN_nan : isNaN (nan o) = true := isNaN_nanOf _

/-- `neg` keeps bits 62:0 (R126). -/
theorem low_neg : (neg x).toNat % 2 ^ 63 = x.toNat % 2 ^ 63 := by
  rw [neg, BitVec.toNat_xor, Nat.xor_mod_two_pow]; simp

@[simp] theorem exponent_neg : exponent (neg x) = exponent x := by
  have := low_neg x; simp only [exponent]; omega

@[simp] theorem fraction_neg : fraction (neg x) = fraction x := by
  have := low_neg x; simp only [fraction]; omega

@[simp] theorem isNaN_neg : isNaN (neg x) = isNaN x := by simp [isNaN]

@[simp] theorem isInf_neg : isInf (neg x) = isInf x := by simp [isInf]

@[simp] theorem isFinite_neg : isFinite (neg x) = isFinite x := by simp [isFinite]

@[simp] theorem magnitude_neg : magnitude (neg x) = magnitude x := by simp [magnitude]

/-! ## Equality up to NaNs -/

@[simp] theorem sameUpToNaN_refl : sameUpToNaN x x := .inl rfl

variable {a b a' b' : Scalar}

/-- Operands that agree up to NaNs: the same operands, or a NaN among the operands on each side. -/
theorem sameUpToNaN_operands (ha : sameUpToNaN a a') (hb : sameUpToNaN b b') :
    (a = a' ∧ b = b') ∨ ((isNaN a || isNaN b) = true ∧ (isNaN a' || isNaN b') = true) := by
  rcases ha with rfl | ⟨h, h'⟩
  · rcases hb with rfl | ⟨h, h'⟩
    · exact .inl ⟨rfl, rfl⟩
    · exact .inr ⟨by simp [h], by simp [h']⟩
  · exact .inr ⟨by simp [h], by simp [h']⟩

theorem neg_sameUpToNaN (h : sameUpToNaN a a') : sameUpToNaN (neg a) (neg a') := by
  rcases h with rfl | ⟨h, h'⟩
  · exact .inl rfl
  · exact .inr ⟨by simp [h], by simp [h']⟩

theorem add_sameUpToNaN (ha : sameUpToNaN a a') (hb : sameUpToNaN b b') :
    sameUpToNaN (add o a b) (add o' a' b') := by
  rcases sameUpToNaN_operands ha hb with ⟨rfl, rfl⟩ | ⟨h, h'⟩
  · unfold add
    split_ifs <;> first | exact .inl rfl | exact .inr ⟨isNaN_nan _, isNaN_nan _⟩
  · unfold add; rw [if_pos h, if_pos h']; exact .inr ⟨isNaN_nan _, isNaN_nan _⟩

theorem sub_sameUpToNaN (ha : sameUpToNaN a a') (hb : sameUpToNaN b b') :
    sameUpToNaN (sub o a b) (sub o' a' b') := add_sameUpToNaN o o' ha (neg_sameUpToNaN hb)

theorem mul_sameUpToNaN (ha : sameUpToNaN a a') (hb : sameUpToNaN b b') :
    sameUpToNaN (mul o a b) (mul o' a' b') := by
  rcases sameUpToNaN_operands ha hb with ⟨rfl, rfl⟩ | ⟨h, h'⟩
  · unfold mul
    split_ifs <;> first | exact .inl rfl | exact .inr ⟨isNaN_nan _, isNaN_nan _⟩
  · unfold mul; rw [if_pos h, if_pos h']; exact .inr ⟨isNaN_nan _, isNaN_nan _⟩

end Sys2Proof.Machine.Binary64
end

