-- ==== Sys2Proof/Laws/Memory.lean ====
section
/-! SUPPORT. The laws of one memory: reading after writing, the canonical form, and equality by reading. -/

namespace Sys2Proof.Machine

variable {α : Type}

@[simp] theorem Memory.read_nil (i : Nat) : Memory.read ([] : Memory α) i = none := rfl

theorem Memory.read_cons (j : Nat) (u : α) (m : Memory α) (i : Nat) :
    Memory.read ((j, u) :: m) i = if i = j then some u else Memory.read m i := rfl

theorem Memory.read_write (m : Memory α) (i k : Nat) (v : α) :
    Memory.read (Memory.write m i v) k = if k = i then some v else Memory.read m k := by
  induction m with
  | nil => simp [Memory.write, Memory.read]
  | cons e m ih =>
    obtain ⟨j, u⟩ := e
    simp only [Memory.write]
    split
    · simp [Memory.read_cons]
    · split
      · subst_vars; simp only [Memory.read_cons]; split <;> simp_all
      · simp only [Memory.read_cons, ih]; split_ifs <;> simp_all

@[simp] theorem Memory.read_write_same (m : Memory α) (i : Nat) (v : α) :
    Memory.read (Memory.write m i v) i = some v := by simp [Memory.read_write]

theorem Memory.read_write_other {m : Memory α} {i k : Nat} {v : α} (h : k ≠ i) :
    Memory.read (Memory.write m i v) k = Memory.read m k := by simp [Memory.read_write, h]

theorem Memory.read_forget (m : Memory α) (i k : Nat) :
    Memory.read (Memory.forget m i) k = if k = i then none else Memory.read m k := by
  induction m with
  | nil => simp [Memory.forget]
  | cons e m ih =>
    obtain ⟨j, u⟩ := e
    simp only [Memory.forget]
    split
    · subst_vars; simp only [ih, Memory.read_cons]; split <;> simp_all
    · simp only [Memory.read_cons, ih]; split_ifs <;> simp_all

theorem Memory.read_put (m : Memory α) (i k : Nat) (o : Option α) :
    Memory.read (Memory.put m i o) k = if k = i then o else Memory.read m k := by
  cases o with
  | none => exact Memory.read_forget m i k
  | some v => exact Memory.read_write m i k v

@[simp] theorem Memory.wf_nil : Memory.wf ([] : Memory α) = true := rfl

theorem Memory.risingFrom_cons (k j : Nat) (u : α) (m : Memory α) :
    Memory.risingFrom k ((j, u) :: m) = true ↔ k ≤ j ∧ Memory.risingFrom (j + 1) m = true := by
  simp [Memory.risingFrom]

theorem Memory.risingFrom_mono {m : Memory α} {k l : Nat} (hl : l ≤ k) (h : Memory.risingFrom k m = true) :
    Memory.risingFrom l m = true := by
  cases m with
  | nil => rfl
  | cons e m =>
    rw [Memory.risingFrom_cons] at h ⊢
    exact ⟨hl.trans h.1, h.2⟩

theorem Memory.risingFrom_write {m : Memory α} {k i : Nat} {v : α} (hk : k ≤ i) (h : Memory.risingFrom k m = true) :
    Memory.risingFrom k (Memory.write m i v) = true := by
  induction m generalizing k with
  | nil => simp [Memory.write, Memory.risingFrom, hk]
  | cons e m ih =>
    obtain ⟨j, u⟩ := e
    rw [Memory.risingFrom_cons] at h
    simp only [Memory.write]
    split_ifs with h1 h2
    · simp only [Memory.risingFrom_cons]; exact ⟨hk, h1, h.2⟩
    · subst h2; simp only [Memory.risingFrom_cons]; exact h
    · rw [Memory.risingFrom_cons]; exact ⟨h.1, ih (by omega) h.2⟩

theorem Memory.risingFrom_forget {m : Memory α} {k : Nat} (i : Nat) (h : Memory.risingFrom k m = true) :
    Memory.risingFrom k (Memory.forget m i) = true := by
  induction m generalizing k with
  | nil => rfl
  | cons e m ih =>
    obtain ⟨j, u⟩ := e
    rw [Memory.risingFrom_cons] at h
    simp only [Memory.forget]
    split_ifs
    · exact Memory.risingFrom_mono (by omega) (ih h.2)
    · rw [Memory.risingFrom_cons]; exact ⟨h.1, ih h.2⟩

theorem Memory.wf_write {m : Memory α} (i : Nat) (v : α) (h : Memory.wf m = true) :
    Memory.wf (Memory.write m i v) = true := Memory.risingFrom_write (Nat.zero_le i) h

theorem Memory.wf_forget {m : Memory α} (i : Nat) (h : Memory.wf m = true) :
    Memory.wf (Memory.forget m i) = true := Memory.risingFrom_forget i h

theorem Memory.wf_put {m : Memory α} (i : Nat) (o : Option α) (h : Memory.wf m = true) :
    Memory.wf (Memory.put m i o) = true := by
  cases o with
  | none => exact Memory.wf_forget i h
  | some v => exact Memory.wf_write i v h

theorem Memory.read_of_lt {m : Memory α} {k i : Nat} (h : Memory.risingFrom k m = true) (hi : i < k) :
    Memory.read m i = none := by
  induction m generalizing k with
  | nil => rfl
  | cons e m ih =>
    obtain ⟨j, u⟩ := e
    rw [Memory.risingFrom_cons] at h
    rw [Memory.read_cons, if_neg (by omega)]
    exact ih h.2 (by omega)

theorem Memory.ext_of_risingFrom {m m' : Memory α} {k : Nat} (h : Memory.risingFrom k m = true)
    (h' : Memory.risingFrom k m' = true) (hr : ∀ i, Memory.read m i = Memory.read m' i) : m = m' := by
  induction m generalizing m' k with
  | nil =>
    cases m' with
    | nil => rfl
    | cons e m' =>
      obtain ⟨j, u⟩ := e
      have := hr j
      simp [Memory.read_cons] at this
  | cons e m ih =>
    obtain ⟨j, u⟩ := e
    rw [Memory.risingFrom_cons] at h
    cases m' with
    | nil =>
      have := hr j
      simp [Memory.read_cons] at this
    | cons e' m' =>
      obtain ⟨j', u'⟩ := e'
      rw [Memory.risingFrom_cons] at h'
      have hj : j = j' := by
        rcases lt_trichotomy j j' with hlt | heq | hgt
        · have := hr j
          rw [Memory.read_cons, Memory.read_cons, if_pos rfl, if_neg (by omega),
            Memory.read_of_lt h'.2 (by omega)] at this
          simp at this
        · exact heq
        · have := hr j'
          rw [Memory.read_cons, Memory.read_cons, if_neg (by omega), if_pos rfl,
            Memory.read_of_lt h.2 (by omega)] at this
          simp at this
      subst hj
      have hu : u = u' := by simpa [Memory.read_cons] using hr j
      subst hu
      congr 1
      refine ih h.2 h'.2 fun i => ?_
      by_cases hi : i = j
      · subst hi
        rw [Memory.read_of_lt h.2 (by omega), Memory.read_of_lt h'.2 (by omega)]
      · simpa [Memory.read_cons, hi] using hr i

/-- Equal memories are equal data: two memories in the canonical form that read alike are the same list. -/
theorem Memory.ext {m m' : Memory α} (h : Memory.wf m = true) (h' : Memory.wf m' = true)
    (hr : ∀ i, Memory.read m i = Memory.read m' i) : m = m' := Memory.ext_of_risingFrom h h' hr

@[simp] theorem Memory.below_nil (n : Nat) : Memory.below n ([] : Memory α) = true := rfl

theorem Memory.below_cons (n j : Nat) (u : α) (m : Memory α) :
    Memory.below n ((j, u) :: m) = true ↔ j < n ∧ Memory.below n m = true := by simp [Memory.below]

theorem Memory.below_write {m : Memory α} {n i : Nat} (v : α) (hi : i < n) (h : Memory.below n m = true) :
    Memory.below n (Memory.write m i v) = true := by
  induction m with
  | nil => simp [Memory.write, Memory.below, hi]
  | cons e m ih =>
    obtain ⟨j, u⟩ := e
    rw [Memory.below_cons] at h
    simp only [Memory.write]
    split_ifs <;> simp [Memory.below_cons, h.1, h.2, hi, ih h.2]

theorem Memory.below_forget {m : Memory α} {n : Nat} (i : Nat) (h : Memory.below n m = true) :
    Memory.below n (Memory.forget m i) = true := by
  induction m with
  | nil => rfl
  | cons e m ih =>
    obtain ⟨j, u⟩ := e
    rw [Memory.below_cons] at h
    simp only [Memory.forget]
    split_ifs <;> simp [Memory.below_cons, h.1, ih h.2]

theorem Memory.below_put {m : Memory α} {n i : Nat} (o : Option α) (hi : i < n) (h : Memory.below n m = true) :
    Memory.below n (Memory.put m i o) = true := by
  cases o with
  | none => exact Memory.below_forget i h
  | some v => exact Memory.below_write v hi h

/-- No element at or beyond `n` of a memory below `n` holds a value. -/
theorem Memory.read_of_below {m : Memory α} {n i : Nat} (h : Memory.below n m = true) (hi : n ≤ i) :
    Memory.read m i = none := by
  induction m with
  | nil => rfl
  | cons e m ih =>
    obtain ⟨j, u⟩ := e
    rw [Memory.below_cons] at h
    rw [Memory.read_cons, if_neg (by omega)]
    exact ih h.2

end Sys2Proof.Machine
end

