-- ==== Sys2Proof/Laws/Loop.lean ====
section
/-! SUPPORT. The counted loop: what every pass keeps, and what a loop over disjoint slots leaves in each of them. -/

namespace Sys2Proof.Machine

variable {σ α : Type}

@[simp] theorem loop_zero (f : Nat → σ → σ) (s : σ) : loop 0 f s = s := rfl

theorem loop_succ (n : Nat) (f : Nat → σ → σ) (s : σ) : loop (n + 1) f s = f n (loop n f s) := rfl

/-- Packaged induction: what holds before the loop and is kept by each pass holds after it. -/
theorem loop_keeps {P : σ → Prop} {n : Nat} {f : Nat → σ → σ} {s : σ} (h0 : P s)
    (hstep : ∀ i t, i < n → P t → P (f i t)) : P (loop n f s) := by
  induction n with
  | zero => exact h0
  | succ n ih => exact hstep n _ (Nat.lt_succ_self n) (ih fun i t hi => hstep i t (Nat.lt_succ_of_lt hi))

/-- Packaged induction with the pass number in the invariant. -/
theorem loop_invariant {P : Nat → σ → Prop} {n : Nat} {f : Nat → σ → σ} {s : σ} (h0 : P 0 s)
    (hstep : ∀ i t, i < n → P i t → P (i + 1) (f i t)) : P n (loop n f s) := by
  induction n with
  | zero => exact h0
  | succ n ih => exact hstep n _ (Nat.lt_succ_self n) (ih fun i t hi => hstep i t (Nat.lt_succ_of_lt hi))

theorem loop_congr {n : Nat} {f g : Nat → σ → σ} (s : σ) (h : ∀ i t, i < n → f i t = g i t) :
    loop n f s = loop n g s := by
  induction n with
  | zero => rfl
  | succ n ih =>
    rw [loop_succ, loop_succ, ih fun i t hi => h i t (Nat.lt_succ_of_lt hi)]
    exact h n _ (Nat.lt_succ_self n)

/-- A loop whose passes leave the slot alone leaves it alone. -/
theorem loop_read_untouched {n : Nat} {f : Nat → Memory α → Memory α} {m : Memory α} {p : Nat}
    (h : ∀ i t, i < n → Memory.read (f i t) p = Memory.read t p) :
    Memory.read (loop n f m) p = Memory.read m p :=
  loop_keeps (P := fun t => Memory.read t p = Memory.read m p) rfl fun i t hi ht => (h i t hi).trans ht

/-- A loop in which exactly one pass `i` touches the slots that decide the slot `p`: the slot holds what pass `i` makes of
the memory before the loop. `R t t'` says that `t` and `t'` agree on the slots that pass `i` reads. -/
theorem loop_read_single {n i p : Nat} {f : Nat → Memory α → Memory α} {m : Memory α} (hi : i < n)
    (R : Memory α → Prop) (hR : R m) (hbefore : ∀ j t, j < i → R t → R (f j t))
    (hafter : ∀ j t, i < j → j < n → Memory.read (f j t) p = Memory.read t p)
    {v : Option α} (hv : ∀ t, R t → Memory.read (f i t) p = v) :
    Memory.read (loop n f m) p = v := by
  induction n with
  | zero => omega
  | succ n ih =>
    rw [loop_succ]
    rcases Nat.lt_succ_iff_lt_or_eq.mp hi with h | h
    · rw [hafter n _ h (Nat.lt_succ_self n)]
      exact ih h fun j t hj hjn => hafter j t hj (Nat.lt_succ_of_lt hjn)
    · subst h
      exact hv _ (loop_keeps hR fun j t hj ht => hbefore j t hj ht)

theorem loop_wf {n : Nat} {f : Nat → Memory α → Memory α} {m : Memory α} (hm : Memory.wf m = true)
    (h : ∀ i t, i < n → Memory.wf t = true → Memory.wf (f i t) = true) : Memory.wf (loop n f m) = true :=
  loop_keeps (P := fun t => Memory.wf t = true) hm h

theorem loop_below {n k : Nat} {f : Nat → Memory α → Memory α} {m : Memory α} (hm : Memory.below k m = true)
    (h : ∀ i t, i < n → Memory.below k t = true → Memory.below k (f i t) = true) :
    Memory.below k (loop n f m) = true := loop_keeps (P := fun t => Memory.below k t = true) hm h

/-- The loop that writes one element a pass. -/
theorem read_loop_write (n : Nat) (g : Nat → α) (m : Memory α) (p : Nat) :
    Memory.read (loop n (fun k t => Memory.write t k (g k)) m) p = if p < n then some (g p) else Memory.read m p := by
  induction n with
  | zero => simp
  | succ n ih =>
    rw [loop_succ, Memory.read_write, ih]
    split_ifs with h1 h2 h3 <;> first | rfl | (subst h1; rfl) | omega

/-- The loop that puts one element a pass. -/
theorem read_loop_put (n : Nat) (g : Nat → Option α) (m : Memory α) (p : Nat) :
    Memory.read (loop n (fun k t => Memory.put t k (g k)) m) p = if p < n then g p else Memory.read m p := by
  induction n with
  | zero => simp
  | succ n ih =>
    rw [loop_succ, Memory.read_put, ih]
    split_ifs with h1 h2 h3 <;> first | rfl | (subst h1; rfl) | omega

end Sys2Proof.Machine
end

