-- ==== Sys2Proof/Laws/Datapath.lean ====
section
/-! SUPPORT. What the twiddle ROM, the permutation build, a butterfly and a pass leave in each element, and that each keeps the
canonical form and the range of a memory. -/

namespace Sys2Proof.Machine

variable {α : Type}

/-! ## The twiddle ROM -/

theorem read_twgen (A : Arith α) (n : Nat) (tw : Memory α) (k : Nat) :
    Memory.read (twgen A n tw) k = if k ≤ n / 4 then some (A.cosq n k) else Memory.read tw k := by
  rw [twgen, read_loop_write]; simp only [Nat.lt_succ_iff]

theorem wf_twgen (A : Arith α) (n : Nat) {tw : Memory α} (h : Memory.wf tw = true) :
    Memory.wf (twgen A n tw) = true := loop_wf h fun _ _ _ => Memory.wf_write _ _

theorem below_twgen (A : Arith α) (n : Nat) {tw : Memory α} (h : Memory.below (n / 4 + 1) tw = true) :
    Memory.below (n / 4 + 1) (twgen A n tw) = true := loop_below h fun _ _ hi => Memory.below_write _ hi

/-- The quadrant and the offset of a reduced index (R94). -/
theorem quadrant_lt {n rr : Nat} (hq : n = 4 * (n / 4)) (h : rr < n) : rr / (n / 4) < 4 :=
  Nat.div_lt_of_lt_mul (by omega)

/-- TWLOOKUP answers whenever the table of the size is in TW, whatever the index (R97). -/
theorem twlookup_of_table (A : Arith α) {n : Nat} (hn : 4 ≤ n) {tw : Memory α}
    (htw : ∀ k, k ≤ n / 4 → Memory.read tw k = some (A.cosq n k)) (d : Direction) (r : Int) :
    twlookup A n tw d r = some (applyDirection A d (foldQuadrant A ((r % (n : Int)).toNat / (n / 4))
      (A.cosq n ((r % (n : Int)).toNat % (n / 4))) (A.cosq n (n / 4 - (r % (n : Int)).toNat % (n / 4))))) := by
  have hq : 0 < n / 4 := by omega
  have hlo := Nat.mod_lt (r % (n : Int)).toNat hq
  simp only [twlookup, htw _ hlo.le, htw _ (Nat.sub_le _ _)]

/-! ## The permutation unit -/

theorem read_addAt (perm : Memory Nat) (j amount p : Nat) :
    Memory.read (addAt perm j amount) p =
      if p = j then (Memory.read perm p).map (· + amount) else Memory.read perm p := by
  unfold addAt
  split
  next v hv => rw [Memory.read_write]; split_ifs with h <;> simp [h, hv]
  next hv => split_ifs with h <;> simp [h, hv]

theorem read_addRange (perm : Memory Nat) (first count amount p : Nat) :
    Memory.read (addRange perm first count amount) p =
      if first ≤ p ∧ p < first + count then (Memory.read perm p).map (· + amount) else Memory.read perm p := by
  unfold addRange
  induction count with
  | zero => simp
  | succ count ih =>
    rw [loop_succ, read_addAt, ih]
    split_ifs <;> first | rfl | omega

theorem read_permClear (n : Nat) (perm : Memory Nat) (p : Nat) :
    Memory.read (permClear n perm) p = if p < n then some 0 else Memory.read perm p := read_loop_write n _ perm p

theorem wf_addAt {perm : Memory Nat} (j amount : Nat) (h : Memory.wf perm = true) :
    Memory.wf (addAt perm j amount) = true := by
  unfold addAt; split
  · exact Memory.wf_write _ _ h
  · exact h

theorem wf_addRange {perm : Memory Nat} (first count amount : Nat) (h : Memory.wf perm = true) :
    Memory.wf (addRange perm first count amount) = true := loop_wf h fun _ _ _ => wf_addAt _ _

theorem wf_permgen2 {perm : Memory Nat} (n : Nat) (h : Memory.wf perm = true) :
    Memory.wf (permgen2 n perm) = true :=
  loop_wf (loop_wf h fun _ _ _ => Memory.wf_write _ _) fun _ _ _ ht => loop_wf ht fun _ _ _ => wf_addRange _ _ _

theorem wf_permPass4 {perm : Memory Nat} (n len fs : Nat) (h : Memory.wf perm = true) :
    Memory.wf (permPass4 n len fs perm) = true :=
  loop_wf h fun _ _ _ ht => loop_wf ht fun _ _ _ => wf_addRange _ _ _

theorem wf_permgen4 {perm : Memory Nat} (n : Nat) (h : Memory.wf perm = true) :
    Memory.wf (permgen4 n perm) = true := by
  have hc : Memory.wf (permClear n perm) = true := loop_wf h fun _ _ _ => Memory.wf_write _ _
  unfold permgen4
  dsimp only
  split
  · exact loop_wf (wf_addRange _ _ _ hc) fun _ _ _ => wf_permPass4 _ _ _
  · exact loop_wf hc fun _ _ _ => wf_permPass4 _ _ _

theorem wf_permgen {perm : Memory Nat} (rdx : Radix) (n : Nat) (h : Memory.wf perm = true) :
    Memory.wf (permgen rdx n perm) = true := by
  cases rdx
  · exact wf_permgen2 n h
  · exact wf_permgen4 n h

theorem read_permute (n : Nat) (perm : Memory Nat) (ibuf obuf : Memory (Cplx α)) (p : Nat) :
    Memory.read (permute n perm ibuf obuf) p =
      if p < n then (Memory.read perm p).bind (Memory.read ibuf) else Memory.read obuf p :=
  read_loop_put n _ obuf p

/-! ## What keeps the form of a memory -/

/-- `f` keeps the canonical form, and the range below `n`. -/
def KeepsForm (n : Nat) (f : Memory α → Memory α) : Prop :=
  ∀ m, (Memory.wf m = true → Memory.wf (f m) = true) ∧ (Memory.below n m = true → Memory.below n (f m) = true)

theorem keepsForm_loop {n count : Nat} {f : Nat → Memory α → Memory α} (h : ∀ i, i < count → KeepsForm n (f i)) :
    KeepsForm n (loop count f) := fun _ =>
  ⟨fun hm => loop_wf hm fun i t hi => (h i hi t).1, fun hm => loop_below hm fun i t hi => (h i hi t).2⟩

theorem keepsForm_put {n i : Nat} (o : Option α) (hi : i < n) : KeepsForm n fun m => Memory.put m i o := fun _ =>
  ⟨Memory.wf_put i o, Memory.below_put o hi⟩

theorem keepsForm_permute (n : Nat) (perm : Memory Nat) (ibuf : Memory (Cplx α)) :
    KeepsForm n (permute n perm ibuf) := keepsForm_loop fun _ hi => keepsForm_put _ hi

theorem keepsForm_bfly2 (A : Arith α) (o : Occ) {n p0 p1 : Nat} (tw : Memory α) (d : Direction) (r : Nat) (h0 : p0 < n)
    (h1 : p1 < n) : KeepsForm n (bfly2 A o n tw d p0 p1 r) := by
  intro m
  unfold bfly2
  split
  · exact ⟨fun h => Memory.wf_write _ _ (Memory.wf_write _ _ h),
      fun h => Memory.below_write _ h1 (Memory.below_write _ h0 h)⟩
  · exact ⟨fun h => Memory.wf_forget _ (Memory.wf_forget _ h),
      fun h => Memory.below_forget _ (Memory.below_forget _ h)⟩

theorem keepsForm_bfly4 (A : Arith α) (o : Occ) {n p0 p1 p2 p3 : Nat} (tw : Memory α) (d : Direction) (r1 r2 r3 : Nat)
    (h0 : p0 < n) (h1 : p1 < n) (h2 : p2 < n) (h3 : p3 < n) :
    KeepsForm n (bfly4 A o n tw d p0 p1 p2 p3 r1 r2 r3) := by
  intro m
  unfold bfly4
  split
  · exact ⟨fun h => Memory.wf_write _ _ (Memory.wf_write _ _ (Memory.wf_write _ _ (Memory.wf_write _ _ h))),
      fun h => Memory.below_write _ h3 (Memory.below_write _ h2 (Memory.below_write _ h1 (Memory.below_write _ h0 h)))⟩
  · exact ⟨fun h => Memory.wf_forget _ (Memory.wf_forget _ (Memory.wf_forget _ (Memory.wf_forget _ h))),
      fun h => Memory.below_forget _ (Memory.below_forget _ (Memory.below_forget _ (Memory.below_forget _ h)))⟩

/-- A slot of block `b` at offset `x < len` lies below `n` (R162). -/
theorem slot_lt {n len b x : Nat} (hb : b < n / len) (hx : x < len) : b * len + x < n := by
  have h1 : (b + 1) * len ≤ n / len * len := Nat.mul_le_mul_right _ hb
  have h2 := Nat.div_mul_le_self n len
  have h3 : (b + 1) * len = b * len + len := by ring
  omega

theorem keepsForm_pass2 (A : Arith α) (draw n : Nat) (tw : Memory α) (d : Direction) (len : Nat) :
    KeepsForm n (pass2 A draw n tw d len) :=
  keepsForm_loop fun b hb => keepsForm_loop fun k hk => by
    have h0 : k < len := by omega
    have h1 : k + len / 2 < len := by omega
    have := slot_lt hb h0
    have := slot_lt hb h1
    exact keepsForm_bfly2 _ _ _ _ _ (by omega) (by omega)

theorem keepsForm_pass4 (A : Arith α) (draw n : Nat) (tw : Memory α) (d : Direction) (len : Nat) :
    KeepsForm n (pass4 A draw n tw d len) :=
  keepsForm_loop fun b hb => keepsForm_loop fun k hk => by
    have h0 : k < len := by omega
    have h1 : k + len / 4 < len := by omega
    have h2 : k + 2 * (len / 4) < len := by omega
    have h3 : k + 3 * (len / 4) < len := by omega
    have := slot_lt hb h0
    have := slot_lt hb h1
    have := slot_lt hb h2
    have := slot_lt hb h3
    exact keepsForm_bfly4 _ _ _ _ _ _ _ (by omega) (by omega) (by omega) (by omega)

theorem KeepsForm.comp {n : Nat} {f g : Memory α → Memory α} (hf : KeepsForm n f) (hg : KeepsForm n g) :
    KeepsForm n fun m => f (g m) := fun m =>
  ⟨fun h => (hf _).1 ((hg m).1 h), fun h => (hf _).2 ((hg m).2 h)⟩

theorem keepsForm_sched (A : Arith α) (draw n : Nat) (rdx : Radix) (tw : Memory α) (d : Direction) :
    KeepsForm n (sched A draw n rdx tw d) := by
  cases rdx with
  | r2 => exact keepsForm_loop fun _ _ => keepsForm_pass2 _ _ _ _ _ _
  | r4 =>
    have h4 : KeepsForm n (loop (Nat.log2 n / 2) fun p obuf => pass4 A draw n tw d (4 ^ (p + 1)) obuf) :=
      keepsForm_loop fun _ _ => keepsForm_pass4 _ _ _ _ _ _
    intro obuf
    simp only [sched, sched4]
    split
    · exact ((keepsForm_pass2 A draw n tw d n).comp h4) obuf
    · exact h4 obuf

/-- RUNBODY keeps OBUF in its canonical form and writes no element at or beyond `n` (R162). -/
theorem keepsForm_runBody (A : Arith α) (draw n : Nat) (rdx : Radix) (d : Direction) (perm : Memory Nat) (tw : Memory α)
    (ibuf : Memory (Cplx α)) : KeepsForm n (runBody A draw n rdx d perm tw ibuf) := by
  intro obuf
  simp only [runBody]
  split_ifs with h1 h2
  · exact keepsForm_put _ (by omega) obuf
  · unfold small2
    split
    · exact ⟨fun h => Memory.wf_write _ _ (Memory.wf_write _ _ h),
        fun h => Memory.below_write _ (by omega) (Memory.below_write _ (by omega) h)⟩
    · exact ⟨fun h => Memory.wf_forget _ (Memory.wf_forget _ h),
        fun h => Memory.below_forget _ (Memory.below_forget _ h)⟩
  · exact ((keepsForm_sched A draw n rdx tw d).comp (keepsForm_permute n perm ibuf)) obuf

/-! ## A butterfly touches its slots only -/

theorem read_bfly2_other (A : Arith α) (o : Occ) (n : Nat) (tw : Memory α) (d : Direction) {p0 p1 p : Nat} (r : Nat)
    (m : Memory (Cplx α)) (h0 : p ≠ p0) (h1 : p ≠ p1) :
    Memory.read (bfly2 A o n tw d p0 p1 r m) p = Memory.read m p := by
  unfold bfly2; split <;> simp [Memory.read_write, Memory.read_forget, h0, h1]

theorem read_bfly4_other (A : Arith α) (o : Occ) (n : Nat) (tw : Memory α) (d : Direction) {p0 p1 p2 p3 p : Nat}
    (r1 r2 r3 : Nat) (m : Memory (Cplx α)) (h0 : p ≠ p0) (h1 : p ≠ p1) (h2 : p ≠ p2) (h3 : p ≠ p3) :
    Memory.read (bfly4 A o n tw d p0 p1 p2 p3 r1 r2 r3 m) p = Memory.read m p := by
  unfold bfly4; split <;> simp [Memory.read_write, Memory.read_forget, h0, h1, h2, h3]

/-- A sweep of butterflies, block by block, that own disjoint sets of slots (R135): a slot of butterfly `(b, k)` holds after
the sweep what that butterfly makes of the memory before it. `own b k p` says that slot `p` is one of its slots. -/
theorem read_sweep {nb h : Nat} {f : Nat → Nat → Memory α → Memory α} {own : Nat → Nat → Nat → Prop} {m : Memory α}
    (hother : ∀ b k t p, b < nb → k < h → ¬ own b k p → Memory.read (f b k t) p = Memory.read t p)
    (hdisj : ∀ b k b' k' p, k < h → k' < h → own b k p → own b' k' p → b = b' ∧ k = k')
    {b k p : Nat} (hb : b < nb) (hk : k < h) (hp : own b k p) {v : Option α}
    (hv : ∀ t, (∀ q, own b k q → Memory.read t q = Memory.read m q) → Memory.read (f b k t) p = v) :
    Memory.read (loop nb (fun b t => loop h (f b) t) m) p = v := by
  refine loop_read_single hb (fun t => ∀ q, own b k q → Memory.read t q = Memory.read m q) (fun _ _ => rfl) ?_ ?_ ?_
  · intro j t hj ht q hq
    rw [loop_read_untouched, ht q hq]
    intro i s hi
    refine hother j i s q (by omega) hi fun hown => ?_
    have := (hdisj b k j i q hk hi hq hown).1
    omega
  · intro j t hj hjn
    refine loop_read_untouched fun i s hi => hother j i s p hjn hi fun hown => ?_
    have := (hdisj b k j i p hk hi hp hown).1
    omega
  · intro t ht
    refine loop_read_single hk (fun s => ∀ q, own b k q → Memory.read s q = Memory.read m q) ht ?_ ?_ hv
    · intro j s hj hs q hq
      rw [hother b j s q hb (by omega), hs q hq]
      intro hown
      have := (hdisj b k b j q hk (by omega) hq hown).2
      omega
    · intro j s hj hjn
      refine hother b j s p hb hjn fun hown => ?_
      have := (hdisj b k b j p hk hjn hp hown).2
      omega

end Sys2Proof.Machine
end

