-- ==== Sys2Proof/Laws/State.lean ====
section
/-! SUPPORT. One lemma per field per update of State, true by rfl and tagged for simp, so that no proof unfolds a record
update. -/

namespace Sys2Proof.Machine

variable (s : State)

/-! ### respondOk -/

@[simp] theorem State.respondOk_dre (a b : Word) :
    (s.respondOk a b).dre = s.dre := rfl
@[simp] theorem State.respondOk_dim (a b : Word) :
    (s.respondOk a b).dim = s.dim := rfl
@[simp] theorem State.respondOk_status (a b : Word) :
    (s.respondOk a b).status = s.status := rfl
@[simp] theorem State.respondOk_n (a b : Word) :
    (s.respondOk a b).n = s.n := rfl
@[simp] theorem State.respondOk_cap (a b : Word) :
    (s.respondOk a b).cap = s.cap := rfl
@[simp] theorem State.respondOk_fsticky (a b : Word) :
    (s.respondOk a b).fsticky = s.fsticky := rfl
@[simp] theorem State.respondOk_fcode (a b : Word) :
    (s.respondOk a b).fcode = s.fcode := rfl
@[simp] theorem State.respondOk_fexp (a b : Word) :
    (s.respondOk a b).fexp = s.fexp := rfl
@[simp] theorem State.respondOk_fact (a b : Word) :
    (s.respondOk a b).fact = s.fact := rfl
@[simp] theorem State.respondOk_ibuf (a b : Word) :
    (s.respondOk a b).ibuf = s.ibuf := rfl
@[simp] theorem State.respondOk_obuf (a b : Word) :
    (s.respondOk a b).obuf = s.obuf := rfl
@[simp] theorem State.respondOk_perm (a b : Word) :
    (s.respondOk a b).perm = s.perm := rfl
@[simp] theorem State.respondOk_tw (a b : Word) :
    (s.respondOk a b).tw = s.tw := rfl
@[simp] theorem State.respondOk_inputs (a b : Word) :
    (s.respondOk a b).inputs = s.inputs := rfl
@[simp] theorem State.respondOk_output (a b : Word) :
    (s.respondOk a b).output = .response 0#4 a b := rfl
@[simp] theorem State.respondOk_draws (a b : Word) :
    (s.respondOk a b).draws = s.draws := rfl

/-! ### raise -/

@[simp] theorem State.raise_dre (c : FaultCode) (a b : Word) :
    (s.raise c a b).dre = s.dre := rfl
@[simp] theorem State.raise_dim (c : FaultCode) (a b : Word) :
    (s.raise c a b).dim = s.dim := rfl
@[simp] theorem State.raise_status (c : FaultCode) (a b : Word) :
    (s.raise c a b).status = s.status := rfl
@[simp] theorem State.raise_n (c : FaultCode) (a b : Word) :
    (s.raise c a b).n = s.n := rfl
@[simp] theorem State.raise_cap (c : FaultCode) (a b : Word) :
    (s.raise c a b).cap = s.cap := rfl
@[simp] theorem State.raise_fsticky (c : FaultCode) (a b : Word) :
    (s.raise c a b).fsticky = s.fsticky ||| stickyBit c := rfl
@[simp] theorem State.raise_fcode (c : FaultCode) (a b : Word) :
    (s.raise c a b).fcode = c.number.setWidth 32 := rfl
@[simp] theorem State.raise_fexp (c : FaultCode) (a b : Word) :
    (s.raise c a b).fexp = a := rfl
@[simp] theorem State.raise_fact (c : FaultCode) (a b : Word) :
    (s.raise c a b).fact = b := rfl
@[simp] theorem State.raise_ibuf (c : FaultCode) (a b : Word) :
    (s.raise c a b).ibuf = s.ibuf := rfl
@[simp] theorem State.raise_obuf (c : FaultCode) (a b : Word) :
    (s.raise c a b).obuf = s.obuf := rfl
@[simp] theorem State.raise_perm (c : FaultCode) (a b : Word) :
    (s.raise c a b).perm = s.perm := rfl
@[simp] theorem State.raise_tw (c : FaultCode) (a b : Word) :
    (s.raise c a b).tw = s.tw := rfl
@[simp] theorem State.raise_inputs (c : FaultCode) (a b : Word) :
    (s.raise c a b).inputs = s.inputs := rfl
@[simp] theorem State.raise_output (c : FaultCode) (a b : Word) :
    (s.raise c a b).output = .response c.number a b := rfl
@[simp] theorem State.raise_draws (c : FaultCode) (a b : Word) :
    (s.raise c a b).draws = s.draws := rfl

/-! ### forgetMemories -/

@[simp] theorem State.forgetMemories_dre :
    (s.forgetMemories).dre = s.dre := rfl
@[simp] theorem State.forgetMemories_dim :
    (s.forgetMemories).dim = s.dim := rfl
@[simp] theorem State.forgetMemories_status :
    (s.forgetMemories).status = s.status := rfl
@[simp] theorem State.forgetMemories_n :
    (s.forgetMemories).n = s.n := rfl
@[simp] theorem State.forgetMemories_cap :
    (s.forgetMemories).cap = s.cap := rfl
@[simp] theorem State.forgetMemories_fsticky :
    (s.forgetMemories).fsticky = s.fsticky := rfl
@[simp] theorem State.forgetMemories_fcode :
    (s.forgetMemories).fcode = s.fcode := rfl
@[simp] theorem State.forgetMemories_fexp :
    (s.forgetMemories).fexp = s.fexp := rfl
@[simp] theorem State.forgetMemories_fact :
    (s.forgetMemories).fact = s.fact := rfl
@[simp] theorem State.forgetMemories_ibuf :
    (s.forgetMemories).ibuf = [] := rfl
@[simp] theorem State.forgetMemories_obuf :
    (s.forgetMemories).obuf = [] := rfl
@[simp] theorem State.forgetMemories_perm :
    (s.forgetMemories).perm = [] := rfl
@[simp] theorem State.forgetMemories_tw :
    (s.forgetMemories).tw = [] := rfl
@[simp] theorem State.forgetMemories_inputs :
    (s.forgetMemories).inputs = s.inputs := rfl
@[simp] theorem State.forgetMemories_output :
    (s.forgetMemories).output = s.output := rfl
@[simp] theorem State.forgetMemories_draws :
    (s.forgetMemories).draws = s.draws := rfl

/-! ### nextDraw -/

@[simp] theorem State.nextDraw_dre :
    (s.nextDraw).dre = s.dre := rfl
@[simp] theorem State.nextDraw_dim :
    (s.nextDraw).dim = s.dim := rfl
@[simp] theorem State.nextDraw_status :
    (s.nextDraw).status = s.status := rfl
@[simp] theorem State.nextDraw_n :
    (s.nextDraw).n = s.n := rfl
@[simp] theorem State.nextDraw_cap :
    (s.nextDraw).cap = s.cap := rfl
@[simp] theorem State.nextDraw_fsticky :
    (s.nextDraw).fsticky = s.fsticky := rfl
@[simp] theorem State.nextDraw_fcode :
    (s.nextDraw).fcode = s.fcode := rfl
@[simp] theorem State.nextDraw_fexp :
    (s.nextDraw).fexp = s.fexp := rfl
@[simp] theorem State.nextDraw_fact :
    (s.nextDraw).fact = s.fact := rfl
@[simp] theorem State.nextDraw_ibuf :
    (s.nextDraw).ibuf = s.ibuf := rfl
@[simp] theorem State.nextDraw_obuf :
    (s.nextDraw).obuf = s.obuf := rfl
@[simp] theorem State.nextDraw_perm :
    (s.nextDraw).perm = s.perm := rfl
@[simp] theorem State.nextDraw_tw :
    (s.nextDraw).tw = s.tw := rfl
@[simp] theorem State.nextDraw_inputs :
    (s.nextDraw).inputs = s.inputs := rfl
@[simp] theorem State.nextDraw_output :
    (s.nextDraw).output = s.output := rfl
@[simp] theorem State.nextDraw_draws :
    (s.nextDraw).draws = s.draws + 1 := rfl

/-! ### writeData -/

@[simp] theorem State.writeData_dre (z : Cplx Scalar) :
    (s.writeData z).dre = .value z.re := rfl
@[simp] theorem State.writeData_dim (z : Cplx Scalar) :
    (s.writeData z).dim = .value z.im := rfl
@[simp] theorem State.writeData_status (z : Cplx Scalar) :
    (s.writeData z).status = s.status := rfl
@[simp] theorem State.writeData_n (z : Cplx Scalar) :
    (s.writeData z).n = s.n := rfl
@[simp] theorem State.writeData_cap (z : Cplx Scalar) :
    (s.writeData z).cap = s.cap := rfl
@[simp] theorem State.writeData_fsticky (z : Cplx Scalar) :
    (s.writeData z).fsticky = s.fsticky := rfl
@[simp] theorem State.writeData_fcode (z : Cplx Scalar) :
    (s.writeData z).fcode = s.fcode := rfl
@[simp] theorem State.writeData_fexp (z : Cplx Scalar) :
    (s.writeData z).fexp = s.fexp := rfl
@[simp] theorem State.writeData_fact (z : Cplx Scalar) :
    (s.writeData z).fact = s.fact := rfl
@[simp] theorem State.writeData_ibuf (z : Cplx Scalar) :
    (s.writeData z).ibuf = s.ibuf := rfl
@[simp] theorem State.writeData_obuf (z : Cplx Scalar) :
    (s.writeData z).obuf = s.obuf := rfl
@[simp] theorem State.writeData_perm (z : Cplx Scalar) :
    (s.writeData z).perm = s.perm := rfl
@[simp] theorem State.writeData_tw (z : Cplx Scalar) :
    (s.writeData z).tw = s.tw := rfl
@[simp] theorem State.writeData_inputs (z : Cplx Scalar) :
    (s.writeData z).inputs = s.inputs := rfl
@[simp] theorem State.writeData_output (z : Cplx Scalar) :
    (s.writeData z).output = s.output := rfl
@[simp] theorem State.writeData_draws (z : Cplx Scalar) :
    (s.writeData z).draws = s.draws := rfl

/-! ### setPrepared -/

@[simp] theorem State.setPrepared_dre (rdx : Radix) (size : BitVec 24) :
    (s.setPrepared rdx size).dre = s.dre := rfl
@[simp] theorem State.setPrepared_dim (rdx : Radix) (size : BitVec 24) :
    (s.setPrepared rdx size).dim = s.dim := rfl
@[simp] theorem State.setPrepared_status (rdx : Radix) (size : BitVec 24) :
    (s.setPrepared rdx size).status = statusPrepared rdx (Nat.log2 size.toNat) := rfl
@[simp] theorem State.setPrepared_n (rdx : Radix) (size : BitVec 24) :
    (s.setPrepared rdx size).n = zext size := rfl
@[simp] theorem State.setPrepared_cap (rdx : Radix) (size : BitVec 24) :
    (s.setPrepared rdx size).cap = s.cap := rfl
@[simp] theorem State.setPrepared_fsticky (rdx : Radix) (size : BitVec 24) :
    (s.setPrepared rdx size).fsticky = s.fsticky := rfl
@[simp] theorem State.setPrepared_fcode (rdx : Radix) (size : BitVec 24) :
    (s.setPrepared rdx size).fcode = s.fcode := rfl
@[simp] theorem State.setPrepared_fexp (rdx : Radix) (size : BitVec 24) :
    (s.setPrepared rdx size).fexp = s.fexp := rfl
@[simp] theorem State.setPrepared_fact (rdx : Radix) (size : BitVec 24) :
    (s.setPrepared rdx size).fact = s.fact := rfl
@[simp] theorem State.setPrepared_ibuf (rdx : Radix) (size : BitVec 24) :
    (s.setPrepared rdx size).ibuf = s.ibuf := rfl
@[simp] theorem State.setPrepared_obuf (rdx : Radix) (size : BitVec 24) :
    (s.setPrepared rdx size).obuf = s.obuf := rfl
@[simp] theorem State.setPrepared_perm (rdx : Radix) (size : BitVec 24) :
    (s.setPrepared rdx size).perm = s.perm := rfl
@[simp] theorem State.setPrepared_tw (rdx : Radix) (size : BitVec 24) :
    (s.setPrepared rdx size).tw = s.tw := rfl
@[simp] theorem State.setPrepared_inputs (rdx : Radix) (size : BitVec 24) :
    (s.setPrepared rdx size).inputs = s.inputs := rfl
@[simp] theorem State.setPrepared_output (rdx : Radix) (size : BitVec 24) :
    (s.setPrepared rdx size).output = s.output := rfl
@[simp] theorem State.setPrepared_draws (rdx : Radix) (size : BitVec 24) :
    (s.setPrepared rdx size).draws = s.draws := rfl

/-! ### runTransform -/

@[simp] theorem State.runTransform_dre (d : Direction) :
    (s.runTransform d).dre = s.dre := rfl
@[simp] theorem State.runTransform_dim (d : Direction) :
    (s.runTransform d).dim = s.dim := rfl
@[simp] theorem State.runTransform_status (d : Direction) :
    (s.runTransform d).status = s.status := rfl
@[simp] theorem State.runTransform_n (d : Direction) :
    (s.runTransform d).n = s.n := rfl
@[simp] theorem State.runTransform_cap (d : Direction) :
    (s.runTransform d).cap = s.cap := rfl
@[simp] theorem State.runTransform_fsticky (d : Direction) :
    (s.runTransform d).fsticky = s.fsticky := rfl
@[simp] theorem State.runTransform_fcode (d : Direction) :
    (s.runTransform d).fcode = s.fcode := rfl
@[simp] theorem State.runTransform_fexp (d : Direction) :
    (s.runTransform d).fexp = s.fexp := rfl
@[simp] theorem State.runTransform_fact (d : Direction) :
    (s.runTransform d).fact = s.fact := rfl
@[simp] theorem State.runTransform_ibuf (d : Direction) :
    (s.runTransform d).ibuf = s.ibuf := rfl
@[simp] theorem State.runTransform_obuf (d : Direction) :
    (s.runTransform d).obuf = runBody binary64 s.draws s.n.toNat (statusRdx s.status) d s.perm s.tw s.ibuf s.obuf := rfl
@[simp] theorem State.runTransform_perm (d : Direction) :
    (s.runTransform d).perm = s.perm := rfl
@[simp] theorem State.runTransform_tw (d : Direction) :
    (s.runTransform d).tw = s.tw := rfl
@[simp] theorem State.runTransform_inputs (d : Direction) :
    (s.runTransform d).inputs = s.inputs := rfl
@[simp] theorem State.runTransform_output (d : Direction) :
    (s.runTransform d).output = s.output := rfl
@[simp] theorem State.runTransform_draws (d : Direction) :
    (s.runTransform d).draws = s.draws := rfl

/-! ### resetEvent -/

@[simp] theorem State.resetEvent_dre : s.resetEvent.dre = State.reset.dre := rfl
@[simp] theorem State.resetEvent_dim : s.resetEvent.dim = State.reset.dim := rfl
@[simp] theorem State.resetEvent_status : s.resetEvent.status = State.reset.status := rfl
@[simp] theorem State.resetEvent_n : s.resetEvent.n = State.reset.n := rfl
@[simp] theorem State.resetEvent_cap : s.resetEvent.cap = s.cap := rfl
@[simp] theorem State.resetEvent_fsticky : s.resetEvent.fsticky = State.reset.fsticky := rfl
@[simp] theorem State.resetEvent_fcode : s.resetEvent.fcode = State.reset.fcode := rfl
@[simp] theorem State.resetEvent_fexp : s.resetEvent.fexp = State.reset.fexp := rfl
@[simp] theorem State.resetEvent_fact : s.resetEvent.fact = State.reset.fact := rfl
@[simp] theorem State.resetEvent_ibuf : s.resetEvent.ibuf = State.reset.ibuf := rfl
@[simp] theorem State.resetEvent_obuf : s.resetEvent.obuf = State.reset.obuf := rfl
@[simp] theorem State.resetEvent_perm : s.resetEvent.perm = State.reset.perm := rfl
@[simp] theorem State.resetEvent_tw : s.resetEvent.tw = State.reset.tw := rfl
@[simp] theorem State.resetEvent_inputs : s.resetEvent.inputs = s.inputs := rfl
@[simp] theorem State.resetEvent_output : s.resetEvent.output = State.reset.output := rfl
@[simp] theorem State.resetEvent_draws : s.resetEvent.draws = s.draws := rfl

/-! ### buildTables -/

@[simp] theorem State.buildTables_dre (rdx : Radix) (size : Nat) :
    (s.buildTables rdx size).dre = s.dre := by unfold State.buildTables; split <;> rfl
@[simp] theorem State.buildTables_dim (rdx : Radix) (size : Nat) :
    (s.buildTables rdx size).dim = s.dim := by unfold State.buildTables; split <;> rfl
@[simp] theorem State.buildTables_status (rdx : Radix) (size : Nat) :
    (s.buildTables rdx size).status = s.status := by unfold State.buildTables; split <;> rfl
@[simp] theorem State.buildTables_n (rdx : Radix) (size : Nat) :
    (s.buildTables rdx size).n = s.n := by unfold State.buildTables; split <;> rfl
@[simp] theorem State.buildTables_cap (rdx : Radix) (size : Nat) :
    (s.buildTables rdx size).cap = s.cap := by unfold State.buildTables; split <;> rfl
@[simp] theorem State.buildTables_fsticky (rdx : Radix) (size : Nat) :
    (s.buildTables rdx size).fsticky = s.fsticky := by unfold State.buildTables; split <;> rfl
@[simp] theorem State.buildTables_fcode (rdx : Radix) (size : Nat) :
    (s.buildTables rdx size).fcode = s.fcode := by unfold State.buildTables; split <;> rfl
@[simp] theorem State.buildTables_fexp (rdx : Radix) (size : Nat) :
    (s.buildTables rdx size).fexp = s.fexp := by unfold State.buildTables; split <;> rfl
@[simp] theorem State.buildTables_fact (rdx : Radix) (size : Nat) :
    (s.buildTables rdx size).fact = s.fact := by unfold State.buildTables; split <;> rfl
@[simp] theorem State.buildTables_ibuf (rdx : Radix) (size : Nat) :
    (s.buildTables rdx size).ibuf = s.ibuf := by unfold State.buildTables; split <;> rfl
@[simp] theorem State.buildTables_obuf (rdx : Radix) (size : Nat) :
    (s.buildTables rdx size).obuf = s.obuf := by unfold State.buildTables; split <;> rfl
@[simp] theorem State.buildTables_perm (rdx : Radix) (size : Nat) :
    (s.buildTables rdx size).perm = if 4 ≤ size then permgen rdx size s.perm else s.perm := by unfold State.buildTables; split <;> rfl
@[simp] theorem State.buildTables_tw (rdx : Radix) (size : Nat) :
    (s.buildTables rdx size).tw = if 4 ≤ size then twgen binary64 size s.tw else s.tw := by unfold State.buildTables; split <;> rfl
@[simp] theorem State.buildTables_inputs (rdx : Radix) (size : Nat) :
    (s.buildTables rdx size).inputs = s.inputs := by unfold State.buildTables; split <;> rfl
@[simp] theorem State.buildTables_output (rdx : Radix) (size : Nat) :
    (s.buildTables rdx size).output = s.output := by unfold State.buildTables; split <;> rfl
@[simp] theorem State.buildTables_draws (rdx : Radix) (size : Nat) :
    (s.buildTables rdx size).draws = s.draws := by unfold State.buildTables; split <;> rfl

/-! ### hostWriteData, hostReadData, idle -/

@[simp] theorem hostWriteData_dre (re im : Scalar) : (hostWriteData re im s).dre = .value re := rfl
@[simp] theorem hostWriteData_dim (re im : Scalar) : (hostWriteData re im s).dim = .value im := rfl
@[simp] theorem hostWriteData_status (re im : Scalar) : (hostWriteData re im s).status = s.status := rfl
@[simp] theorem hostWriteData_n (re im : Scalar) : (hostWriteData re im s).n = s.n := rfl
@[simp] theorem hostWriteData_cap (re im : Scalar) : (hostWriteData re im s).cap = s.cap := rfl
@[simp] theorem hostWriteData_fsticky (re im : Scalar) : (hostWriteData re im s).fsticky = s.fsticky := rfl
@[simp] theorem hostWriteData_fcode (re im : Scalar) : (hostWriteData re im s).fcode = s.fcode := rfl
@[simp] theorem hostWriteData_fexp (re im : Scalar) : (hostWriteData re im s).fexp = s.fexp := rfl
@[simp] theorem hostWriteData_fact (re im : Scalar) : (hostWriteData re im s).fact = s.fact := rfl
@[simp] theorem hostWriteData_ibuf (re im : Scalar) : (hostWriteData re im s).ibuf = s.ibuf := rfl
@[simp] theorem hostWriteData_obuf (re im : Scalar) : (hostWriteData re im s).obuf = s.obuf := rfl
@[simp] theorem hostWriteData_perm (re im : Scalar) : (hostWriteData re im s).perm = s.perm := rfl
@[simp] theorem hostWriteData_tw (re im : Scalar) : (hostWriteData re im s).tw = s.tw := rfl
@[simp] theorem hostWriteData_inputs (re im : Scalar) : (hostWriteData re im s).inputs = s.inputs := rfl
@[simp] theorem hostWriteData_output (re im : Scalar) : (hostWriteData re im s).output = .nothing := rfl
@[simp] theorem hostWriteData_draws (re im : Scalar) : (hostWriteData re im s).draws = s.draws := rfl

@[simp] theorem hostReadData_dre : (hostReadData s).dre = s.dre := rfl
@[simp] theorem hostReadData_dim : (hostReadData s).dim = s.dim := rfl
@[simp] theorem hostReadData_status : (hostReadData s).status = s.status := rfl
@[simp] theorem hostReadData_n : (hostReadData s).n = s.n := rfl
@[simp] theorem hostReadData_cap : (hostReadData s).cap = s.cap := rfl
@[simp] theorem hostReadData_fsticky : (hostReadData s).fsticky = s.fsticky := rfl
@[simp] theorem hostReadData_fcode : (hostReadData s).fcode = s.fcode := rfl
@[simp] theorem hostReadData_fexp : (hostReadData s).fexp = s.fexp := rfl
@[simp] theorem hostReadData_fact : (hostReadData s).fact = s.fact := rfl
@[simp] theorem hostReadData_ibuf : (hostReadData s).ibuf = s.ibuf := rfl
@[simp] theorem hostReadData_obuf : (hostReadData s).obuf = s.obuf := rfl
@[simp] theorem hostReadData_perm : (hostReadData s).perm = s.perm := rfl
@[simp] theorem hostReadData_tw : (hostReadData s).tw = s.tw := rfl
@[simp] theorem hostReadData_inputs : (hostReadData s).inputs = s.inputs := rfl
@[simp] theorem hostReadData_output : (hostReadData s).output = .data s.readData.re s.readData.im := rfl
@[simp] theorem hostReadData_draws : (hostReadData s).draws = s.draws + 1 := rfl

@[simp] theorem idle_dre : (idle s).dre = s.dre := rfl
@[simp] theorem idle_dim : (idle s).dim = s.dim := rfl
@[simp] theorem idle_status : (idle s).status = s.status := rfl
@[simp] theorem idle_n : (idle s).n = s.n := rfl
@[simp] theorem idle_cap : (idle s).cap = s.cap := rfl
@[simp] theorem idle_fsticky : (idle s).fsticky = s.fsticky := rfl
@[simp] theorem idle_fcode : (idle s).fcode = s.fcode := rfl
@[simp] theorem idle_fexp : (idle s).fexp = s.fexp := rfl
@[simp] theorem idle_fact : (idle s).fact = s.fact := rfl
@[simp] theorem idle_ibuf : (idle s).ibuf = s.ibuf := rfl
@[simp] theorem idle_obuf : (idle s).obuf = s.obuf := rfl
@[simp] theorem idle_perm : (idle s).perm = s.perm := rfl
@[simp] theorem idle_tw : (idle s).tw = s.tw := rfl
@[simp] theorem idle_inputs : (idle s).inputs = s.inputs := rfl
@[simp] theorem idle_output : (idle s).output = .nothing := rfl
@[simp] theorem idle_draws : (idle s).draws = s.draws := rfl

/-! ### The readers of STATUS, CAP and the control registers -/

@[simp] theorem State.respondOk_prepared (a b : Word) : (s.respondOk a b).prepared = s.prepared := rfl
@[simp] theorem State.respondOk_nMax (a b : Word) : (s.respondOk a b).nMax = s.nMax := rfl
@[simp] theorem State.raise_prepared (c : FaultCode) (a b : Word) : (s.raise c a b).prepared = s.prepared := rfl
@[simp] theorem State.raise_nMax (c : FaultCode) (a b : Word) : (s.raise c a b).nMax = s.nMax := rfl
@[simp] theorem State.forgetMemories_prepared : (s.forgetMemories).prepared = s.prepared := rfl
@[simp] theorem State.forgetMemories_nMax : (s.forgetMemories).nMax = s.nMax := rfl
@[simp] theorem State.nextDraw_prepared : (s.nextDraw).prepared = s.prepared := rfl
@[simp] theorem State.nextDraw_nMax : (s.nextDraw).nMax = s.nMax := rfl
@[simp] theorem State.writeData_prepared (z : Cplx Scalar) : (s.writeData z).prepared = s.prepared := rfl
@[simp] theorem State.writeData_nMax (z : Cplx Scalar) : (s.writeData z).nMax = s.nMax := rfl
@[simp] theorem State.runTransform_prepared (d : Direction) : (s.runTransform d).prepared = s.prepared := rfl
@[simp] theorem State.runTransform_nMax (d : Direction) : (s.runTransform d).nMax = s.nMax := rfl

end Sys2Proof.Machine
end

