-- ==== Sys2Proof/Laws/Commands.lean ====
section
/-! SUPPORT. What the checks and each command can answer, said once: later proofs cite these and do not unfold a meaning. -/

namespace Sys2Proof.Machine

variable {s t : State}

/-- The state check lets the effect through. -/
theorem ifPrepared_of_prepared {i : Instr} {effect : State} (h : s.prepared = true) :
    s.ifPrepared i effect = .next effect := by simp [State.ifPrepared, h]

/-- The state check raises NotPrepared with the opcode. -/
theorem ifPrepared_of_unprepared {i : Instr} {effect : State} (h : s.prepared = false) :
    s.ifPrepared i effect = .next (s.raise .notPrepared 0#32 ((opcode i).setWidth 32)) := by
  simp [State.ifPrepared, h]

/-- The two answers of the state check. -/
theorem ifPrepared_cases {i : Instr} {effect : State} (h : s.ifPrepared i effect = .next t) :
    (s.prepared = true ∧ t = effect) ∨
      (s.prepared = false ∧ t = s.raise .notPrepared 0#32 ((opcode i).setWidth 32)) := by
  cases hp : s.prepared
  · rw [ifPrepared_of_unprepared hp] at h; cases h; exact .inr ⟨rfl, rfl⟩
  · rw [ifPrepared_of_prepared hp] at h; cases h; exact .inl ⟨rfl, rfl⟩

/-- `size AND (size - 1) = 0` on a non-zero 24-bit field says that it is a power of two (R192 (f)). -/
theorem and_pred_eq_zero_iff {size : BitVec 24} (h : size ≠ 0#24) :
    size &&& (size - 1#24) = 0#24 ↔ ∃ e, size.toNat = 2 ^ e := by
  have hp : 1 ≤ size.toNat := by
    rcases Nat.eq_zero_or_pos size.toNat with h' | h'
    · exact absurd (BitVec.eq_of_toNat_eq (by simpa using h')) h
    · exact h'
  have hs : (size - 1#24).toNat = size.toNat - 1 := by
    rw [BitVec.toNat_sub_of_le (by simpa [BitVec.le_def] using hp)]; rfl
  rw [← BitVec.toNat_inj, BitVec.toNat_and, hs]
  exact Nat.and_sub_one_eq_zero_iff_isPowerOfTwo (by omega)

/-- PREPARE's operand check lets exactly the valid sizes through. -/
theorem invalidSize_eq_false_iff (size : BitVec 24) : s.invalidSize size = false ↔ s.validSize size := by
  unfold State.invalidSize State.validSize State.nMax
  by_cases h0 : size = 0#24
  · subst h0
    constructor
    · simp
    · rintro ⟨e, he, -⟩; have := Nat.two_pow_pos e; simp at he; omega
  · simp only [Bool.or_eq_false_iff, decide_eq_false_iff_not, not_lt, bne_eq_false_iff_eq, and_pred_eq_zero_iff h0, h0,
      not_false_eq_true, true_and]
    constructor
    · rintro ⟨h1, e, he⟩; rw [he] at h1; exact ⟨e, he, (Nat.pow_le_pow_iff_right (by norm_num)).1 h1⟩
    · rintro ⟨e, he, hl⟩; exact ⟨by rw [he]; exact Nat.pow_le_pow_right (by norm_num) hl, e, he⟩

/-- The effect of SETIN. -/
def setinEffect (idx : BitVec 24) (s : State) : State :=
  ({ s with ibuf := Memory.write s.ibuf idx.toNat s.readData }.nextDraw).respondOk 0#32 0#32

/-- The effect of GETIN and GETOUT on an element `z`. -/
def getEffect (z : Cplx Scalar) (s : State) : State := ((s.writeData z).nextDraw).respondOk 0#32 0#32

/-- The effect of RUN. -/
def runEffect (d : Direction) (s : State) : State := ((s.runTransform d).nextDraw).respondOk 0#32 0#32

/-- The effect of PREPARE. -/
def prepareEffect (rdx : Radix) (size : BitVec 24) (s : State) : State :=
  (((s.setPrepared rdx size).forgetMemories).buildTables rdx size.toNat).respondOk 0#32 0#32

/-- The effect of DISPOSE. -/
def disposeEffect (s : State) : State := { s with status := 0#32, n := 0#32 }.forgetMemories.respondOk 0#32 0#32

/-- Everything that executing a command can do (R191, R229): it takes one of the five faults, each under its cause, or it has
its effect. There is no other answer. -/
theorem exec_cases (i : Instr) (s : State) :
    (∃ rdx size, i = .prepare rdx size ∧ s.invalidSize size = true ∧
      exec i s = .next (s.raise .invalidSize (BitVec.ofNat 32 s.nMax) (zext size))) ∨
    (∃ rdx size, i = .prepare rdx size ∧ s.invalidSize size = false ∧ exec i s = .next (prepareEffect rdx size s)) ∨
    (∃ idx, i = .setin idx ∧ s.prepared = true ∧ idx.toNat < s.n.toNat ∧ exec i s = .next (setinEffect idx s)) ∨
    (∃ idx, i = .getin idx ∧ s.prepared = true ∧ idx.toNat < s.n.toNat ∧
      exec i s = .next (getEffect (s.readElement s.ibuf idx.toNat) s)) ∨
    (∃ idx, i = .getout idx ∧ s.prepared = true ∧ idx.toNat < s.n.toNat ∧
      exec i s = .next (getEffect (s.readElement s.obuf idx.toNat) s)) ∨
    (∃ idx, (i = .setin idx ∨ i = .getin idx ∨ i = .getout idx) ∧ s.prepared = true ∧ s.n.toNat ≤ idx.toNat ∧
      exec i s = .next (s.raise .indexRange s.n (zext idx))) ∨
    (∃ d len, i = .run d len ∧ s.prepared = true ∧ zext len = s.n ∧ exec i s = .next (runEffect d s)) ∨
    (∃ d len, i = .run d len ∧ s.prepared = true ∧ zext len ≠ s.n ∧
      exec i s = .next (s.raise .lengthMismatch s.n (zext len))) ∨
    ((∃ idx, i = .setin idx ∨ i = .getin idx ∨ i = .getout idx ∨ ∃ d, i = .run d idx) ∧ s.prepared = false ∧
      exec i s = .next (s.raise .notPrepared 0#32 ((opcode i).setWidth 32))) ∨
    (i = .dispose ∧ exec i s = .next (disposeEffect s)) ∨
    (∃ csr r, i = .rdcsr csr ∧ csrOfNumber csr = some r ∧ exec i s = .next (s.respondOk (s.readCsr r) 0#32)) ∨
    (∃ csr, i = .rdcsr csr ∧ csrOfNumber csr = none ∧
      exec i s = .next (s.raise .illegalCommand 0#32 (encode (.rdcsr csr)))) := by
  cases i with
  | prepare rdx size =>
    cases h : s.invalidSize size
    · exact .inr (.inl ⟨rdx, size, rfl, h, by simp [exec, execPrepare, h, prepareEffect]⟩)
    · exact .inl ⟨rdx, size, rfl, h, by simp [exec, execPrepare, h]⟩
  | setin idx =>
    cases hp : s.prepared
    · exact .inr (.inr (.inr (.inr (.inr (.inr (.inr (.inr (.inl ⟨⟨idx, .inl rfl⟩, rfl, ifPrepared_of_unprepared hp⟩))))))))
    · by_cases hi : idx.toNat < s.n.toNat
      · exact .inr (.inr (.inl ⟨idx, rfl, rfl, hi, by
          simp [exec, execSetin, ifPrepared_of_prepared hp, State.ifInRange, hi, setinEffect]⟩))
      · exact .inr (.inr (.inr (.inr (.inr (.inl ⟨idx, .inl rfl, rfl, not_lt.mp hi, by
          simp [exec, execSetin, ifPrepared_of_prepared hp, State.ifInRange, hi]⟩)))))
  | getin idx =>
    cases hp : s.prepared
    · exact .inr (.inr (.inr (.inr (.inr (.inr (.inr (.inr (.inl ⟨⟨idx, .inr (.inl rfl)⟩, rfl, ifPrepared_of_unprepared hp⟩))))))))
    · by_cases hi : idx.toNat < s.n.toNat
      · exact .inr (.inr (.inr (.inl ⟨idx, rfl, rfl, hi, by
          simp [exec, execGetin, ifPrepared_of_prepared hp, State.ifInRange, hi, getEffect]⟩)))
      · exact .inr (.inr (.inr (.inr (.inr (.inl ⟨idx, .inr (.inl rfl), rfl, not_lt.mp hi, by
          simp [exec, execGetin, ifPrepared_of_prepared hp, State.ifInRange, hi]⟩)))))
  | run d len =>
    cases hp : s.prepared
    · exact .inr (.inr (.inr (.inr (.inr (.inr (.inr (.inr (.inl
        ⟨⟨len, .inr (.inr (.inr ⟨d, rfl⟩))⟩, rfl, ifPrepared_of_unprepared hp⟩))))))))
    · by_cases hl : zext len = s.n
      · exact .inr (.inr (.inr (.inr (.inr (.inr (.inl ⟨d, len, rfl, rfl, hl, by
          simp [exec, execRun, ifPrepared_of_prepared hp, State.ifLength, hl, runEffect]⟩))))))
      · exact .inr (.inr (.inr (.inr (.inr (.inr (.inr (.inl ⟨d, len, rfl, rfl, hl, by
          simp [exec, execRun, ifPrepared_of_prepared hp, State.ifLength, hl]⟩)))))))
  | getout idx =>
    cases hp : s.prepared
    · exact .inr (.inr (.inr (.inr (.inr (.inr (.inr (.inr (.inl
        ⟨⟨idx, .inr (.inr (.inl rfl))⟩, rfl, ifPrepared_of_unprepared hp⟩))))))))
    · by_cases hi : idx.toNat < s.n.toNat
      · exact .inr (.inr (.inr (.inr (.inl ⟨idx, rfl, rfl, hi, by
          simp [exec, execGetout, ifPrepared_of_prepared hp, State.ifInRange, hi, getEffect]⟩))))
      · exact .inr (.inr (.inr (.inr (.inr (.inl ⟨idx, .inr (.inr rfl), rfl, not_lt.mp hi, by
          simp [exec, execGetout, ifPrepared_of_prepared hp, State.ifInRange, hi]⟩)))))
  | dispose => exact .inr (.inr (.inr (.inr (.inr (.inr (.inr (.inr (.inr (.inl ⟨rfl, rfl⟩)))))))))
  | rdcsr csr =>
    cases h : csrOfNumber csr with
    | some r =>
      exact .inr (.inr (.inr (.inr (.inr (.inr (.inr (.inr (.inr (.inr (.inl ⟨csr, r, rfl, h, by
        simp [exec, execRdcsr, h]⟩))))))))))
    | none =>
      exact .inr (.inr (.inr (.inr (.inr (.inr (.inr (.inr (.inr (.inr (.inr ⟨csr, rfl, h, by
        simp [exec, execRdcsr, h]⟩))))))))))

/-- What a step does with the host's next input (R264). -/
theorem step_cons {input : HostInput} {rest : List HostInput} (h : s.inputs = input :: rest) :
    step s = takeInput input { s with inputs := rest } := by simp [step, h]

/-- A step with no input waits. -/
theorem step_nil (h : s.inputs = []) : step s = .next (idle s) := by simp [step, h]

/-- A legal word runs its command. -/
theorem presentWord_legal {w : Word} {i : Instr} (h : decode w = .legal i) (s : State) :
    presentWord w s = exec i s := by simp [presentWord, h]

/-- An illegal word raises IllegalCommand with the word. -/
theorem presentWord_illegal {w : Word} {why : Illegal} (h : decode w = .illegal why) (s : State) :
    presentWord w s = .next (s.raise .illegalCommand 0#32 w) := by simp [presentWord, h]

/-- Everything that a step can do (R264): wait, reset, a host move, IllegalCommand, or a command on the state from which the
word has been taken. -/
theorem step_cases (h : step s = .next t) :
    (s.inputs = [] ∧ t = idle s) ∨
    (∃ rest, s.inputs = .reset :: rest ∧ t = State.resetEvent { s with inputs := rest }) ∨
    (∃ re im rest, s.inputs = .writeData re im :: rest ∧ t = hostWriteData re im { s with inputs := rest }) ∨
    (∃ rest, s.inputs = .readData :: rest ∧ t = hostReadData { s with inputs := rest }) ∨
    (∃ w rest why, s.inputs = .command w :: rest ∧ decode w = .illegal why ∧
      t = State.raise { s with inputs := rest } .illegalCommand 0#32 w) ∨
    (∃ w rest i, s.inputs = .command w :: rest ∧ decode w = .legal i ∧ exec i { s with inputs := rest } = .next t) := by
  cases hi : s.inputs with
  | nil => rw [step_nil hi] at h; cases h; exact .inl ⟨rfl, rfl⟩
  | cons input rest =>
    rw [step_cons hi] at h
    cases input with
    | command w =>
      change presentWord w _ = _ at h
      cases hd : decode w with
      | illegal why =>
        rw [presentWord_illegal hd] at h; cases h
        exact .inr (.inr (.inr (.inr (.inl ⟨w, rest, why, rfl, hd, rfl⟩))))
      | legal i =>
        rw [presentWord_legal hd] at h
        exact .inr (.inr (.inr (.inr (.inr ⟨w, rest, i, rfl, hd, h⟩))))
    | writeData re im => cases h; exact .inr (.inr (.inl ⟨re, im, rest, rfl, rfl⟩))
    | readData => cases h; exact .inr (.inr (.inr (.inl ⟨rest, rfl, rfl⟩)))
    | reset => cases h; exact .inr (.inl ⟨rest, rfl, rfl⟩)

/-- A 24-bit field equals a register when the numbers are equal (R77). -/
theorem zext_eq_iff {field : BitVec 24} {r : Word} : zext field = r ↔ field.toNat = r.toNat := by
  rw [← BitVec.toNat_inj, zext, BitVec.toNat_setWidth, Nat.mod_eq_of_lt (by omega)]

end Sys2Proof.Machine
end

