-- ==== Sys2Proof/Laws/Encoding.lean ====
section
/-! SUPPORT. A command word as its top byte (opcode and bits 27:24) and its 24-bit field: how the decoder's readers see it. -/

namespace Sys2Proof

variable (c m : BitVec 8) (z y : BitVec 24)

theorem and_byte_append : ((c ++ z : Word) &&& (m ++ y : Word)) = ((c &&& m) ++ (z &&& y) : Word) := by
  ext i hi
  simp only [BitVec.getElem_and, BitVec.getElem_append]
  split <;> simp

theorem opcodeOf_append : opcodeOf (c ++ z : Word) = c.extractLsb' 4 4 := by
  ext i hi
  simp only [opcodeOf, BitVec.getElem_extractLsb', BitVec.getLsbD_append]
  rw [if_neg (by omega)]; congr 1; omega

theorem field24_append : field24 (c ++ z : Word) = z := by
  ext i hi
  simp only [field24, BitVec.getElem_extractLsb', BitVec.getLsbD_append]
  rw [if_pos (by omega)]; simp [hi]

theorem bit24_append : (c ++ z : Word).getLsbD 24 = c.getLsbD 0 := by
  rw [BitVec.getLsbD_append, if_neg (by omega)]

theorem append_byte_inj {c c' : BitVec 8} {z z' : BitVec 24} (h : (c ++ z : Word) = (c' ++ z' : Word)) :
    c = c' ∧ z = z' := by
  constructor
  · ext i hi
    have := congrArg (fun w => BitVec.getLsbD w (24 + i)) h
    simp only [BitVec.getLsbD_append] at this
    rw [if_neg (by omega), if_neg (by omega)] at this
    simpa [hi] using this
  · rw [← field24_append c z, h, field24_append]

/-- The reserved bits of a word lie in its top byte, for every format with a 24-bit field. -/
theorem reserved_append : ((c ++ z : Word) &&& (m ++ 0#24 : Word) = 0#32) ↔ c &&& m = 0#8 := by
  rw [and_byte_append]
  constructor
  · intro h; exact (append_byte_inj (c' := 0#8) (z' := 0#24) h).1
  · intro h; rw [h]; simp

/-- Every word is its top byte and its 24-bit field. -/
theorem word_eq_append (w : Word) : w = (w.extractLsb' 24 8 ++ field24 w : Word) := by
  apply BitVec.eq_of_getLsbD_eq
  intro i hi
  simp only [BitVec.getLsbD_append, field24, BitVec.getLsbD_extractLsb']
  split
  · rename_i h; simp [h]
  · rename_i h
    have : i - 24 < 8 := by omega
    simp [this, show 24 + (i - 24) = i by omega]

theorem unlessReserved_legal {w reserved : Word} {i j : Instr} :
    unlessReserved w reserved i = .legal j ↔ w &&& reserved = 0#32 ∧ i = j := by
  unfold unlessReserved; split <;> simp [*]

/-- The opcode of SETIN, GETIN, RUN and GETOUT (R71), as NotPrepared reports it (R227). -/
@[simp] theorem opcode_setin (idx : BitVec 24) : opcode (.setin idx) = 2#4 :=
  (opcodeOf_append (0x2#4 ++ 0#4) idx).trans (by decide)

@[simp] theorem opcode_getin (idx : BitVec 24) : opcode (.getin idx) = 3#4 :=
  (opcodeOf_append (0x3#4 ++ 0#4) idx).trans (by decide)

@[simp] theorem opcode_run (d : Direction) (len : BitVec 24) : opcode (.run d len) = 4#4 :=
  (opcodeOf_append (0x4#4 ++ 0#3 ++ directionBit d) len).trans (by cases d <;> decide)

@[simp] theorem opcode_getout (idx : BitVec 24) : opcode (.getout idx) = 5#4 :=
  (opcodeOf_append (0x5#4 ++ 0#4) idx).trans (by decide)

/-- Register numbers 7 to 15 name no register (R26). -/
theorem csrOfNumber_eq_none_iff (csr : BitVec 4) : csrOfNumber csr = none ↔ 6 < csr.toNat := by revert csr; decide

end Sys2Proof
end

