-- ==== Sys2Proof/Laws/Flags.lean ====
section
/-! SUPPORT. The fields of the STATUS that PREPARE writes, and the sticky bit of each fault. -/

namespace Sys2Proof.Machine

/-- PREP is 1 after PREPARE (R192). -/
@[simp] theorem statusPrep_statusPrepared (rdx : Radix) (l : Nat) : statusPrep (statusPrepared rdx l) = true := by
  unfold statusPrepared
  generalize BitVec.ofNat 5 l = v
  cases rdx <;> revert v <;> decide

/-- RDX is the strategy (R192). -/
@[simp] theorem statusRdx_statusPrepared (rdx : Radix) (l : Nat) : statusRdx (statusPrepared rdx l) = rdx := by
  unfold statusPrepared
  generalize BitVec.ofNat 5 l = v
  cases rdx <;> revert v <;> decide

/-- LOGN is the log2 of the size, in its five bits (R192). -/
theorem statusLogn_statusPrepared (rdx : Radix) {l : Nat} (h : l < 32) : statusLogn (statusPrepared rdx l) = l := by
  have key : ∀ v : BitVec 5, statusLogn (statusPrepared rdx v.toNat) = v.toNat := by
    cases rdx <;> decide
  simpa [Nat.mod_eq_of_lt h] using key (BitVec.ofNat 5 l)

/-- Setting a sticky bit twice is setting it once. -/
theorem or_stickyBit_and (w : Word) (c : FaultCode) : (w ||| stickyBit c) &&& stickyBit c = stickyBit c := by
  ext i hi
  simp only [BitVec.getElem_and, BitVec.getElem_or]
  cases w[i] <;> cases (stickyBit c)[i] <;> rfl

theorem stickyBit_ne_zero (c : FaultCode) : stickyBit c ≠ 0#32 := by cases c <;> decide

end Sys2Proof.Machine
end

