-- ==== Sys2Proof/Laws/PerInstr.lean ====
section
/-! SUPPORT. Statements made for each instruction: the word of an instruction is accepted by its own row of the mask and match
table R81. -/

namespace Sys2Proof.Laws.TableRow

/-- The row of R81 for an instruction. -/
def rowOf : Instr → Sys2Proof.TableRow
  | .prepare _ _ => ⟨0xFE000000#32, 0x10000000#32⟩
  | .setin _ => ⟨0xFF000000#32, 0x20000000#32⟩
  | .getin _ => ⟨0xFF000000#32, 0x30000000#32⟩
  | .run _ _ => ⟨0xFE000000#32, 0x40000000#32⟩
  | .getout _ => ⟨0xFF000000#32, 0x50000000#32⟩
  | .dispose => ⟨0xFFFFFFFF#32, 0x60000000#32⟩
  | .rdcsr _ => ⟨0xFFFFFFF0#32, 0x70000000#32⟩

/-- The row of the instruction is one of the table's and accepts the instruction's word. -/
def Statement (i : Instr) : Prop := rowOf i ∈ decodeTable ∧ (rowOf i).accepts (encode i) = true

/-- A row whose mask lies in the top byte reads the top byte only. -/
theorem accepts_append {c m p : BitVec 8} (z : BitVec 24) (h : c &&& m = p) :
    (⟨m ++ 0#24, p ++ 0#24⟩ : Sys2Proof.TableRow).accepts (c ++ z) = true := by
  subst h
  simp [Sys2Proof.TableRow.accepts, and_byte_append]

theorem prepare (rdx : Radix) (size : BitVec 24) : Statement (.prepare rdx size) :=
  ⟨by simp [rowOf, decodeTable], by cases rdx <;> exact accepts_append (p := 0x10#8) (m := 0xFE#8) size rfl⟩

theorem setin (idx : BitVec 24) : Statement (.setin idx) :=
  ⟨by simp [rowOf, decodeTable], accepts_append (c := 0x2#4 ++ 0#4) (p := 0x20#8) (m := 0xFF#8) idx rfl⟩

theorem getin (idx : BitVec 24) : Statement (.getin idx) :=
  ⟨by simp [rowOf, decodeTable], accepts_append (c := 0x3#4 ++ 0#4) (p := 0x30#8) (m := 0xFF#8) idx rfl⟩

theorem run (dir : Direction) (len : BitVec 24) : Statement (.run dir len) :=
  ⟨by simp [rowOf, decodeTable], by cases dir <;> exact accepts_append (p := 0x40#8) (m := 0xFE#8) len rfl⟩

theorem getout (idx : BitVec 24) : Statement (.getout idx) :=
  ⟨by simp [rowOf, decodeTable], accepts_append (c := 0x5#4 ++ 0#4) (p := 0x50#8) (m := 0xFF#8) idx rfl⟩

theorem dispose : Statement .dispose := ⟨by decide, by decide⟩

theorem rdcsr (csr : BitVec 4) : Statement (.rdcsr csr) := ⟨by simp [rowOf, decodeTable], by revert csr; decide⟩

end Sys2Proof.Laws.TableRow
end

