-- ==== Sys2Proof/Tests/Slice0.lean ====
section
/-! SUPPORT. The model's own tests. Expected values come from `spec/95_test_vectors.md` (each test names its vector); and for
every statement with hypotheses a witness that meets them, at the ends of their ranges. -/

namespace Sys2Proof.Machine.Tests

-- One evaluation at a time: each thread that evaluates in the kernel reserves a gigabyte.
set_option Elab.async false

/-! ## Helpers -/

/-- The next state, or reset where there is none. -/
def after : Result → State
  | .next s => s
  | .fault _ => State.reset
  | .refused _ => State.reset

/-- Prepared(size) right after PREPARE, the memories but IBUF as PREPARE leaves them (R192). -/
def kernel (rdx : Radix) (size : BitVec 32) (ibuf : Memory (Cplx Scalar)) : State :=
  { State.reset with
    n := size, status := statusPrepared rdx (Nat.log2 size.toNat), ibuf := ibuf
    tw := if 4 ≤ size.toNat then twgen binary64 size.toNat [] else []
    perm := if 4 ≤ size.toNat then permgen rdx size.toNat [] else [] }

/-- The kernel of size 4 and radix 2 with the ramp 1, 2, 3, 4 in IBUF (V23). -/
def ramp4 : State :=
  kernel .r2 4#32
    [(0, ⟨0x3FF0000000000000#64, 0#64⟩), (1, ⟨0x4000000000000000#64, 0#64⟩), (2, ⟨0x4008000000000000#64, 0#64⟩),
     (3, ⟨0x4010000000000000#64, 0#64⟩)]

/-- The kernel of size 2 with the input of V4. -/
def pair2 : State :=
  kernel .r4 2#32
    [(0, ⟨0x3FF0000000000000#64, 0x4000000000000000#64⟩), (1, ⟨0x4008000000000000#64, 0xC010000000000000#64⟩)]

/-- The kernel of size 1 with the input of V3. -/
def one1 : State := kernel .r2 1#32 [(0, ⟨0x400C000000000000#64, 0xC000000000000000#64⟩)]

/-- A state whose next input is the command word `w`. -/
def given (w : Word) (s : State) : State := { s with inputs := [.command w] }

/-- A response in the notation of the vectors. -/
def answers (s : State) (code : BitVec 4) (info0 info1 : Word) : Bool := s.output = .response code info0 info1

/-! ## WellFormed and Decode (V5, V6, R26) -/

theorem test_wellFormed_refuses_register_7 : Instr.wellFormed (.rdcsr 7#4) = false := by decide
theorem test_wellFormed_refuses_register_15 : Instr.wellFormed (.rdcsr 15#4) = false := by decide
theorem test_wellFormed_allows_register_6 : Instr.wellFormed (.rdcsr 6#4) = true := by decide

/-- opcode 0001, reserved 000, rdx 1, size (V5). -/
theorem test_decode_prepare : decode 0b00010001000000000000010000000000#32 = .legal (.prepare .r4 1024#24) := by decide
theorem test_decode_setin : decode 0b00100000111111111111111111111111#32 = .legal (.setin 16777215#24) := by decide
theorem test_decode_getin : decode 0b00110000000000000000000000000010#32 = .legal (.getin 2#24) := by decide
theorem test_decode_run : decode 0b01000001000000010000000000000000#32 = .legal (.run .inv 65536#24) := by decide
theorem test_decode_getout : decode 0b01010000000000000000000000000111#32 = .legal (.getout 7#24) := by decide
theorem test_decode_dispose : decode 0b01100000000000000000000000000000#32 = .legal .dispose := by decide
theorem test_decode_rdcsr : decode 0b01110000000000000000000000000110#32 = .legal (.rdcsr 6#4) := by decide

/-- The illegal words of V6, each by its name. -/
theorem test_decode_illegal :
    [0x00000000#32, 0x80000000#32, 0xFFFFFFFF#32].map decode = List.replicate 3 (.illegal .reservedOpcode) ∧
    [0x12000004#32, 0x1F000004#32, 0x22000009#32, 0x31000000#32, 0x42000004#32, 0x58000000#32, 0x60000001#32,
      0x70000010#32].map decode = List.replicate 8 (.illegal .reservedBit) ∧
    [0x70000007#32, 0x7000000F#32].map decode = List.replicate 2 (.illegal .reservedCsr) := by decide

/-- A word placed for the next step is the word that the step runs. -/
theorem test_withFetchWord : answers (after (step (State.reset.withFetchWord 32 0x70000002))) 0#4 16#32 0#32 := by decide

/-! ## Commands -/

/-- V35, after `prepare r4, 8`. -/
theorem test_prepare_status : (after (exec (.prepare .r4 8#24) State.reset)).status = 0x0000000F#32 := by decide +kernel
/-- V34, `prepare r2, 12`. -/
theorem test_prepare_invalid :
    (fun t : State => answers t 1#4 65536#32 12#32 && t.fsticky == 2#32 && t.status == 0#32)
      (after (step (given 0x1000000C#32 State.reset))) := by decide
/-- P4 lines 2 and 3: WriteData, then SETIN, leaves the written value in IBUF. -/
theorem test_setin_writes :
    Memory.read (after (exec (.setin 0#24) (hostWriteData 0x3FF0000000000000#64 0x4000000000000000#64 pair2))).ibuf 0 =
      some ⟨0x3FF0000000000000#64, 0x4000000000000000#64⟩ := by decide
/-- V34, `setin 16777215` at Prepared(4). -/
theorem test_setin_range : answers (after (step (given 0x20FFFFFF#32 ramp4))) 4#4 4#32 16777215#32 := by decide +kernel
/-- P4 line 7. -/
theorem test_getin_reads :
    (fun t : State => t.dre == .value 0x3FF0000000000000#64 && t.dim == .value 0x4000000000000000#64)
      (after (exec (.getin 0#24) pair2)) := by decide
/-- V34, `setin 9` at reset: NotPrepared before IndexRange; here with GETIN's opcode. -/
theorem test_getin_unprepared : answers (after (step (given 0x30000009#32 State.reset))) 5#4 0#32 3#32 := by decide
/-- V23, every bit of OBUF after `run fwd, 4`. -/
theorem test_run_ramp :
    (after (exec (.run .fwd 4#24) ramp4)).obuf =
      [(0, ⟨0x4024000000000000#64, 0#64⟩), (1, ⟨0xC000000000000000#64, 0xC000000000000000#64⟩),
       (2, ⟨0xC000000000000000#64, 0#64⟩), (3, ⟨0xC000000000000000#64, 0x4000000000000000#64⟩)] := by decide +kernel
/-- P4 line 6: `run inv, 2`. -/
theorem test_run_size_two :
    (after (exec (.run .inv 2#24) pair2)).obuf =
      [(0, ⟨0x4010000000000000#64, 0xC000000000000000#64⟩), (1, ⟨0xC000000000000000#64, 0x4018000000000000#64⟩)] := by
  decide +kernel
/-- P1 line 14, with the OBUF of its end state. -/
theorem test_getout_reads :
    (fun t : State => t.dre == .value 0xC000000000000000#64 && t.dim == .value 0x4000000000000000#64)
      (after (exec (.getout 3#24)
        { ramp4 with obuf := [(3, ⟨0xC000000000000000#64, 0x4000000000000000#64⟩)] })) := by decide +kernel
/-- P4 line 14. -/
theorem test_getout_unprepared : answers (after (step (given 0x50000000#32 State.reset))) 5#4 0#32 5#32 := by decide
/-- P4 line 13. -/
theorem test_dispose :
    (fun t : State => t.status == 0#32 && t.n == 0#32 && t.ibuf == [] && answers t 0#4 0#32 0#32)
      (after (exec .dispose one1)) := by decide
/-- V35, `rdcsr status` after `prepare r4, 2`. -/
theorem test_rdcsr_status : answers (after (step (given 0x70000000#32 pair2))) 0#4 7#32 0#32 := by decide
/-- P3 line 14. -/
theorem test_rdcsr_reserved : answers (after (step (given 0x70000007#32 pair2))) 6#4 0#32 0x70000007#32 := by decide

/-! ## The units -/

/-- V11, n = 8 and one entry of n = 16 that a library cosine gets wrong. -/
theorem test_cosq :
    twgen binary64 8 [] = [(0, 0x3FF0000000000000#64), (1, 0x3FE6A09E667F3BCD#64), (2, 0#64)] ∧
    Binary64.cosq 16 3 = 0x3FD87DE2A6AEA963#64 := by decide +kernel
/-- V12, r = 1 and r = -1, and the negative zero of r = 0 with d = -1. -/
theorem test_twlookup :
    twlookup binary64 4 [(0, Binary64.one), (1, Binary64.zero)] .fwd 1 =
      some ⟨0x8000000000000000#64, 0x3FF0000000000000#64⟩ ∧
    twlookup binary64 4 [(0, Binary64.one), (1, Binary64.zero)] .fwd (-1) = some ⟨0#64, 0xBFF0000000000000#64⟩ ∧
    twlookup binary64 4 [(0, Binary64.one), (1, Binary64.zero)] .inv 0 =
      some ⟨0x3FF0000000000000#64, 0x8000000000000000#64⟩ := by decide
/-- V16 and V17, n = 8. -/
theorem test_permgen :
    (permgen2 8 []).map (·.2) = [0, 4, 2, 6, 1, 5, 3, 7] ∧ (permgen4 8 []).map (·.2) = [0, 2, 4, 6, 1, 3, 5, 7] := by
  decide +kernel
/-- V19, the first two rows. -/
theorem test_cmul :
    cmul binary64 ⟨0, 0, 0, 0⟩ ⟨0x3FE3333333333333#64, 0x3FE999999999999A#64⟩ ⟨0x3FF8000000000000#64, 0xC000000000000000#64⟩ =
      ⟨0x4004000000000000#64, 0x3CB0000000000000#64⟩ ∧
    cmul binary64 ⟨0, 0, 0, 0⟩ ⟨0x3FE6A09E667F3BCD#64, 0x3FE6A09E667F3BCD#64⟩ ⟨0x3FF0000000000000#64, 0x4000000000000000#64⟩ =
      ⟨0xBFE6A09E667F3BCD#64, 0x4000F876CCDF6CDA#64⟩ := by decide +kernel
/-- V20. -/
theorem test_rot90 :
    rot90 binary64 .fwd ⟨0x4008000000000000#64, 0x4010000000000000#64⟩ = ⟨0xC010000000000000#64, 0x4008000000000000#64⟩ ∧
    rot90 binary64 .inv ⟨0xC000000000000000#64, 0#64⟩ = ⟨0#64, 0x4000000000000000#64⟩ := by decide +kernel
/-- R126 by hand: the largest finite value doubled overflows; the smallest subnormal halved is a tie and becomes +0. -/
theorem test_rounding_ends :
    Binary64.add ⟨0, 0, 0, 0⟩ 0x7FEFFFFFFFFFFFFF#64 0x7FEFFFFFFFFFFFFF#64 = 0x7FF0000000000000#64 ∧
    Binary64.mul ⟨0, 0, 0, 0⟩ 1#64 0x3FE0000000000000#64 = 0#64 := by decide +kernel

/-! ## Witnesses: states that meet the hypotheses of the statements -/

theorem reset_capLegal : State.CapLegal State.reset := by unfold State.CapLegal; decide

/-- A freshly prepared kernel meets the invariant, whatever the host has written into IBUF. -/
theorem kernel_inv (rdx : Radix) {size : BitVec 32} {ibuf : Memory (Cplx Scalar)} {l : Nat} (hl : l ≤ 16)
    (hs : size.toNat = 2 ^ l) (hw : Memory.wf ibuf = true) (hb : Memory.below size.toNat ibuf = true) :
    (kernel rdx size ibuf).Inv := by
  have hlog : Nat.log2 size.toNat = l := by rw [hs, Nat.log2_two_pow]
  have hst : (kernel rdx size ibuf).status = statusPrepared rdx l := by simp [kernel, hlog]
  refine ⟨reset_capLegal, ⟨fun hp => ?_, fun _ => ?_⟩, ⟨hw, hb, rfl, rfl, ?_, ?_⟩, ⟨fun h4 => ?_, fun h4 => ?_⟩, ?_⟩
  · rw [State.prepared, hst, statusPrep_statusPrepared] at hp; cases hp
  · rw [hst, statusRdx_statusPrepared, statusLogn_statusPrepared rdx (show l < 32 by omega)]
    exact ⟨rfl, hl, hs⟩
  · simp only [kernel]; split
    · exact wf_permgen _ _ rfl
    · rfl
  · simp only [kernel]; split
    · exact wf_twgen _ _ rfl
    · rfl
  · rw [hst, statusRdx_statusPrepared]
    have h : 4 ≤ size.toNat := h4
    simp only [kernel, if_pos h]; exact ⟨trivial, trivial⟩
  · have h : ¬ 4 ≤ size.toNat := not_le.mpr h4
    simp only [kernel, if_neg h]; exact ⟨trivial, trivial⟩
  · exact ⟨by simp [kernel, State.reset], .inl ⟨rfl, rfl, rfl, rfl⟩⟩

/-- As ramp4, but element 2 of IBUF was never written. -/
def gap4 : State := { ramp4 with ibuf := Memory.forget ramp4.ibuf 2 }

theorem ramp4_inv : ramp4.Inv := kernel_inv .r2 (l := 2) (by decide) rfl rfl rfl
theorem gap4_inv : gap4.Inv := kernel_inv .r2 (l := 2) (by decide) rfl rfl rfl
theorem pair2_inv : pair2.Inv := kernel_inv .r4 (l := 1) (by decide) rfl rfl rfl
theorem one1_inv : one1.Inv := kernel_inv .r2 (l := 0) (by decide) rfl rfl rfl

theorem witness_ResetEventRestoresResetState : { one1 with inputs := [.reset] }.inputs = .reset :: [] := rfl

theorem witness_HostMovesTouchOnlyDataRegisters :
    { one1 with inputs := [.writeData 1#64 2#64] }.inputs = .writeData 1#64 2#64 :: [] ∧
    { one1 with inputs := [.readData], dre := .value 1#64 }.inputs = .readData :: [] ∧
    { one1 with inputs := [.readData], dre := .value 1#64 }.dre = .value 1#64 := ⟨rfl, rfl, rfl⟩

/-- A legal word and an illegal one. -/
theorem witness_StepRunsTheDecodedCommand :
    (given 0x40000004#32 ramp4).inputs = .command 0x40000004#32 :: [] ∧
      decode 0x40000004#32 = .legal (.run .fwd 4#24) ∧
    (given 0x12000004#32 ramp4).inputs = .command 0x12000004#32 :: [] ∧
      decode 0x12000004#32 = .illegal .reservedBit := by decide

theorem witness_EveryWordGetsAResponse : (given 0x80000000#32 ramp4).inputs = .command 0x80000000#32 :: [] := rfl

theorem witness_DecodeOfEncodeIsTheCommand :
    Instr.wellFormed (.rdcsr 6#4) = true ∧ Instr.wellFormed (.run .inv 16777215#24) = true := by decide

theorem witness_LegalWordIsTheEncodingOfItsCommand :
    decode 0x20FFFFFF#32 = .legal (.setin 16777215#24) ∧ decode 0x70000006#32 = .legal (.rdcsr 6#4) := by decide

/-- A word of each row at the end of its fields, RDCSR with 6 and with 7, and a word of no row. -/
theorem witness_MaskMatchTableDecidesTheCommand :
    0x11FFFFFF#32 &&& 0xFE000000#32 = 0x10000000#32 ∧ 0x20FFFFFF#32 &&& 0xFF000000#32 = 0x20000000#32 ∧
    0x30FFFFFF#32 &&& 0xFF000000#32 = 0x30000000#32 ∧ 0x41FFFFFF#32 &&& 0xFE000000#32 = 0x40000000#32 ∧
    0x50FFFFFF#32 &&& 0xFF000000#32 = 0x50000000#32 ∧ 0x60000000#32 &&& 0xFFFFFFFF#32 = 0x60000000#32 ∧
    0x70000006#32 &&& 0xFFFFFFF0#32 = 0x70000000#32 ∧ (BitVec.extractLsb' 0 4 0x70000006#32).toNat ≤ 6 ∧
    0x70000007#32 &&& 0xFFFFFFF0#32 = 0x70000000#32 ∧ ¬ (BitVec.extractLsb' 0 4 0x70000007#32).toNat ≤ 6 ∧
    (∀ r ∈ decodeTable, r.accepts 0x12000004#32 = false) ∧
    (⟨0xFE000000#32, 0x40000000#32⟩ : TableRow) ∈ decodeTable ∧
      (⟨0xFE000000#32, 0x40000000#32⟩ : TableRow).accepts 0x41FFFFFF#32 = true := by decide

/-- For each command, a word of its opcode with a reserved bit set (V6). -/
theorem witness_reserved_bits :
    (opcodeOf 0x12000004#32 = 1#4 ∧ 0x12000004#32 &&& 0x0E000000#32 ≠ 0#32) ∧
    (opcodeOf 0x22000009#32 = 2#4 ∧ 0x22000009#32 &&& 0x0F000000#32 ≠ 0#32) ∧
    (opcodeOf 0x31000000#32 = 3#4 ∧ 0x31000000#32 &&& 0x0F000000#32 ≠ 0#32) ∧
    (opcodeOf 0x42000004#32 = 4#4 ∧ 0x42000004#32 &&& 0x0E000000#32 ≠ 0#32) ∧
    (opcodeOf 0x58000000#32 = 5#4 ∧ 0x58000000#32 &&& 0x0F000000#32 ≠ 0#32) ∧
    (opcodeOf 0x60000001#32 = 6#4 ∧ 0x60000001#32 &&& 0x0FFFFFFF#32 ≠ 0#32) ∧
    opcodeOf 0x70000010#32 = 7#4 ∧ 0x70000010#32 &&& 0x0FFFFFF0#32 ≠ 0#32 := by decide

/-- Valid sizes: 1, 2, 4 and NMAX; invalid: 0, 3, 2 * NMAX. -/
theorem witness_PrepareBuildsOrRefuses :
    (∀ e ∈ [0, 1, 2, 16], State.validSize State.reset (BitVec.ofNat 24 (2 ^ e))) ∧
    ¬ State.validSize State.reset 0#24 ∧ ¬ State.validSize State.reset 3#24 ∧
      ¬ State.validSize State.reset 131072#24 := by
  simp only [← invalidSize_eq_false_iff]; decide +kernel

theorem witness_PrepareFillsTheTwiddleRom :
    State.validSize State.reset 4#24 ∧ 4 ≤ (4#24 : BitVec 24).toNat ∧
      State.validSize State.reset 65536#24 ∧ 4 ≤ (65536#24 : BitVec 24).toNat := by
  simp only [← invalidSize_eq_false_iff]; decide +kernel

theorem witness_PrepareReplacesLikeDisposeThenPrepare : ramp4.prepared = true ∧ ramp4.validSize 1#24 := by
  simp only [← invalidSize_eq_false_iff]; decide +kernel

/-- The first and the last index in range, the first and the last out of range, and an unprepared engine. -/
theorem witness_SetinWritesOneInputElement :
    State.reset.prepared = false ∧ ramp4.prepared = true ∧ ramp4.n.toNat ≤ (4#24 : BitVec 24).toNat ∧
      ramp4.n.toNat ≤ (16777215#24 : BitVec 24).toNat ∧ (0#24 : BitVec 24).toNat < ramp4.n.toNat ∧
      (3#24 : BitVec 24).toNat < ramp4.n.toNat ∧
      { ramp4 with dre := .value 1#64, dim := .value 2#64 }.dre = .value 1#64 ∧
      { ramp4 with dre := .value 1#64, dim := .value 2#64 }.dim = .value 2#64 := by decide +kernel

theorem witness_GetinReadsOneInputElement :
    State.reset.prepared = false ∧ ramp4.prepared = true ∧ ramp4.n.toNat ≤ (4#24 : BitVec 24).toNat ∧
      (3#24 : BitVec 24).toNat < ramp4.n.toNat ∧
      Memory.read ramp4.ibuf 3 = some ⟨0x4010000000000000#64, 0#64⟩ := by decide +kernel

theorem witness_GetoutReadsOneOutputElement :
    State.reset.prepared = false ∧ ramp4.prepared = true ∧ ramp4.n.toNat ≤ (4#24 : BitVec 24).toNat ∧
      (3#24 : BitVec 24).toNat < ramp4.n.toNat ∧
      Memory.read { ramp4 with obuf := [(3, ⟨1#64, 2#64⟩)] }.obuf 3 = some ⟨1#64, 2#64⟩ := by decide +kernel

/-- Length 0 and 8 at size 4 mismatch, length 4 matches. -/
theorem witness_RunChecksThenWritesOnlyObuf :
    State.reset.prepared = false ∧ ramp4.prepared = true ∧ (0#24 : BitVec 24).toNat ≠ ramp4.n.toNat ∧
      (8#24 : BitVec 24).toNat ≠ ramp4.n.toNat ∧ (4#24 : BitVec 24).toNat = ramp4.n.toNat ∧
      ramp4.n.toNat ≤ 4 := by decide +kernel

theorem witness_RdcsrRespondsWithTheRegister :
    6 < (7#4 : BitVec 4).toNat ∧ 6 < (15#4 : BitVec 4).toNat ∧
      0x70000007#32 = 0x70000000#32 ||| (7#4 : BitVec 4).setWidth 32 := by decide

theorem witness_RunOfSizeOneCopies :
    one1.prepared = true ∧ one1.n = 1#32 ∧
      Memory.read one1.ibuf 0 = some ⟨0x400C000000000000#64, 0xC000000000000000#64⟩ := by decide

theorem witness_RunOfSizeTwoAddsAndSubtracts :
    pair2.prepared = true ∧ pair2.n = 2#32 ∧
      Memory.read pair2.ibuf 0 = some ⟨0x3FF0000000000000#64, 0x4000000000000000#64⟩ ∧
      Memory.read pair2.ibuf 1 = some ⟨0x4008000000000000#64, 0xC010000000000000#64⟩ := by decide

/-- An illegal word, each fault of a legal word, and words without a fault. -/
theorem witness_FaultMatrixIsComplete :
    decode 0x80000000#32 = .illegal .reservedOpcode ∧
    State.reset.faultOf (.setin 9#24) = some (.notPrepared, 0#32, 2#32) ∧
    State.reset.faultOf (.run .fwd 0#24) = some (.notPrepared, 0#32, 4#32) ∧
    State.reset.faultOf (.prepare .r2 12#24) = some (.invalidSize, 65536#32, 12#32) ∧
    ramp4.faultOf (.run .inv 0#24) = some (.lengthMismatch, 4#32, 0#32) ∧
    ramp4.faultOf (.getout 4#24) = some (.indexRange, 4#32, 4#32) ∧
    ramp4.faultOf (.getout 3#24) = none ∧ State.reset.faultOf (.prepare .r4 65536#24) = none ∧
    State.reset.faultOf .dispose = none ∧ State.reset.faultOf (.rdcsr 6#4) = none ∧
    decode 0x20000009#32 = .legal (.setin 9#24) ∧ decode 0x50000003#32 = .legal (.getout 3#24) := by decide +kernel

theorem witness_FaultLeavesNoOtherTrace :
    ∃ t, presentWord 0x50000004#32 ramp4 = .next t ∧ t.output = .response 4#4 4#32 4#32 ∧ (4#4 : BitVec 4) ≠ 0#4 :=
  ⟨_, rfl, by decide +kernel, by decide⟩

theorem witness_ResponseCarriesTheRegisterOrZero :
    (∃ t, presentWord 0x70000006#32 ramp4 = .next t ∧ t.output = .response 0#4 0#32 0#32 ∧
      decode 0x70000006#32 = .legal (.rdcsr 6#4) ∧ csrOfNumber 6#4 = some .fact) ∧
    (∃ t, presentWord 0x60000000#32 ramp4 = .next t ∧ t.output = .response 0#4 0#32 0#32 ∧
      ∀ csr, decode 0x60000000#32 ≠ .legal (.rdcsr csr)) ∧
    ∃ t, presentWord 0x50000004#32 ramp4 = .next t ∧ t.output = .response 4#4 4#32 4#32 ∧ (4#4 : BitVec 4) ≠ 0#4 :=
  ⟨⟨_, rfl, by decide +kernel, by decide, by decide⟩, ⟨_, rfl, by decide +kernel, by decide⟩, _, rfl, by decide +kernel,
    by decide⟩

theorem witness_PreparedFollowsTheStateMachine :
    (∃ t, presentWord 0x10000004#32 State.reset = .next t ∧ decode 0x10000004#32 = .legal (.prepare .r2 4#24) ∧
      State.validSize State.reset 4#24) ∧
    (∃ t, presentWord 0x60000000#32 ramp4 = .next t ∧ decode 0x60000000#32 = .legal .dispose) ∧
    ∃ t, presentWord 0x1000000C#32 ramp4 = .next t ∧ decode 0x1000000C#32 = .legal (.prepare .r2 12#24) ∧
      ¬ ramp4.validSize 12#24 := by
  have hv : State.invalidSize State.reset 4#24 = false := by decide +kernel
  have hi : ramp4.invalidSize 12#24 = true := by decide +kernel
  refine ⟨⟨prepareEffect .r2 4#24 State.reset, ?_, by decide, (invalidSize_eq_false_iff _).1 hv⟩, ⟨_, rfl, by decide⟩,
    ramp4.raise .invalidSize (BitVec.ofNat 32 ramp4.nMax) (zext 12#24), ?_, by decide, ?_⟩
  · rw [presentWord_legal (i := .prepare .r2 4#24) (by decide)]
    simp [exec, execPrepare, hv, prepareEffect]
  · rw [presentWord_legal (i := .prepare .r2 12#24) (by decide)]
    simp [exec, execPrepare, hi]
  · rw [← invalidSize_eq_false_iff, hi]; simp

theorem witness_OkKeepsTheFaultRecord :
    ∃ t, presentWord 0x70000002#32 ramp4 = .next t ∧ t.output = .response 0#4 16#32 0#32 := ⟨_, rfl, by decide +kernel⟩

theorem witness_SameWordRaisesTheSameFaultAgain :
    ∃ t, presentWord 0x20000000#32 State.reset = .next t ∧ t.output = .response 5#4 0#32 2#32 ∧ (5#4 : BitVec 4) ≠ 0#4 :=
  ⟨_, rfl, by decide +kernel, by decide⟩

theorem witness_ChecksReadOnlyStatusNAndCap :
    ramp4.status = gap4.status ∧ ramp4.n = gap4.n ∧ ramp4.cap = gap4.cap ∧ ramp4 ≠ gap4 ∧
    ∃ t t', presentWord 0x50000004#32 ramp4 = .next t ∧ presentWord 0x50000004#32 gap4 = .next t' ∧
      t.output = .response 4#4 4#32 4#32 ∧ t'.output = .response 4#4 4#32 4#32 :=
  ⟨rfl, rfl, rfl, by decide +kernel, _, _, rfl, rfl, by decide +kernel, by decide +kernel⟩

theorem witness_OnlyResetClearsTheFaultRecord :
    (∃ t, step (given 0x20000000#32 State.reset) = .next t ∧ t.fsticky = 0x20#32) ∧
      ¬ (given 0x20000000#32 State.reset).resets :=
  ⟨⟨_, rfl, by decide +kernel⟩, fun ⟨_, h⟩ => by cases h⟩

theorem witness_OnlyPrepareDisposeResetChangeStatus :
    ∃ t, step (given 0x60000000#32 ramp4) = .next t ∧ (t.status ≠ ramp4.status ∨ t.n ≠ ramp4.n) :=
  ⟨_, rfl, by decide +kernel⟩

theorem witness_TablesAreImmutableBetweenPrepares :
    ∃ t, step (given 0x60000000#32 ramp4) = .next t ∧ (t.perm ≠ ramp4.perm ∨ t.tw ≠ ramp4.tw) :=
  ⟨_, rfl, by decide +kernel⟩

/-- SETIN changes IBUF and RUN changes OBUF. -/
theorem witness_BuffersHaveOneWriterEach :
    (∃ t, step (given 0x20000000#32 { pair2 with dre := .value 5#64, dim := .value 5#64 }) = .next t ∧
      t.ibuf ≠ pair2.ibuf) ∧
    (∃ t, step (given 0x40000002#32 pair2) = .next t ∧ t.obuf ≠ pair2.obuf) ∧
    (¬ ∃ rdx size, (given 0x40000002#32 pair2).presents (.prepare rdx size)) ∧
    ¬ (given 0x40000002#32 pair2).presents .dispose ∧ ¬ (given 0x40000002#32 pair2).resets := by
  have hd : decode 0x40000002#32 = .legal (.run .fwd 2#24) := by decide
  refine ⟨⟨_, rfl, by decide +kernel⟩, ⟨_, rfl, by decide +kernel⟩, ?_, ?_, ?_⟩
  · rintro ⟨rdx, size, w, rest, h, h'⟩
    cases h; rw [hd] at h'; cases h'
  · rintro ⟨w, rest, h, h'⟩
    cases h; rw [hd] at h'; cases h'
  · rintro ⟨rest, h⟩; cases h

theorem witness_DataRegistersChangeOnlyByTransfers :
    ∃ t, step (given 0x30000000#32 pair2) = .next t ∧ (t.dre ≠ pair2.dre ∨ t.dim ≠ pair2.dim) :=
  ⟨_, rfl, by decide +kernel⟩

theorem witness_EveryStepKeepsTheInvariant :
    ∃ s t : State, s.Inv ∧ step s = .next t ∧ s.inputs = [.command 0x40000004#32] :=
  ⟨given 0x40000004#32 ramp4, _, ⟨ramp4_inv.cap, ramp4_inv.kernel, ramp4_inv.buffers, ramp4_inv.tables, ramp4_inv.record⟩,
    rfl, rfl⟩

/-- The ends of the ranges: l = 2 and k = 0, k = n/4; l = 3. -/
theorem witness_RomEndsAreExactAndScaleFree : 2 ≤ 2 ∧ 3 ≤ 3 ∧ 0 ≤ 2 ^ 2 / 4 ∧ 1 ≤ 2 ^ 2 / 4 := by decide

/-- The ends of the indices at the smallest and at the largest size, and a finite Scalar to compare with. -/
theorem witness_CosineBoundsEncloseTheCosine :
    0 ≤ 2 ^ 0 ∧ 1 ≤ 2 ^ 0 ∧ 2097152 ≤ 2 ^ 21 ∧ 2 ≤ 2 ∧ 1 ≤ 2 ^ 2 / 4 ∧ 2 ≤ 23 ∧ 2097152 ≤ 2 ^ 23 / 4 ∧
      Binary64.isFinite 0x3FF0000000000000#64 = true := by decide

theorem witness_RomEntriesAreNearestUpToThirtyTwo :
    2 ≤ 5 ∧ 5 ≤ 5 ∧ 8 ≤ 2 ^ 5 / 4 ∧ Binary64.isFinite 0#64 = true := by decide

theorem witness_TwiddleLookupIsPeriodic : 4 ≤ 4 ∧ 4 ≤ 65536 := by decide

/-- Both Scalars of the spec: `neg` of the real numbers undoes itself; for binary64 at the two zeros and a NaN (NegFlips
states it for every operand). -/
theorem witness_TwiddleSymmetries :
    2 ≤ 2 ∧ 2 ≤ 23 ∧ (∀ x, exactReal.neg (exactReal.neg x) = x) ∧
      ∀ x ∈ [0#64, 0x8000000000000000#64, 0x7FF0000000000001#64], binary64.neg (binary64.neg x) = x :=
  ⟨by decide, by decide, fun x => neg_neg x, by simp [binary64, Binary64.neg]⟩

theorem witness_ExactTwiddleIsTheRootOfUnity : 2 ≤ 2 ∧ 2 ≤ 23 := by decide

theorem witness_PermgenTwoIsBitReversal : 0 < 2 ^ 0 ∧ 7 < 2 ^ 3 := by decide

theorem witness_PermgenFourIsMixedDigitReversal : 2 ≤ 2 ∧ 3 < 2 ^ 2 ∧ 2 ≤ 3 ∧ 7 < 2 ^ 3 := by decide

theorem witness_PermutationTablesAreBijections : 2 ≤ 2 ∧ 3 < 2 ^ 2 ∧ 2 ^ 2 ≤ 4 ∧ 0 < 2 ^ 2 := by decide

theorem witness_InvolutionOnlyWhereTheSpecSays :
    2 ≤ 2 ∧ 2 % 2 = 0 ∧ 3 ≤ 3 ∧ 3 % 2 = 1 ∧ Memory.read (permgen2 (2 ^ 2) []) 1 = some 2 ∧ Memory.read (permgen4 (2 ^ 2) []) 1 = some 1 := by
  decide +kernel

theorem witness_NegFlipsTheSignBitOnly : 0 < 64 ∧ 63 < 64 := by decide

/-- A NaN; infinities of the same and of opposite signs; an infinity with zero and with a finite value that is not zero. -/
theorem witness_SpecialValuesPropagate :
    Binary64.isNaN 0x7FF0000000000001#64 = true ∧ Binary64.isInf 0x7FF0000000000000#64 = true ∧
    Binary64.isInf 0xFFF0000000000000#64 = true ∧
    Binary64.sign 0x7FF0000000000000#64 ≠ Binary64.sign 0xFFF0000000000000#64 ∧
    Binary64.isFinite 0x8000000000000000#64 = true ∧ Binary64.units 0x8000000000000000#64 = 0 ∧
    Binary64.isFinite 1#64 = true ∧ Binary64.units 1#64 ≠ 0 := by decide +kernel

/-- An exact sum below the overflow threshold, one at it, and one of zero. -/
theorem witness_AddRoundsOnceToNearestEven :
    Binary64.isFinite 0x7FEFFFFFFFFFFFFF#64 = true ∧ Binary64.isFinite 0x7C90000000000000#64 = true ∧
    |Binary64.units 0x7FEFFFFFFFFFFFFF#64 + Binary64.units 0x7C80000000000000#64| < 2 ^ 2098 - 2 ^ 2044 ∧
    2 ^ 2098 - 2 ^ 2044 = |Binary64.units 0x7FEFFFFFFFFFFFFF#64 + Binary64.units 0x7C90000000000000#64| ∧
    Binary64.units 0x7FEFFFFFFFFFFFFF#64 + Binary64.units 0xFFEFFFFFFFFFFFFF#64 = 0 ∧
    Binary64.units 1#64 ≠ Binary64.units (Binary64.add ⟨0, 0, 0, 0⟩ 1#64 1#64) := by decide +kernel

/-- An exact difference below the overflow threshold, one at it, and one of zero with operands of each sign. -/
theorem witness_SubRoundsOnceToNearestEven :
    Binary64.isFinite 0x7FEFFFFFFFFFFFFF#64 = true ∧ Binary64.isFinite 0xFC90000000000000#64 = true ∧
    |Binary64.units 0x7FEFFFFFFFFFFFFF#64 - Binary64.units 0xFC80000000000000#64| < 2 ^ 2098 - 2 ^ 2044 ∧
    2 ^ 2098 - 2 ^ 2044 = |Binary64.units 0x7FEFFFFFFFFFFFFF#64 - Binary64.units 0xFC90000000000000#64| ∧
    Binary64.units 0#64 - Binary64.units 0#64 = 0 ∧
    Binary64.units 0x8000000000000000#64 - Binary64.units 0#64 = 0 ∧
    Binary64.units 1#64 ≠ Binary64.units (Binary64.sub ⟨0, 0, 0, 0⟩ 1#64 1#64) := by decide +kernel

theorem witness_MulRoundsOnceToNearestEven :
    Binary64.isFinite 0x7FEFFFFFFFFFFFFF#64 = true ∧ Binary64.isFinite 0x4000000000000000#64 = true ∧
    |Binary64.units 0x7FEFFFFFFFFFFFFF#64 * Binary64.units 0x3FF0000000000000#64| < (2 ^ 2098 - 2 ^ 2044) * 2 ^ 1074 ∧
    (2 ^ 2098 - 2 ^ 2044) * 2 ^ 1074 ≤ |Binary64.units 0x7FEFFFFFFFFFFFFF#64 * Binary64.units 0x4000000000000000#64| ∧
    Binary64.units 1#64 ≠ Binary64.units (Binary64.mul ⟨0, 0, 0, 0⟩ 1#64 0x3FE0000000000000#64) := by decide +kernel

/-- The last butterfly of the pass `len = 4` at n = 4. -/
theorem witness_RadixTwoPassEqualsSimultaneousButterflies :
    2 ∣ 2 ∧ 2 ∣ 4 ∧ 0 < 4 ∧ 0 < 4 / 4 ∧ 1 < 4 / 2 ∧
      (Memory.read ramp4.ibuf (0 * 4 + 1)).isSome = true ∧ (Memory.read ramp4.ibuf (0 * 4 + 1 + 4 / 2)).isSome = true ∧
      (twlookup binary64 4 ramp4.tw .fwd ((1 * (4 / 4) : Nat) : Int)).isSome = true := by decide +kernel

/-- The only butterfly of the pass `len = 4` at n = 4. -/
theorem witness_RadixFourPassEqualsSimultaneousButterflies :
    4 ∣ 4 ∧ 0 < 4 ∧ 0 < 4 / 4 ∧
      (∀ t ∈ [0, 1, 2, 3], (Memory.read ramp4.ibuf (0 * 4 + 0 + t * (4 / 4))).isSome = true) ∧
      ∀ t ∈ [1, 2, 3], (twlookup binary64 4 ramp4.tw .inv ((t * 0 * (4 / 4) : Nat) : Int)).isSome = true := by
  decide +kernel

theorem witness_RunIgnoresThePreviousObuf :
    ramp4.Inv ∧ ramp4.prepared = true ∧ (4#24 : BitVec 24).toNat = ramp4.n.toNat ∧
      ∃ t, exec (.run .fwd 4#24) ramp4 = .next t :=
  ⟨ramp4_inv, by decide +kernel, rfl, runEffect .fwd ramp4, by
    have hp : ramp4.prepared = true := by decide +kernel
    have hl : zext 4#24 = ramp4.n := by decide +kernel
    simp [exec, execRun, ifPrepared_of_prepared hp, State.ifLength, hl, runEffect]⟩

/-- Two states with other contents of OBUF and other draws; and a Scalar whose results depend on the operands alone. -/
theorem witness_RunIsDeterministicUpToFreeNaNs :
    (ramp4.prepared = true ∧ (4#24 : BitVec 24).toNat = ramp4.n.toNat ∧
      let other : State := { ramp4 with obuf := [(1, ⟨1#64, 2#64⟩)], draws := 7 }
      ramp4.status = other.status ∧ ramp4.n = other.n ∧ ramp4.perm = other.perm ∧ ramp4.tw = other.tw ∧
        ramp4.ibuf = other.ibuf) ∧
    ∃ A : Arith ℝ, ∀ o o' a b, A.add o a b = A.add o' a b ∧ A.sub o a b = A.sub o' a b ∧ A.mul o a b = A.mul o' a b :=
  ⟨⟨by decide +kernel, rfl, rfl, rfl, rfl, rfl, rfl⟩, exactReal, fun _ _ _ _ => ⟨rfl, rfl, rfl⟩⟩

/-- Sizes 1, 2 and 4. -/
theorem witness_RunFillsTheOutput :
    (one1.Inv ∧ one1.prepared = true ∧ (1#24 : BitVec 24).toNat = one1.n.toNat ∧
      ∀ j, j < one1.n.toNat → Memory.read one1.ibuf j ≠ none) ∧
    (pair2.Inv ∧ pair2.prepared = true ∧ (2#24 : BitVec 24).toNat = pair2.n.toNat ∧
      ∀ j, j < pair2.n.toNat → Memory.read pair2.ibuf j ≠ none) ∧
    ramp4.Inv ∧ ramp4.prepared = true ∧ (4#24 : BitVec 24).toNat = ramp4.n.toNat ∧
      ∀ j, j < ramp4.n.toNat → Memory.read ramp4.ibuf j ≠ none :=
  ⟨⟨one1_inv, by decide +kernel, rfl, by decide +kernel⟩, ⟨pair2_inv, by decide +kernel, rfl, by decide +kernel⟩,
    ramp4_inv, by decide +kernel, rfl, by decide +kernel⟩

theorem witness_UnwrittenInputLeavesNoDefinedOutput :
    gap4.Inv ∧ gap4.prepared = true ∧ (4#24 : BitVec 24).toNat = gap4.n.toNat ∧ 2 < gap4.n.toNat ∧
      Memory.read gap4.ibuf 2 = none :=
  ⟨gap4_inv, by decide +kernel, rfl, by decide +kernel, by decide +kernel⟩

theorem witness_ReferenceKernelIsTheDft : 0 < 2 ^ 0 ∧ 7 < 2 ^ 3 := by decide

/-- The first `n` elements of an input sequence, as a memory. -/
noncomputable def holding (x : Nat → Cplx ℝ) (n : Nat) : Memory (Cplx ℝ) :=
  loop n (fun j m => Memory.write m j (x j)) []

theorem witness_ExactRunComputesTheDft (x : Nat → Cplx ℝ) :
    ∀ j, j < 2 ^ 3 → Memory.read (holding x (2 ^ 3)) j = some (x j) := by
  intro j hj; rw [holding, read_loop_write, if_pos hj]

theorem witness_ExactRoundTripScalesByN :
    Direction.fwd ≠ Direction.inv ∧ ∀ j, j < 2 ^ 0 → Memory.read (holding (fun _ => ⟨1, 0⟩) (2 ^ 0)) j = some ⟨1, 0⟩ :=
  ⟨by decide, fun j hj => by rw [holding, read_loop_write, if_pos hj]⟩

end Sys2Proof.Machine.Tests
end

section
/-! The state family: every answer of a word and of a step, each as one case, and what follows for the fault record, the
prepared kernel, the buffers, the data registers and the invariant. -/

namespace Sys2Proof.Machine

variable {s t : State} {w : Word}

/-! ## The answers -/

/-- What a command word can make of a state: one case for each change of the state, all faults being one (R191, R231). -/
inductive WordAnswer (w : Word) (s : State) : State → Prop
  | fault {c : FaultCode} (a b : Word) (hc : c ∈ raisable) : WordAnswer w s (s.raise c a b)
  | prepare {rdx : Radix} {size : BitVec 24} (hd : decode w = .legal (.prepare rdx size)) (hv : s.validSize size) :
      WordAnswer w s (prepareEffect rdx size s)
  | dispose (hd : decode w = .legal .dispose) : WordAnswer w s (disposeEffect s)
  | setin {idx : BitVec 24} (hd : decode w = .legal (.setin idx)) (hi : idx.toNat < s.n.toNat) :
      WordAnswer w s (setinEffect idx s)
  | get {idx : BitVec 24} (z : Cplx Scalar) (hd : decode w = .legal (.getin idx) ∨ decode w = .legal (.getout idx)) :
      WordAnswer w s (getEffect z s)
  | run {d : Direction} {len : BitVec 24} (hd : decode w = .legal (.run d len)) : WordAnswer w s (runEffect d s)
  | csr (a : Word) : WordAnswer w s (s.respondOk a 0#32)

/-- A legal word answers as one of the cases. -/
theorem exec_wordAnswer {i : Instr} (hd : decode w = .legal i) (h : exec i s = .next t) : WordAnswer w s t := by
  rcases exec_cases i s with ⟨rdx, size, rfl, -, he⟩ | ⟨rdx, size, rfl, hv, he⟩ | ⟨idx, rfl, -, hi, he⟩ |
    ⟨idx, rfl, -, -, he⟩ | ⟨idx, rfl, -, -, he⟩ | ⟨idx, -, -, -, he⟩ | ⟨d, len, rfl, -, -, he⟩ |
    ⟨d, len, rfl, -, -, he⟩ | ⟨-, -, he⟩ | ⟨rfl, he⟩ | ⟨csr, r, rfl, -, he⟩ | ⟨csr, rfl, -, he⟩ <;>
    rw [he] at h <;> cases h
  · exact .fault _ _ (by simp [raisable])
  · exact .prepare hd ((invalidSize_eq_false_iff size).1 hv)
  · exact .setin hd hi
  · exact .get _ (.inl hd)
  · exact .get _ (.inr hd)
  · exact .fault _ _ (by simp [raisable])
  · exact .run hd
  · exact .fault _ _ (by simp [raisable])
  · exact .fault _ _ (by simp [raisable])
  · exact .dispose hd
  · exact .csr _
  · exact .fault _ _ (by simp [raisable])

/-- Every word answers as one of the cases. -/
theorem presentWord_wordAnswer (h : presentWord w s = .next t) : WordAnswer w s t := by
  cases hd : decode w with
  | legal i => rw [presentWord_legal hd] at h; exact exec_wordAnswer hd h
  | illegal why => rw [presentWord_illegal hd] at h; cases h; exact .fault _ _ (by simp [raisable])

/-- What a step can make of a state (R264). -/
inductive StepAnswer (s : State) : State → Prop
  | wait : StepAnswer s (idle s)
  | reset {rest : List HostInput} (hi : s.inputs = .reset :: rest) :
      StepAnswer s (State.resetEvent { s with inputs := rest })
  | writeData {re im : Scalar} {rest : List HostInput} (hi : s.inputs = .writeData re im :: rest) :
      StepAnswer s (hostWriteData re im { s with inputs := rest })
  | readData (rest : List HostInput) : StepAnswer s (hostReadData { s with inputs := rest })
  | word {w : Word} {rest : List HostInput} {t : State} (hi : s.inputs = .command w :: rest)
      (hw : WordAnswer w { s with inputs := rest } t) : StepAnswer s t

/-- Every step answers as one of the cases. -/
theorem step_stepAnswer (h : step s = .next t) : StepAnswer s t := by
  rcases step_cases h with ⟨-, rfl⟩ | ⟨rest, hi, rfl⟩ | ⟨re, im, rest, hi, rfl⟩ | ⟨rest, -, rfl⟩ |
    ⟨w, rest, why, hi, -, rfl⟩ | ⟨w, rest, i, hi, hd, he⟩
  · exact .wait
  · exact .reset hi
  · exact .writeData hi
  · exact .readData rest
  · exact .word hi (.fault _ _ (by simp [raisable]))
  · exact .word hi (exec_wordAnswer hd he)

/-! ## The fault record -/

/-- The four fault registers are the same. -/
def State.sameRecord (s t : State) : Prop :=
  t.fsticky = s.fsticky ∧ t.fcode = s.fcode ∧ t.fexp = s.fexp ∧ t.fact = s.fact

/-- A word leaves the fault record as it was, or it takes a fault. -/
theorem WordAnswer.sameRecord_or_fault (h : WordAnswer w s t) :
    s.sameRecord t ∨ ∃ c ∈ raisable, ∃ a b, t = s.raise c a b := by
  cases h with
  | fault a b hc => exact .inr ⟨_, hc, a, b, rfl⟩
  | prepare => left; simp [State.sameRecord, prepareEffect]
  | dispose | setin | get | run | csr => exact .inl ⟨rfl, rfl, rfl, rfl⟩

/-- Code 0 is OK and no fault's (R221). -/
theorem FaultCode.number_ne_zero (c : FaultCode) : c.number ≠ 0#4 := by cases c <;> decide

/-- Settles O25: a word that leaves another record has raised a fault, whose code is not 0. -/
theorem okKeepsTheFaultRecord : Obligations.OkKeepsTheFaultRecord := by
  intro w s t info0 info1 h hok
  rcases (presentWord_wordAnswer h).sameRecord_or_fault with hrec | ⟨c, -, a, b, rfl⟩
  · exact hrec
  · rw [State.raise_output, Output.response.injEq] at hok
    exact absurd hok.1 c.number_ne_zero

/-- Settles O28: the host moves and a waiting step leave the record, and a word leaves it or takes a fault. -/
theorem onlyResetClearsTheFaultRecord : Obligations.OnlyResetClearsTheFaultRecord := by
  intro s t h hreset
  cases step_stepAnswer h with
  | reset hi => exact absurd ⟨_, hi⟩ hreset
  | wait | writeData | readData => exact .inl ⟨rfl, rfl, rfl, rfl⟩
  | word hi hw =>
    rcases hw.sameRecord_or_fault with hrec | ⟨c, hc, a, b, rfl⟩
    · exact .inl hrec
    · exact .inr ⟨c, hc, a, b, rfl, rfl, rfl, rfl, rfl⟩

/-! ## The prepared kernel -/

/-- STATUS, N and the tables are the same. -/
def State.sameKernel (s t : State) : Prop := t.status = s.status ∧ t.n = s.n ∧ t.perm = s.perm ∧ t.tw = s.tw

/-- The next input replaces or ends the prepared kernel: a PREPARE of a valid size, a DISPOSE, or reset. -/
def State.changesKernel (s : State) : Prop :=
  (∃ rdx size, s.presents (.prepare rdx size) ∧ s.validSize size) ∨ s.presents .dispose ∨ s.resets

/-- A step keeps the kernel, or its input is one that replaces or ends it (R27, R28, R38). -/
theorem step_sameKernel_or_changesKernel (h : step s = .next t) : s.sameKernel t ∨ s.changesKernel := by
  cases step_stepAnswer h with
  | reset hi => exact .inr (.inr (.inr ⟨_, hi⟩))
  | wait | writeData | readData => exact .inl ⟨rfl, rfl, rfl, rfl⟩
  | word hi hw =>
    cases hw with
    | prepare hd hv => exact .inr (.inl ⟨_, _, ⟨_, _, hi, hd⟩, hv⟩)
    | dispose hd => exact .inr (.inr (.inl ⟨_, _, hi, hd⟩))
    | fault | setin | get | run | csr => exact .inl ⟨rfl, rfl, rfl, rfl⟩

/-- No step writes CAP (R29). -/
theorem step_keeps_cap (h : step s = .next t) : t.cap = s.cap := by
  cases step_stepAnswer h with
  | wait | reset | writeData | readData => rfl
  | word hi hw =>
    cases hw with
    | prepare => simp [prepareEffect]
    | fault | dispose | setin | get | run | csr => rfl

/-- Settles O29: a step that changes STATUS or N does not keep the kernel, so its input is one that changes it. -/
theorem onlyPrepareDisposeResetChangeStatus : Obligations.OnlyPrepareDisposeResetChangeStatus := by
  intro s t h
  refine ⟨step_keeps_cap h, fun hne => ?_⟩
  rcases step_sameKernel_or_changesKernel h with ⟨hstatus, hn, -, -⟩ | hchange
  · exact (hne.elim (· hstatus) (· hn)).elim
  · exact hchange

/-- Settles O30: a step that changes PERM or TW does not keep the kernel, so its input is one that changes it. -/
theorem tablesAreImmutableBetweenPrepares : Obligations.TablesAreImmutableBetweenPrepares := by
  intro s t h hne
  rcases step_sameKernel_or_changesKernel h with ⟨-, -, hperm, htw⟩ | hchange
  · exact (hne.elim (· hperm) (· htw)).elim
  · exact hchange

/-! ## The buffers and the data registers -/

/-- Settles O31: beside the inputs set apart, only the effect of SETIN writes IBUF and only that of RUN writes OBUF. -/
theorem buffersHaveOneWriterEach : Obligations.BuffersHaveOneWriterEach := by
  intro s t h hprepare hdispose hreset
  cases step_stepAnswer h with
  | reset hi => exact absurd ⟨_, hi⟩ hreset
  | wait | writeData | readData => exact ⟨absurd rfl, absurd rfl⟩
  | word hi hw =>
    cases hw with
    | prepare hd => exact absurd ⟨_, _, _, _, hi, hd⟩ hprepare
    | dispose hd => exact absurd ⟨_, _, hi, hd⟩ hdispose
    | setin hd => exact ⟨fun _ => ⟨_, _, _, hi, hd⟩, absurd rfl⟩
    | run hd => exact ⟨absurd rfl, fun _ => ⟨_, _, _, _, hi, hd⟩⟩
    | fault | get | csr => exact ⟨absurd rfl, absurd rfl⟩

/-- Settles O32: among the words only the effect of GETIN and GETOUT writes DRE and DIM, and it responds OK. -/
theorem dataRegistersChangeOnlyByTransfers : Obligations.DataRegistersChangeOnlyByTransfers := by
  intro s t h hne
  cases step_stepAnswer h with
  | reset hi => exact .inr (.inl ⟨_, hi⟩)
  | writeData hi => exact .inl ⟨_, _, _, hi⟩
  | wait | readData => exact (hne.elim (· rfl) (· rfl)).elim
  | word hi hw =>
    cases hw with
    | get z hd =>
      exact .inr (.inr ⟨⟨_, hd.imp (fun hd => ⟨_, _, hi, hd⟩) (fun hd => ⟨_, _, hi, hd⟩)⟩, rfl⟩)
    | prepare => simp [prepareEffect] at hne
    | fault | dispose | setin | run | csr => exact (hne.elim (· rfl) (· rfl)).elim

/-! ## The invariant -/

/-- The sticky bit of a raisable fault is one of the bits 1, 2, 4, 5 and 6 (R30, R225). -/
theorem stickyBit_and_reserved {c : FaultCode} (hc : c ∈ raisable) : stickyBit c &&& ~~~0x76#32 = 0#32 := by
  revert c; decide

/-- Taking a fault leaves a legal record (R231). -/
theorem faultRecordLegal_raise {c : FaultCode} (a b : Word) (hc : c ∈ raisable) (h : s.FaultRecordLegal) :
    (s.raise c a b).FaultRecordLegal := by
  obtain ⟨hbits, -⟩ := h
  refine ⟨?_, .inr ⟨c, hc, rfl, ?_⟩⟩
  · rw [State.raise_fsticky, BitVec.and_comm, BitVec.and_or_distrib_left, BitVec.and_comm, hbits, BitVec.and_comm,
      stickyBit_and_reserved hc, BitVec.or_self]
  · rw [State.raise_fsticky, or_stickyBit_and]
    exact stickyBit_ne_zero c

/-- The state without a kernel: STATUS and N are 0 and no memory holds a value. -/
structure State.Cleared (s : State) : Prop where
  status : s.status = 0#32
  n : s.n = 0#32
  ibuf : s.ibuf = []
  obuf : s.obuf = []
  perm : s.perm = []
  tw : s.tw = []

/-- A state without a kernel meets the invariant as soon as CAP and the fault record do. -/
theorem State.Cleared.inv (h : s.Cleared) (hcap : s.CapLegal) (hrecord : s.FaultRecordLegal) : s.Inv := by
  obtain ⟨hstatus, hn, hibuf, hobuf, hperm, htw⟩ := h
  have hprepared : s.prepared = false := by rw [State.prepared, hstatus]; decide
  refine ⟨hcap, ⟨fun _ => ⟨hstatus, hn⟩, fun hp => ?_⟩, ?_, ⟨fun h4 => ?_, fun _ => ⟨htw, hperm⟩⟩, hrecord⟩
  · rw [hprepared] at hp; cases hp
  · simp [State.BuffersLegal, hibuf, hobuf, hperm, htw]
  · rw [hn] at h4; exact absurd h4 (by decide)

/-- A record with all four registers 0 is legal: no fault yet. -/
theorem faultRecordLegal_of_zero (hsticky : s.fsticky = 0#32) (hcode : s.fcode = 0#32) (hexp : s.fexp = 0#32)
    (hact : s.fact = 0#32) : s.FaultRecordLegal :=
  ⟨by rw [hsticky]; decide, .inl ⟨hsticky, hcode, hexp, hact⟩⟩

/-- The reset event leaves the invariant, whatever was before, as CAP is legal (R250). -/
theorem resetEvent_inv (hcap : s.CapLegal) : s.resetEvent.Inv :=
  State.Cleared.inv ⟨rfl, rfl, rfl, rfl, rfl, rfl⟩ hcap (faultRecordLegal_of_zero rfl rfl rfl rfl)

/-- After DISPOSE the invariant holds (R197). -/
theorem disposeEffect_inv (h : s.Inv) : (disposeEffect s).Inv :=
  State.Cleared.inv ⟨rfl, rfl, rfl, rfl, rfl, rfl⟩ h.cap h.record

theorem zext_toNat (field : BitVec 24) : (zext field).toNat = field.toNat := (zext_eq_iff.1 rfl).symm

@[simp] theorem prepareEffect_status (rdx : Radix) (size : BitVec 24) :
    (prepareEffect rdx size s).status = statusPrepared rdx (Nat.log2 size.toNat) := by simp [prepareEffect]

@[simp] theorem prepareEffect_n (rdx : Radix) (size : BitVec 24) :
    (prepareEffect rdx size s).n = zext size := by simp [prepareEffect]

@[simp] theorem prepareEffect_cap (rdx : Radix) (size : BitVec 24) :
    (prepareEffect rdx size s).cap = s.cap := by simp [prepareEffect]

@[simp] theorem prepareEffect_perm (rdx : Radix) (size : BitVec 24) :
    (prepareEffect rdx size s).perm = if 4 ≤ size.toNat then permgen rdx size.toNat [] else [] := by
  simp [prepareEffect]

@[simp] theorem prepareEffect_tw (rdx : Radix) (size : BitVec 24) :
    (prepareEffect rdx size s).tw = if 4 ≤ size.toNat then twgen binary64 size.toNat [] else [] := by
  simp [prepareEffect]

/-- PREPARE of a valid size leaves STATUS and N in agreement (R192). LOGN fits its five bits because CAP is at most 23. -/
theorem kernelLegal_prepareEffect (rdx : Radix) {size : BitVec 24} (hcap : s.CapLegal) (hv : s.validSize size) :
    (prepareEffect rdx size s).KernelLegal := by
  obtain ⟨l, hsize, hl⟩ := hv
  have hlogn : statusLogn (statusPrepared rdx l) = l := statusLogn_statusPrepared rdx (by have := hcap.2; omega)
  have hstatus : (prepareEffect rdx size s).status = statusPrepared rdx l := by
    rw [prepareEffect_status, hsize, Nat.log2_two_pow]
  constructor
  · simp [State.prepared]
  · rw [hstatus, statusRdx_statusPrepared, hlogn, prepareEffect_cap, prepareEffect_n, zext_toNat]
    exact fun _ => ⟨rfl, hl, hsize⟩

/-- PREPARE leaves the buffers without a value and canonical tables (R192). -/
theorem buffersLegal_prepareEffect (rdx : Radix) (size : BitVec 24) : (prepareEffect rdx size s).BuffersLegal := by
  have hibuf : (prepareEffect rdx size s).ibuf = [] := by simp [prepareEffect]
  have hobuf : (prepareEffect rdx size s).obuf = [] := by simp [prepareEffect]
  rw [State.BuffersLegal, hibuf, hobuf, prepareEffect_perm, prepareEffect_tw]
  refine ⟨rfl, rfl, rfl, rfl, ?_, ?_⟩ <;> split
  · exact wf_permgen _ _ rfl
  · rfl
  · exact wf_twgen _ _ rfl
  · rfl

/-- PREPARE leaves the tables of its size and strategy, and none below size 4 (R192, R99, R119). -/
theorem tablesLegal_prepareEffect (rdx : Radix) (size : BitVec 24) : (prepareEffect rdx size s).TablesLegal := by
  rw [State.TablesLegal, prepareEffect_n, zext_toNat, prepareEffect_status, statusRdx_statusPrepared, prepareEffect_perm,
    prepareEffect_tw]
  constructor
  · intro h4; rw [if_pos h4, if_pos h4]; exact ⟨rfl, rfl⟩
  · intro h4; rw [if_neg (not_le.2 h4), if_neg (not_le.2 h4)]; exact ⟨rfl, rfl⟩

/-- After a PREPARE of a valid size the invariant holds. -/
theorem prepareEffect_inv (rdx : Radix) {size : BitVec 24} (h : s.Inv) (hv : s.validSize size) :
    (prepareEffect rdx size s).Inv where
  cap := by simpa [State.CapLegal] using h.cap
  kernel := kernelLegal_prepareEffect rdx h.cap hv
  buffers := buffersLegal_prepareEffect rdx size
  tables := tablesLegal_prepareEffect rdx size
  record := by simpa [State.FaultRecordLegal, prepareEffect] using h.record

/-- SETIN writes below N, so IBUF stays canonical and within N (R33, R193). -/
theorem buffersLegal_setinEffect {idx : BitVec 24} (hi : idx.toNat < s.n.toNat) (h : s.BuffersLegal) :
    (setinEffect idx s).BuffersLegal := by
  obtain ⟨hwf, hbelow, hrest⟩ := h
  exact ⟨Memory.wf_write _ _ hwf, Memory.below_write _ hi hbelow, hrest⟩

/-- RUN keeps OBUF canonical and within N (R162, R166). -/
theorem buffersLegal_runEffect (d : Direction) (h : s.BuffersLegal) : (runEffect d s).BuffersLegal := by
  obtain ⟨hiwf, hibelow, howf, hobelow, htables⟩ := h
  have hform := keepsForm_runBody binary64 s.draws s.n.toNat (statusRdx s.status) d s.perm s.tw s.ibuf s.obuf
  exact ⟨hiwf, hibelow, hform.1 howf, hform.2 hobelow, htables⟩

/-- Every answer to a word keeps the invariant. -/
theorem WordAnswer.inv (h : WordAnswer w s t) (hs : s.Inv) : t.Inv := by
  have ⟨hcap, hkernel, hbuffers, htables, hrecord⟩ := hs
  cases h with
  | fault a b hc => exact ⟨hcap, hkernel, hbuffers, htables, faultRecordLegal_raise a b hc hrecord⟩
  | prepare hd hv => exact prepareEffect_inv _ hs hv
  | dispose => exact disposeEffect_inv hs
  | setin hd hi => exact ⟨hcap, hkernel, buffersLegal_setinEffect hi hbuffers, htables, hrecord⟩
  | run => exact ⟨hcap, hkernel, buffersLegal_runEffect _ hbuffers, htables, hrecord⟩
  | get | csr => exact ⟨hcap, hkernel, hbuffers, htables, hrecord⟩

/-- Settles O35, case by case over what a step can do. -/
theorem everyStepKeepsTheInvariant : Obligations.EveryStepKeepsTheInvariant := by
  intro s t hs h
  have ⟨hcap, hkernel, hbuffers, htables, hrecord⟩ := hs
  cases step_stepAnswer h with
  | reset => exact resetEvent_inv hcap
  | word hi hw => exact hw.inv ⟨hcap, hkernel, hbuffers, htables, hrecord⟩
  | wait | writeData | readData => exact ⟨hcap, hkernel, hbuffers, htables, hrecord⟩

/-! ## The state after reset -/

/-- Settles O1: the values are those that State.reset is written with (R43). -/
theorem resetLeavesUnpreparedAndUndefined : Obligations.ResetLeavesUnpreparedAndUndefined :=
  ⟨rfl, rfl, rfl, rfl, rfl, rfl, rfl, rfl, rfl, fun _ => ⟨rfl, rfl, rfl, rfl⟩⟩

/-- Settles O34: reset is the reset event of a state with a legal CAP. -/
theorem resetStateMeetsTheInvariant : Obligations.ResetStateMeetsTheInvariant := by
  have hcap : State.reset.CapLegal := ⟨by decide, by decide⟩
  exact resetEvent_inv (s := State.reset) hcap

end Sys2Proof.Machine
end

section
/-! The memory family: two runs of the datapath on OBUFs that agree below `n` up to a relation on the Scalars, and that RUN is
a function of the prepared kernel, IBUF and the direction up to free NaNs. -/

namespace Sys2Proof.Machine

/-! ## Agreement of two memories -/

section
variable {β σ : Type} {r : β → β → Prop} {n : Nat} {m m' : Memory β}

/-- The elements below `n` of the two memories are related by `r`, or neither holds a defined value. -/
def Memory.Agree (r : β → β → Prop) (n : Nat) (m m' : Memory β) : Prop :=
  ∀ k, k < n → Option.Rel r (Memory.read m k) (Memory.read m' k)

theorem optionRel_refl (hr : ∀ x, r x x) : ∀ x : Option β, Option.Rel r x x
  | none => .none
  | some x => .some (hr x)

/-- A put at `i` of related elements needs agreement in the other slots only. -/
theorem Memory.agree_put {i : Nat} (h : ∀ k, k < n → k ≠ i → Option.Rel r (Memory.read m k) (Memory.read m' k))
    {x x' : Option β} (hx : Option.Rel r x x') : Memory.Agree r n (Memory.put m i x) (Memory.put m' i x') := by
  intro k hk
  rw [Memory.read_put, Memory.read_put]
  split
  next => exact hx
  next hne => exact h k hk hne

theorem Memory.Agree.put (h : Memory.Agree r n m m') (i : Nat) {x x' : Option β} (hx : Option.Rel r x x') :
    Memory.Agree r n (Memory.put m i x) (Memory.put m' i x') := Memory.agree_put (fun k hk _ => h k hk) hx

theorem Memory.agree_zero : Memory.Agree r 0 m m' := fun _ hk => absurd hk (Nat.not_lt_zero _)

/-- The slot just past the agreement joins it when it is overwritten. -/
theorem Memory.Agree.put_next (h : Memory.Agree r n m m') {x x' : Option β} (hx : Option.Rel r x x') :
    Memory.Agree r (n + 1) (Memory.put m n x) (Memory.put m' n x') :=
  Memory.agree_put (fun k hk hne => h k (by omega)) hx

theorem Memory.Agree.write (h : Memory.Agree r n m m') (i : Nat) {v v' : β} (hv : r v v') :
    Memory.Agree r n (Memory.write m i v) (Memory.write m' i v') := h.put i (.some hv)

theorem Memory.Agree.forget (h : Memory.Agree r n m m') (i : Nat) :
    Memory.Agree r n (Memory.forget m i) (Memory.forget m' i) := h.put i .none

/-- Packaged induction over two runs of a loop: what relates the states before it and is kept by each pass relates the states
after it. -/
theorem loop_related {R : σ → σ → Prop} {count : Nat} {f g : Nat → σ → σ} {s t : σ} (h0 : R s t)
    (hstep : ∀ i s t, i < count → R s t → R (f i s) (g i t)) : R (loop count f s) (loop count g t) := by
  induction count with
  | zero => exact h0
  | succ count ih =>
    exact hstep count _ _ (Nat.lt_succ_self count) (ih fun i s t hi => hstep i s t (Nat.lt_succ_of_lt hi))

end

/-! ## Two runs of the datapath -/

section
variable {α : Type} {A : Arith α} {ρ : α → α → Prop} {draw draw' : Nat}

/-- Both parts of two complex values are related by `ρ`. -/
def partsRelated (ρ : α → α → Prop) (z z' : Cplx α) : Prop := ρ z.re z'.re ∧ ρ z.im z'.im

/-- In the commands numbered `draw` and `draw'`, every Scalar operation makes related results of related operands. -/
structure Arith.Respects (A : Arith α) (ρ : α → α → Prop) (draw draw' : Nat) : Prop where
  refl (x : α) : ρ x x
  neg {a a' : α} : ρ a a' → ρ (A.neg a) (A.neg a')
  add {len slot op : Nat} {a a' b b' : α} : ρ a a' → ρ b b' →
    ρ (A.add ⟨draw, len, slot, op⟩ a b) (A.add ⟨draw', len, slot, op⟩ a' b')
  sub {len slot op : Nat} {a a' b b' : α} : ρ a a' → ρ b b' →
    ρ (A.sub ⟨draw, len, slot, op⟩ a b) (A.sub ⟨draw', len, slot, op⟩ a' b')
  mul {len slot op : Nat} {a a' b b' : α} : ρ a a' → ρ b b' →
    ρ (A.mul ⟨draw, len, slot, op⟩ a b) (A.mul ⟨draw', len, slot, op⟩ a' b')

variable (hA : A.Respects ρ draw draw')
include hA

theorem partsRelated_refl (z : Cplx α) : partsRelated ρ z z := ⟨hA.refl _, hA.refl _⟩

section
variable {len slot op : Nat} {w w' a a' b b' c c' e e' : Cplx α}

theorem cadd_related (ha : partsRelated ρ a a') (hb : partsRelated ρ b b') :
    partsRelated ρ (cadd A ⟨draw, len, slot, op⟩ a b) (cadd A ⟨draw', len, slot, op⟩ a' b') :=
  ⟨hA.add ha.1 hb.1, hA.add ha.2 hb.2⟩

theorem csub_related (ha : partsRelated ρ a a') (hb : partsRelated ρ b b') :
    partsRelated ρ (csub A ⟨draw, len, slot, op⟩ a b) (csub A ⟨draw', len, slot, op⟩ a' b') :=
  ⟨hA.sub ha.1 hb.1, hA.sub ha.2 hb.2⟩

/-- The twiddle `w` is the same in both runs. -/
theorem cmul_related (hb : partsRelated ρ b b') :
    partsRelated ρ (cmul A ⟨draw, len, slot, op⟩ w b) (cmul A ⟨draw', len, slot, op⟩ w b') :=
  ⟨hA.sub (hA.mul (hA.refl _) hb.1) (hA.mul (hA.refl _) hb.2), hA.add (hA.mul (hA.refl _) hb.2) (hA.mul (hA.refl _) hb.1)⟩

theorem rot90_related (d : Direction) (ha : partsRelated ρ a a') : partsRelated ρ (rot90 A d a) (rot90 A d a') := by
  cases d
  · exact ⟨hA.neg ha.2, ha.1⟩
  · exact ⟨ha.2, hA.neg ha.1⟩

theorem cmac_related (ha : partsRelated ρ a a') (hb : partsRelated ρ b b') :
    partsRelated ρ (cmac A ⟨draw, len, slot, op⟩ a w b).1 (cmac A ⟨draw', len, slot, op⟩ a' w b').1 ∧
      partsRelated ρ (cmac A ⟨draw, len, slot, op⟩ a w b).2 (cmac A ⟨draw', len, slot, op⟩ a' w b').2 :=
  have ht := cmul_related hA hb
  ⟨cadd_related hA ha ht, csub_related hA ha ht⟩

theorem radix4_related (d : Direction) {w1 w2 w3 : Cplx α} (ha : partsRelated ρ a a') (hb : partsRelated ρ b b')
    (hc : partsRelated ρ c c') (he : partsRelated ρ e e') :
    let x := radix4 A ⟨draw, len, slot, op⟩ d w1 w2 w3 a b c e
    let x' := radix4 A ⟨draw', len, slot, op⟩ d w1 w2 w3 a' b' c' e'
    partsRelated ρ x.1 x'.1 ∧ partsRelated ρ x.2.1 x'.2.1 ∧ partsRelated ρ x.2.2.1 x'.2.2.1 ∧
      partsRelated ρ x.2.2.2 x'.2.2.2 :=
  have hb1 := cmul_related hA hb
  have hc1 := cmul_related hA hc
  have hd1 := cmul_related hA he
  have hs0 := cadd_related hA ha hc1
  have hs1 := csub_related hA ha hc1
  have hs2 := cadd_related hA hb1 hd1
  have ht3 := rot90_related hA d (csub_related hA hb1 hd1)
  ⟨cadd_related hA hs0 hs2, cadd_related hA hs1 ht3, csub_related hA hs0 hs2, csub_related hA hs1 ht3⟩

end

variable {n : Nat} {m m' : Memory (Cplx α)} (tw : Memory α) (d : Direction)

/-- The slots of a butterfly lie below `n`, so its operands are related, and so are its results; an operand without a defined
value is one in both runs, which then both forget the slots. -/
theorem bfly2_agree {len slot op p0 p1 : Nat} (r : Nat) (h0 : p0 < n) (h1 : p1 < n)
    (h : Memory.Agree (partsRelated ρ) n m m') :
    Memory.Agree (partsRelated ρ) n (bfly2 A ⟨draw, len, slot, op⟩ n tw d p0 p1 r m)
      (bfly2 A ⟨draw', len, slot, op⟩ n tw d p0 p1 r m') := by
  have hforget := (h.forget p0).forget p1
  have ha := h p0 h0
  have hb := h p1 h1
  unfold bfly2
  generalize Memory.read m p0 = x0, Memory.read m' p0 = x0', Memory.read m p1 = x1, Memory.read m' p1 = x1' at ha hb ⊢
  cases ha with
  | none => exact hforget
  | some ha =>
  cases hb with
  | none => exact hforget
  | some hb =>
  cases twlookup A n tw d r with
  | none => exact hforget
  | some w =>
    obtain ⟨hu, hv⟩ := cmac_related hA ha hb
    exact (h.write p0 hu).write p1 hv

theorem bfly4_agree {len slot op p0 p1 p2 p3 : Nat} (r1 r2 r3 : Nat) (h0 : p0 < n) (h1 : p1 < n) (h2 : p2 < n)
    (h3 : p3 < n) (h : Memory.Agree (partsRelated ρ) n m m') :
    Memory.Agree (partsRelated ρ) n (bfly4 A ⟨draw, len, slot, op⟩ n tw d p0 p1 p2 p3 r1 r2 r3 m)
      (bfly4 A ⟨draw', len, slot, op⟩ n tw d p0 p1 p2 p3 r1 r2 r3 m') := by
  have hforget := (((h.forget p0).forget p1).forget p2).forget p3
  have ha := h p0 h0
  have hb := h p1 h1
  have hc := h p2 h2
  have he := h p3 h3
  unfold bfly4
  generalize Memory.read m p0 = x0, Memory.read m' p0 = x0', Memory.read m p1 = x1, Memory.read m' p1 = x1',
    Memory.read m p2 = x2, Memory.read m' p2 = x2', Memory.read m p3 = x3, Memory.read m' p3 = x3' at ha hb hc he ⊢
  cases ha with
  | none => exact hforget
  | some ha =>
  cases hb with
  | none => exact hforget
  | some hb =>
  cases hc with
  | none => exact hforget
  | some hc =>
  cases he with
  | none => exact hforget
  | some he =>
  cases twlookup A n tw d r1 with
  | none => exact hforget
  | some w1 =>
  cases twlookup A n tw d r2 with
  | none => exact hforget
  | some w2 =>
  cases twlookup A n tw d r3 with
  | none => exact hforget
  | some w3 =>
    obtain ⟨hy0, hy1, hy2, hy3⟩ := radix4_related hA d ha hb hc he
    exact (((h.write p0 hy0).write p1 hy1).write p2 hy2).write p3 hy3

theorem pass2_agree (len : Nat) (h : Memory.Agree (partsRelated ρ) n m m') :
    Memory.Agree (partsRelated ρ) n (pass2 A draw n tw d len m) (pass2 A draw' n tw d len m') :=
  loop_related h fun b _ _ hb ht => loop_related ht fun k _ _ hk ht => by
    have h0 := slot_lt hb (x := k) (by omega)
    have h1 := slot_lt hb (x := k + len / 2) (by omega)
    exact bfly2_agree hA tw d _ h0 (by omega) ht

theorem pass4_agree (len : Nat) (h : Memory.Agree (partsRelated ρ) n m m') :
    Memory.Agree (partsRelated ρ) n (pass4 A draw n tw d len m) (pass4 A draw' n tw d len m') :=
  loop_related h fun b _ _ hb ht => loop_related ht fun k _ _ hk ht => by
    have h0 := slot_lt hb (x := k) (by omega)
    have h1 := slot_lt hb (x := k + len / 4) (by omega)
    have h2 := slot_lt hb (x := k + 2 * (len / 4)) (by omega)
    have h3 := slot_lt hb (x := k + 3 * (len / 4)) (by omega)
    exact bfly4_agree hA tw d _ _ _ h0 (by omega) (by omega) (by omega) ht

theorem sched_agree (rdx : Radix) (h : Memory.Agree (partsRelated ρ) n m m') :
    Memory.Agree (partsRelated ρ) n (sched A draw n rdx tw d m) (sched A draw' n rdx tw d m') := by
  cases rdx with
  | r2 => exact loop_related h fun _ _ _ _ => pass2_agree hA tw d _
  | r4 =>
    have hfours : Memory.Agree (partsRelated ρ) n
        (loop (Nat.log2 n / 2) (fun p obuf => pass4 A draw n tw d (4 ^ (p + 1)) obuf) m)
        (loop (Nat.log2 n / 2) (fun p obuf => pass4 A draw' n tw d (4 ^ (p + 1)) obuf) m') :=
      loop_related h fun _ _ _ _ => pass4_agree hA tw d _
    simp only [sched, sched4]
    split
    · exact pass2_agree hA tw d n hfours
    · exact hfours

/-- PERMUTE overwrites everything below `n`, whatever OBUF held. -/
theorem permute_agree (perm : Memory Nat) (ibuf : Memory (Cplx α)) :
    Memory.Agree (partsRelated ρ) n (permute n perm ibuf m) (permute n perm ibuf m') := by
  intro k hk
  rw [read_permute, read_permute, if_pos hk, if_pos hk]
  exact optionRel_refl (partsRelated_refl hA) _

theorem small1_agree (ibuf : Memory (Cplx α)) :
    Memory.Agree (partsRelated ρ) 1 (small1 ibuf m) (small1 ibuf m') :=
  Memory.agree_zero.put_next (optionRel_refl (partsRelated_refl hA) _)

theorem small2_agree (ibuf : Memory (Cplx α)) :
    Memory.Agree (partsRelated ρ) 2 (small2 A draw ibuf m) (small2 A draw' ibuf m') := by
  have hforget : Memory.Agree (partsRelated ρ) 2 (Memory.forget (Memory.forget m 0) 1)
      (Memory.forget (Memory.forget m' 0) 1) := (Memory.agree_zero.put_next .none).put_next .none
  unfold small2
  cases Memory.read ibuf 0 with
  | none => exact hforget
  | some a =>
  cases Memory.read ibuf 1 with
  | none => exact hforget
  | some b =>
    have ha := partsRelated_refl hA a
    have hb := partsRelated_refl hA b
    exact (Memory.agree_zero.put_next (.some (cadd_related hA ha hb))).put_next (.some (csub_related hA ha hb))

/-- RUNBODY of one kernel and one IBUF, on two OBUFs and in two commands: the results are related below `n`. -/
theorem runBody_agree (rdx : Radix) (perm : Memory Nat) (ibuf : Memory (Cplx α)) :
    Memory.Agree (partsRelated ρ) n (runBody A draw n rdx d perm tw ibuf m)
      (runBody A draw' n rdx d perm tw ibuf m') := by
  unfold runBody
  split_ifs with h1 h2
  · subst h1; exact small1_agree hA ibuf
  · subst h2; exact small2_agree hA ibuf
  · exact sched_agree hA tw d rdx (permute_agree hA perm ibuf)

end

/-! ## RUN -/

theorem binary64_respects_sameUpToNaN (draw draw' : Nat) : binary64.Respects Binary64.sameUpToNaN draw draw' where
  refl := Binary64.sameUpToNaN_refl
  neg := Binary64.neg_sameUpToNaN
  add := Binary64.add_sameUpToNaN _ _
  sub := Binary64.sub_sameUpToNaN _ _
  mul := Binary64.mul_sameUpToNaN _ _

theorem sameElementUpToNaN_of_rel {x x' : Option (Cplx Scalar)} (h : Option.Rel (partsRelated Binary64.sameUpToNaN) x x') :
    sameElementUpToNaN x x' := by
  cases h with
  | none => trivial
  | some h => exact h

/-- A RUN of the prepared length has its effect (R195). -/
theorem exec_run_of_length {s : State} {len : BitVec 24} (d : Direction) (hp : s.prepared = true)
    (hlen : len.toNat = s.n.toNat) : exec (.run d len) s = .next (runEffect d s) := by
  have hzext : zext len = s.n := zext_eq_iff.2 hlen
  simp [exec, execRun, ifPrepared_of_prepared hp, State.ifLength, hzext, runEffect]

theorem runEffect_obuf (s : State) (d : Direction) : (runEffect d s).obuf =
    runBody binary64 s.draws s.n.toNat (statusRdx s.status) d s.perm s.tw s.ibuf s.obuf := rfl

/-- When no operation depends on its occurrence, RUNBODY does not depend on the number of the command: the number is in the
names of the occurrences and nowhere else. -/
theorem runBody_draw_irrelevant {α : Type} {A : Arith α}
    (hA : ∀ o o' a b, A.add o a b = A.add o' a b ∧ A.sub o a b = A.sub o' a b ∧ A.mul o a b = A.mul o' a b)
    (draw draw' n : Nat) (rdx : Radix) (d : Direction) (perm : Memory Nat) (tw : Memory α) (ibuf obuf : Memory (Cplx α)) :
    runBody A draw n rdx d perm tw ibuf obuf = runBody A draw' n rdx d perm tw ibuf obuf := by
  obtain ⟨zero, one, add, sub, mul, neg, cosq⟩ := A
  obtain ⟨plus, rfl⟩ : ∃ plus, add = fun _ => plus :=
    ⟨add ⟨0, 0, 0, 0⟩, funext fun o => funext₂ fun a b => (hA o _ a b).1⟩
  obtain ⟨minus, rfl⟩ : ∃ minus, sub = fun _ => minus :=
    ⟨sub ⟨0, 0, 0, 0⟩, funext fun o => funext₂ fun a b => (hA o _ a b).2.1⟩
  obtain ⟨times, rfl⟩ : ∃ times, mul = fun _ => times :=
    ⟨mul ⟨0, 0, 0, 0⟩, funext fun o => funext₂ fun a b => (hA o _ a b).2.2⟩
  rfl

/-- Settles O53: binary64 respects equality up to NaNs, so two runs agree up to NaNs below N (R166); and a Scalar without free
NaNs leaves the number of the command without a reader. -/
theorem runIsDeterministicUpToFreeNaNs : Obligations.RunIsDeterministicUpToFreeNaNs := by
  constructor
  · intro d len s s' hp hlen hstatus hn hperm htw hibuf
    have hp' : s'.prepared = true := by rwa [State.prepared, ← hstatus]
    have hrespects := binary64_respects_sameUpToNaN s.draws s'.draws
    refine ⟨_, _, exec_run_of_length d hp hlen, exec_run_of_length d hp' (hn ▸ hlen), fun k hk => ?_⟩
    rw [runEffect_obuf, runEffect_obuf, ← hstatus, ← hn, ← hperm, ← htw, ← hibuf]
    exact sameElementUpToNaN_of_rel (runBody_agree hrespects s.tw d _ s.perm s.ibuf k hk)
  · intro α A draw draw' n rdx d perm tw ibuf obuf hA
    exact runBody_draw_irrelevant hA draw draw' n rdx d perm tw ibuf obuf

end Sys2Proof.Machine
end

section
/-! The encoding family: what a row of the mask and match table R81 says about the opcode and the reserved bits of a word, what
the decoder then answers, and that a legal word is put together from its opcode, zeros and its fields. -/

namespace Sys2Proof

variable {w reserved : Word}

/-! ## A row of R81 -/

theorem opcodeOf_and (w m : Word) : opcodeOf (w &&& m) = opcodeOf w &&& opcodeOf m := BitVec.extractLsb'_and

/-- A row whose mask covers the opcode fixes it. -/
theorem opcodeOf_eq_of_match {mask pattern : Word} (hmask : opcodeOf mask = 0xF#4) (h : w &&& mask = pattern) :
    opcodeOf w = opcodeOf pattern := by
  rw [← h, opcodeOf_and, hmask]
  exact BitVec.and_allOnes.symm

/-- A row whose mask covers the opcode and the reserved bits fixes the first and makes the second 0. -/
theorem opcode_and_reserved_of_match {mask pattern : Word} (hmask : opcodeOf mask = 0xF#4)
    (hcover : mask &&& reserved = reserved) (hpattern : pattern &&& reserved = 0#32) (h : w &&& mask = pattern) :
    opcodeOf w = opcodeOf pattern ∧ w &&& reserved = 0#32 := by
  refine ⟨opcodeOf_eq_of_match hmask h, ?_⟩
  rw [← hcover, ← BitVec.and_assoc, h, hpattern]

/-- No two rows of R81 have one opcode (R71), so no word matches two rows. -/
theorem eq_of_accepts {r q : TableRow} (hr : r ∈ decodeTable) (hq : q ∈ decodeTable) (har : r.accepts w = true)
    (haq : q.accepts w = true) : r = q := by
  have hmask : ∀ r ∈ decodeTable, opcodeOf r.mask = 0xF#4 := by decide
  have hinj : ∀ r ∈ decodeTable, ∀ q ∈ decodeTable, opcodeOf r.pattern = opcodeOf q.pattern → r = q := by decide
  have hor := opcodeOf_eq_of_match (hmask r hr) (of_decide_eq_true har)
  have hoq := opcodeOf_eq_of_match (hmask q hq) (of_decide_eq_true haq)
  exact hinj r hr q hq (hor.symm.trans hoq)

/-- Every instruction's word is accepted by the instruction's row, which the table has. -/
theorem rowOf_accepts_encode : ∀ i : Instr, Laws.TableRow.Statement i
  | .prepare rdx size => Laws.TableRow.prepare rdx size
  | .setin idx => Laws.TableRow.setin idx
  | .getin idx => Laws.TableRow.getin idx
  | .run dir len => Laws.TableRow.run dir len
  | .getout idx => Laws.TableRow.getout idx
  | .dispose => Laws.TableRow.dispose
  | .rdcsr csr => Laws.TableRow.rdcsr csr

theorem encode_and_mask (i : Instr) :
    encode i &&& (Laws.TableRow.rowOf i).mask = (Laws.TableRow.rowOf i).pattern := by
  obtain ⟨-, haccepts⟩ := rowOf_accepts_encode i
  exact of_decide_eq_true haccepts

/-! ## What the decoder answers to a word that a row accepts -/

theorem decode_of_prepare_row (h : w &&& 0xFE000000#32 = 0x10000000#32) :
    decode w = .legal (.prepare (radixOf w) (field24 w)) := by
  obtain ⟨ho, hr⟩ : opcodeOf w = 1#4 ∧ w &&& 0x0E000000#32 = 0#32 := opcode_and_reserved_of_match rfl rfl rfl h
  simp [decode, ho, hr, unlessReserved]

theorem decode_of_setin_row (h : w &&& 0xFF000000#32 = 0x20000000#32) : decode w = .legal (.setin (field24 w)) := by
  obtain ⟨ho, hr⟩ : opcodeOf w = 2#4 ∧ w &&& 0x0F000000#32 = 0#32 := opcode_and_reserved_of_match rfl rfl rfl h
  simp [decode, ho, hr, unlessReserved]

theorem decode_of_getin_row (h : w &&& 0xFF000000#32 = 0x30000000#32) : decode w = .legal (.getin (field24 w)) := by
  obtain ⟨ho, hr⟩ : opcodeOf w = 3#4 ∧ w &&& 0x0F000000#32 = 0#32 := opcode_and_reserved_of_match rfl rfl rfl h
  simp [decode, ho, hr, unlessReserved]

theorem decode_of_run_row (h : w &&& 0xFE000000#32 = 0x40000000#32) :
    decode w = .legal (.run (directionOf w) (field24 w)) := by
  obtain ⟨ho, hr⟩ : opcodeOf w = 4#4 ∧ w &&& 0x0E000000#32 = 0#32 := opcode_and_reserved_of_match rfl rfl rfl h
  simp [decode, ho, hr, unlessReserved]

theorem decode_of_getout_row (h : w &&& 0xFF000000#32 = 0x50000000#32) : decode w = .legal (.getout (field24 w)) := by
  obtain ⟨ho, hr⟩ : opcodeOf w = 5#4 ∧ w &&& 0x0F000000#32 = 0#32 := opcode_and_reserved_of_match rfl rfl rfl h
  simp [decode, ho, hr, unlessReserved]

theorem decode_of_dispose_row (h : w &&& 0xFFFFFFFF#32 = 0x60000000#32) : decode w = .legal .dispose := by
  obtain ⟨ho, hr⟩ : opcodeOf w = 6#4 ∧ w &&& 0x0FFFFFFF#32 = 0#32 := opcode_and_reserved_of_match rfl rfl rfl h
  simp [decode, ho, hr, unlessReserved]

/-- The row of RDCSR needs the further test of the register number (R81). -/
theorem decode_of_rdcsr_row (h : w &&& 0xFFFFFFF0#32 = 0x70000000#32) :
    decode w = if csrLegal (csrField w) then .legal (.rdcsr (csrField w)) else .illegal .reservedCsr := by
  obtain ⟨ho, hr⟩ : opcodeOf w = 7#4 ∧ w &&& 0x0FFFFFF0#32 = 0#32 := opcode_and_reserved_of_match rfl rfl rfl h
  simp [decode, ho, hr, unlessReserved]

/-! ## A legal word is its opcode, zeros and its fields -/

/-- A word whose `k` reserved bits are 0 is the opcode, `k` zeros and the `m` bits of its fields. -/
theorem opcode_zeros_fields_eq {k m : Nat} {w reserved : BitVec (4 + k + m)} {o : BitVec 4}
    (ho : w.extractLsb' (k + m) 4 = o) (hreserved : reserved.extractLsb' m k = BitVec.allOnes k)
    (h : w &&& reserved = 0#_) : o ++ 0#k ++ w.extractLsb' 0 m = w := by
  have hzeros : w.extractLsb' m k = 0#k := by
    have hbits := congrArg (BitVec.extractLsb' m k) h
    rwa [BitVec.extractLsb'_and, hreserved, BitVec.and_allOnes, BitVec.extractLsb'_zero] at hbits
  rw [← ho, ← hzeros, BitVec.extractLsb'_append_extractLsb'_eq_extractLsb' (Nat.add_comm k m),
    BitVec.extractLsb'_append_extractLsb']

/-- The format of SETIN, GETIN and GETOUT (R73, R75). -/
theorem opcode_field24_eq {o : BitVec 4} (ho : opcodeOf w = o) (h : w &&& 0x0F000000#32 = 0#32) :
    (o ++ 0#4 ++ field24 w : Word) = w :=
  opcode_zeros_fields_eq (k := 4) (m := 24) ho (by decide) h

/-- The format of PREPARE and RUN (R72, R74). -/
theorem opcode_bit_field24_eq {o : BitVec 4} (ho : opcodeOf w = o) (h : w &&& 0x0E000000#32 = 0#32) :
    (o ++ 0#3 ++ w.extractLsb' 24 1 ++ field24 w : Word) = w := by
  have hfields : w.extractLsb' 24 1 ++ field24 w = w.extractLsb' 0 25 :=
    BitVec.extractLsb'_append_extractLsb'_eq_extractLsb' rfl
  have hword : (o ++ 0#3 ++ w.extractLsb' 0 25 : Word) = w :=
    opcode_zeros_fields_eq (k := 3) (m := 25) ho (by decide) h
  rw [← hfields] at hword
  exact (BitVec.append_assoc ..).trans hword

/-- Bit 24 of a PREPARE is the strategy's bit (R72). -/
theorem radixBit_radixOf (w : Word) : radixBit (radixOf w) = w.extractLsb' 24 1 := by
  rw [radixOf, BitVec.getLsbD_eq_extractLsb']
  generalize w.extractLsb' 24 1 = b
  revert b; decide

/-- Bit 24 of a RUN is the direction's bit (R74). -/
theorem directionBit_directionOf (w : Word) : directionBit (directionOf w) = w.extractLsb' 24 1 := by
  rw [directionOf, BitVec.getLsbD_eq_extractLsb']
  generalize w.extractLsb' 24 1 = b
  revert b; decide

/-- Settles O7: in each arm of the decoder the opcode and the reserved bits are fixed, and all other bits are fields. -/
theorem legalWordIsTheEncodingOfItsCommand : Obligations.LegalWordIsTheEncodingOfItsCommand := by
  intro w i h
  unfold decode at h
  split at h
  case h_1 ho | h_4 ho =>
    obtain ⟨hr, rfl⟩ := unlessReserved_legal.1 h
    refine ⟨?_, rfl⟩
    simp only [encode, radixBit_radixOf, directionBit_directionOf]
    exact opcode_bit_field24_eq (BitVec.eq_of_toNat_eq ho) hr
  case h_2 ho | h_3 ho | h_5 ho =>
    obtain ⟨hr, rfl⟩ := unlessReserved_legal.1 h
    exact ⟨opcode_field24_eq (BitVec.eq_of_toNat_eq ho) hr, rfl⟩
  case h_6 ho =>
    obtain ⟨hr, rfl⟩ := unlessReserved_legal.1 h
    have ho : opcodeOf w = 6#4 := BitVec.eq_of_toNat_eq ho
    have hw := opcode_zeros_fields_eq (k := 28) (m := 0) ho (by decide) hr
    rw [BitVec.append_zero_width] at hw
    exact ⟨hw, rfl⟩
  case h_7 ho =>
    split at h
    next hl =>
      obtain ⟨hr, rfl⟩ := unlessReserved_legal.1 hl
      split at h
      next hcsr =>
        cases h
        exact ⟨opcode_zeros_fields_eq (k := 24) (m := 4) (BitVec.eq_of_toNat_eq ho) (by decide) hr, hcsr⟩
      next => cases h
    next => cases h
  case h_8 => cases h

/-! ## The round trip -/

theorem radixOf_encode (rdx : Radix) (size : BitVec 24) : radixOf (encode (.prepare rdx size)) = rdx := by
  rw [encode, radixOf, bit24_append (0x1#4 ++ 0#3 ++ radixBit rdx) size]
  cases rdx <;> rfl

theorem directionOf_encode (d : Direction) (len : BitVec 24) : directionOf (encode (.run d len)) = d := by
  rw [encode, directionOf, bit24_append (0x4#4 ++ 0#3 ++ directionBit d) len]
  cases d <;> rfl

theorem csrField_encode (csr : BitVec 4) : csrField (encode (.rdcsr csr)) = csr := BitVec.extractLsb'_append_eq_right

/-- Settles O6: the word of a command matches the command's row, so the decoder reads its fields, which are those encoded. -/
theorem decodeOfEncodeIsTheCommand : Obligations.DecodeOfEncodeIsTheCommand := by
  intro i hwf
  cases i with
  | prepare rdx size =>
    have hfield : field24 (encode (.prepare rdx size)) = size := field24_append (0x1#4 ++ 0#3 ++ radixBit rdx) size
    rw [decode_of_prepare_row (encode_and_mask _), radixOf_encode, hfield]
  | setin idx =>
    have hfield : field24 (encode (.setin idx)) = idx := field24_append (0x2#4 ++ 0#4) idx
    rw [decode_of_setin_row (encode_and_mask _), hfield]
  | getin idx =>
    have hfield : field24 (encode (.getin idx)) = idx := field24_append (0x3#4 ++ 0#4) idx
    rw [decode_of_getin_row (encode_and_mask _), hfield]
  | run d len =>
    have hfield : field24 (encode (.run d len)) = len := field24_append (0x4#4 ++ 0#3 ++ directionBit d) len
    rw [decode_of_run_row (encode_and_mask _), directionOf_encode, hfield]
  | getout idx =>
    have hfield : field24 (encode (.getout idx)) = idx := field24_append (0x5#4 ++ 0#4) idx
    rw [decode_of_getout_row (encode_and_mask _), hfield]
  | dispose => exact decode_of_dispose_row (encode_and_mask .dispose)
  | rdcsr csr =>
    rw [decode_of_rdcsr_row (encode_and_mask (.rdcsr csr)), csrField_encode]
    exact if_pos hwf

/-! ## The table -/

/-- A word that matches no row is illegal: a legal one is its command's word, which the command's row accepts. -/
theorem decode_illegal_of_no_row (h : ∀ r ∈ decodeTable, r.accepts w = false) : ∃ why, decode w = .illegal why := by
  cases hd : decode w with
  | illegal why => exact ⟨why, rfl⟩
  | legal i =>
    obtain ⟨rfl, -⟩ := legalWordIsTheEncodingOfItsCommand w i hd
    obtain ⟨hrow, haccepts⟩ := rowOf_accepts_encode i
    exact absurd haccepts (by simp [h _ hrow])

/-- Settles O8: each row by what the decoder answers to it, no row by the round trip, and two rows by their opcodes. -/
theorem maskMatchTableDecidesTheCommand : Obligations.MaskMatchTableDecidesTheCommand := by
  intro w
  refine ⟨decode_of_prepare_row, decode_of_setin_row, decode_of_getin_row, decode_of_run_row, decode_of_getout_row,
    decode_of_dispose_row, fun h => ?_, decode_illegal_of_no_row, fun r hr q hq => eq_of_accepts hr hq⟩
  rw [decode_of_rdcsr_row h]
  split
  next hcsr => exact if_pos (decide_eq_true hcsr)
  next hcsr => exact ⟨.reservedCsr, if_neg fun hlegal => hcsr (of_decide_eq_true hlegal)⟩

/-- Settles O9: the words of V5, evaluated. -/
theorem sampleWordsDecodeAsTheSpecSays : Obligations.SampleWordsDecodeAsTheSpecSays := by
  unfold Obligations.SampleWordsDecodeAsTheSpecSays
  decide

end Sys2Proof
end

section
/-! The twiddle family, TWLOOKUP: an index is a whole number of turns, a quadrant and an offset in it, and TWLOOKUP reads the
last two only. Periodicity (R97), the symmetries R100 and the exact value R98 follow by the quadrant. -/

namespace Sys2Proof.Machine

variable {α : Type} (A : Arith α) {q : Nat}

/-! ## The index -/

/-- The twiddle of the offset `lo` in the quadrant `hi` of the table for `4 * q` points (R94 to R96). -/
def quadrantTwiddle (q : Nat) (d : Direction) (hi lo : Nat) : Cplx α :=
  applyDirection A d (foldQuadrant A hi (A.cosq (4 * q) lo) (A.cosq (4 * q) (q - lo)))

/-- Every index is some turns, a quadrant and an offset (R94). -/
theorem exists_quadrant (hq : 0 < q) (r : ℤ) :
    ∃ (hi lo : Nat) (m : ℤ), hi < 4 ∧ lo < q ∧ r = hi * q + lo + m * (4 * q : Nat) := by
  obtain ⟨rr, hrr⟩ := Int.eq_ofNat_of_zero_le (Int.emod_nonneg r (b := (4 * q : Nat)) (by omega))
  have hlt : rr < 4 * q := by have := Int.emod_lt_of_pos r (b := (4 * q : Nat)) (by omega); omega
  refine ⟨rr / q, rr % q, r / (4 * q : Nat), Nat.div_lt_of_lt_mul (by omega), Nat.mod_lt _ hq, ?_⟩
  have hsplit : (rr : ℤ) = (rr / q : Nat) * q + (rr % q : Nat) := mod_cast (Nat.div_add_mod' rr q).symm
  rw [← hsplit, ← hrr, Int.emod_add_ediv_mul]

theorem read_twgen_of_le (n : Nat) : ∀ k, k ≤ n / 4 → Memory.read (twgen A n []) k = some (A.cosq n k) :=
  fun k hk => by rw [read_twgen, if_pos hk]

/-- TWLOOKUP, read from the table of TWGEN, is the twiddle of the index's quadrant and offset. -/
theorem twlookup_of_quadrant (d : Direction) {hi lo : Nat} (hhi : hi < 4) (hlo : lo < q) (m : ℤ) :
    twlookup A (4 * q) (twgen A (4 * q) []) d (hi * q + lo + m * (4 * q : Nat)) =
      some (quadrantTwiddle A q d hi lo) := by
  have hfirst : hi * q + lo < 4 * q := by nlinarith
  have hrr : ((hi * q + lo + m * (4 * q : Nat) : ℤ) % (4 * q : Nat)).toNat = hi * q + lo := by
    have hcast : (hi * q + lo : ℤ) = (hi * q + lo : Nat) := by push_cast; rfl
    rw [Int.add_mul_emod_self_right, hcast, ← Int.natCast_mod, Int.toNat_natCast, Nat.mod_eq_of_lt hfirst]
  have hquarter : 4 * q / 4 = q := by omega
  have hdiv : (hi * q + lo) / q = hi := by
    rw [Nat.add_comm, Nat.add_mul_div_right _ _ (by omega), Nat.div_eq_of_lt hlo, Nat.zero_add]
  have hmod : (hi * q + lo) % q = lo := by rw [Nat.mul_add_mod', Nat.mod_eq_of_lt hlo]
  rw [twlookup_of_table A (by omega) (read_twgen_of_le A _), hrr, hquarter, hdiv, hmod]
  rfl

/-- Settles O39: the index enters TWLOOKUP modulo `n` only, and TWGEN fills every entry it reads. -/
theorem twiddleLookupIsPeriodic : Obligations.TwiddleLookupIsPeriodic := by
  intro n d r m hn
  have hfilled := read_twgen_of_le binary64 n
  refine ⟨_, twlookup_of_table binary64 hn hfilled d r, ?_⟩
  rw [twlookup_of_table binary64 hn hfilled, Int.add_mul_emod_self_right]

/-! ## The symmetries -/

/-- The next quadrant is a quarter turn further (R95, R131). -/
theorem applyDirection_foldQuadrant_succ (hneg : ∀ x, A.neg (A.neg x) = x) (d : Direction) {hi : Nat} (hhi : hi < 4)
    (c s : α) : applyDirection A d (foldQuadrant A ((hi + 1) % 4) c s) =
      rot90 A d (applyDirection A d (foldQuadrant A hi c s)) := by
  interval_cases hi <;> cases d <;> simp [applyDirection, foldQuadrant, rot90, hneg]

theorem twlookup_quarter_turn (hneg : ∀ x, A.neg (A.neg x) = x) (hq : 0 < q) (d : Direction) (r : ℤ) :
    twlookup A (4 * q) (twgen A (4 * q) []) d (r + q) =
      (twlookup A (4 * q) (twgen A (4 * q) []) d r).map (rot90 A d) := by
  obtain ⟨hi, lo, m, hhi, hlo, rfl⟩ := exists_quadrant hq r
  have hnext : (hi * q + lo + m * (4 * q : Nat) + q : ℤ) =
      ((hi + 1) % 4 : Nat) * q + lo + (m + ((hi + 1) / 4 : Nat)) * (4 * q : Nat) := by
    have hcarry : (hi : ℤ) + 1 = ((hi + 1) % 4 : Nat) + 4 * ((hi + 1) / 4 : Nat) := by omega
    push_cast at hcarry ⊢
    linear_combination (q : ℤ) * hcarry
  rw [hnext, twlookup_of_quadrant A d (Nat.mod_lt _ (by decide)) hlo, twlookup_of_quadrant A d hhi hlo]
  exact congrArg some (applyDirection_foldQuadrant_succ A hneg d hhi _ _)

/-- Two quarter turns negate both parts. -/
theorem rot90_rot90 (d : Direction) (z : Cplx α) : rot90 A d (rot90 A d z) = ⟨A.neg z.re, A.neg z.im⟩ := by
  cases d <;> rfl

theorem twlookup_half_turn (hneg : ∀ x, A.neg (A.neg x) = x) (hq : 0 < q) (d : Direction) (r : ℤ) :
    twlookup A (4 * q) (twgen A (4 * q) []) d (r + 2 * q) =
      (twlookup A (4 * q) (twgen A (4 * q) []) d r).map fun w => ⟨A.neg w.re, A.neg w.im⟩ := by
  have htwo : r + 2 * q = r + q + q := by ring
  rw [htwo, twlookup_quarter_turn A hneg hq, twlookup_quarter_turn A hneg hq, Option.map_map]
  exact congrArg (Option.map · _) (funext (rot90_rot90 A d))

theorem size_eq_four_quarters {l : Nat} (hl : 2 ≤ l) :
    ∃ q : Nat, 0 < q ∧ 2 ^ l = 4 * q ∧ (2 ^ l : ℤ) = (4 * q : Nat) := by
  obtain ⟨j, rfl⟩ := Nat.exists_eq_add_of_le hl
  exact ⟨2 ^ j, Nat.two_pow_pos j, pow_add 2 2 j, by push_cast; exact pow_add 2 2 j⟩

/-- Settles O40: the direction acts on the sine only, and each turn of the index is some quarter turns. -/
theorem twiddleSymmetries : Obligations.TwiddleSymmetries := by
  intro α A l d r hl hneg W
  obtain ⟨q, hq, hsize, hwhole⟩ := size_eq_four_quarters hl
  have hhalf : ((4 * q : Nat) : ℤ) / 2 = 2 * q := by omega
  have hquarter : ((4 * q : Nat) : ℤ) / 4 = q := by omega
  simp only [W, hsize, hwhole, hhalf, hquarter]
  obtain ⟨hi, lo, m, hhi, hlo, hr⟩ := exists_quadrant hq r
  have hW : ∀ d, twlookup A (4 * q) (twgen A (4 * q) []) d r = some (quadrantTwiddle A q d hi lo) :=
    fun d => hr ▸ twlookup_of_quadrant A d hhi hlo m
  refine ⟨⟨_, hW d⟩, ?_, twlookup_half_turn A hneg hq d r, twlookup_quarter_turn A hneg hq d r, ?_⟩
  · rw [hW, hW]; rfl
  · have hturn : r + (4 * q : Nat) = hi * q + lo + (m + 1) * (4 * q : Nat) := by rw [hr]; ring
    rw [hW, hturn, twlookup_of_quadrant A d hhi hlo]

/-! ## The exact value -/

/-- The fold of R95 turns the angle by a quarter for each quadrant. -/
theorem foldQuadrant_exactReal {hi : Nat} (hhi : hi < 4) (θ : ℝ) :
    foldQuadrant exactReal hi (Real.cos θ) (Real.sin θ) =
      ⟨Real.cos (θ + hi * (Real.pi / 2)), Real.sin (θ + hi * (Real.pi / 2))⟩ := by
  have hthree : θ + 3 * (Real.pi / 2) = θ + Real.pi + Real.pi / 2 := by ring
  interval_cases hi <;>
    simp [foldQuadrant, exactReal, hthree, mul_div_cancel₀, Real.cos_add_pi_div_two, Real.sin_add_pi_div_two]

/-- The direction acts on the sine as the conjugation of the exponential (R96, R98). -/
theorem exp_directionSign_mul (d : Direction) (φ : ℝ) :
    Complex.exp (Complex.I * (directionSign d * φ)) =
      toComplex (applyDirection exactReal d ⟨Real.cos φ, Real.sin φ⟩) := by
  have harg : Complex.I * (directionSign d * φ) = (directionSign d * φ : ℝ) * Complex.I := by push_cast; ring
  rw [harg]
  apply Complex.ext
  · rw [Complex.exp_ofReal_mul_I_re]
    cases d <;> simp [toComplex, applyDirection, directionSign]
  · rw [Complex.exp_ofReal_mul_I_im]
    cases d <;> simp [toComplex, applyDirection, directionSign, exactReal]

theorem rootOfUnity_eq_toComplex (d : Direction) (n : Nat) (r : ℤ) :
    rootOfUnity d n r = toComplex (applyDirection exactReal d
      ⟨Real.cos (2 * Real.pi * r / n), Real.sin (2 * Real.pi * r / n)⟩) := by
  rw [← exp_directionSign_mul, rootOfUnity]
  push_cast
  rfl

/-- The sine of an offset is the cosine of what is left of the quadrant (R94). -/
theorem exactReal_cosq_complement {lo : Nat} (hlo : lo < q) :
    exactReal.cosq (4 * q) (q - lo) = Real.sin (2 * Real.pi * lo / (4 * q : Nat)) := by
  have hq : (q : ℝ) ≠ 0 := Nat.cast_ne_zero.2 (by omega)
  rw [← Real.cos_pi_div_two_sub]
  refine congrArg Real.cos ?_
  push_cast [Nat.cast_sub hlo.le]
  field_simp
  ring

/-- Settles O41: quadrant and offset give the angle up to whole turns. -/
theorem exactTwiddleIsTheRootOfUnity : Obligations.ExactTwiddleIsTheRootOfUnity := by
  intro l d r hl
  obtain ⟨q, hq, hsize, -⟩ := size_eq_four_quarters hl
  obtain ⟨hi, lo, m, hhi, hlo, rfl⟩ := exists_quadrant hq r
  rw [hsize]
  refine ⟨_, twlookup_of_quadrant exactReal d hhi hlo m, ?_⟩
  have hangle : 2 * Real.pi * (hi * q + lo + m * (4 * q : Nat) : ℤ) / (4 * q : Nat) =
      2 * Real.pi * lo / (4 * q : Nat) + hi * (Real.pi / 2) + m * (2 * Real.pi) := by
    have hq : (q : ℝ) ≠ 0 := by positivity
    push_cast
    field_simp
    ring
  rw [rootOfUnity_eq_toComplex, hangle, Real.cos_add_int_mul_two_pi, Real.sin_add_int_mul_two_pi,
    ← foldQuadrant_exactReal hhi, ← exactReal_cosq_complement hlo]
  rfl

end Sys2Proof.Machine
end

section
/-! The twiddle family, the bounds of the cosine: the integer square root, the half-angle step, the entries that are exact, and
that the bounds enclose the cosine and stay close (R92, log 10). -/

namespace Sys2Proof.Machine.Cosine

/-! ## The integer square root -/

/-- The root lies below every Newton step, by the inequality of the two means. -/
theorem sqrt_le_newton_step {m g : Nat} (hg : 0 < g) : m.sqrt ≤ (g + m / g) / 2 := by
  have hmeans : (2 * m.sqrt - g) * g ≤ m := by
    refine le_trans ?_ (Nat.sqrt_le m)
    rcases Nat.le_total g (2 * m.sqrt) with h | h
    · obtain ⟨t, ht⟩ := Nat.exists_eq_add_of_le h
      rw [ht, Nat.add_sub_cancel_left]
      nlinarith [sq_nonneg ((t : ℤ) - g)]
    · simp [Nat.sub_eq_zero_of_le h]
  have := (Nat.le_div_iff_mul_le hg).2 hmeans
  omega

/-- Above the root a Newton step at least halves the distance to it. -/
theorem newton_step_le {m g : Nat} (h : m.sqrt < g) : (g + m / g) / 2 ≤ (g + m.sqrt) / 2 := by
  have hquotient : m / g ≤ m.sqrt := by
    refine Nat.lt_succ_iff.1 ((Nat.div_lt_iff_lt_mul (by omega)).2 ((Nat.lt_succ_sqrt m).trans_le ?_))
    exact Nat.mul_le_mul_left _ h
  omega

/-- Newton's iteration ends at the root when the fuel is at least the number of digits of the start's distance to it. -/
theorem newton_eq_sqrt {m : Nat} : ∀ {fuel g : Nat}, m.sqrt ≤ g → g - m.sqrt < 2 ^ fuel → newton m fuel g = m.sqrt
  | 0, g, hle, hlt => by simp at hlt; simp [newton]; omega
  | fuel + 1, g, hle, hlt => by
    rcases hle.eq_or_lt with rfl | habove
    · rcases Nat.eq_zero_or_pos m.sqrt with hzero | hpos
      · simp [newton, hzero]
      · exact if_neg (sqrt_le_newton_step hpos).not_gt
    · have hlower := sqrt_le_newton_step (m := m) (g := g) (by omega)
      have hupper := newton_step_le habove
      have hfalls : (g + m / g) / 2 < g := by omega
      exact (if_pos hfalls).trans (newton_eq_sqrt hlower (by omega))

theorem sqrtDown_eq (m : Nat) : sqrtDown m = m.sqrt := by
  have hstart : m.sqrt < 2 ^ (Nat.log2 m / 2 + 1) := by
    rw [Nat.sqrt_lt, ← pow_add]
    exact Nat.lt_log2_self.trans_le (Nat.pow_le_pow_right (by decide) (by omega))
  refine newton_eq_sqrt hstart.le ((Nat.sub_le _ _).trans_lt ?_)
  exact Nat.pow_lt_pow_right (by decide) (by omega)

theorem sqrtUp_eq (m : Nat) : sqrtUp m = if m.sqrt * m.sqrt = m then m.sqrt else m.sqrt + 1 := by
  rw [← sqrtDown_eq]; rfl

theorem sqrt_le_sqrtUp (m : Nat) : √(m : ℝ) ≤ sqrtUp m := by
  rw [sqrtUp_eq]
  split
  next h => exact (Real.sqrt_le_left (Nat.cast_nonneg _)).2 (by exact_mod_cast (h.symm.trans (sq _).symm).le)
  next => exact_mod_cast Real.real_sqrt_lt_nat_sqrt_succ.le

theorem sqrtUp_le (m : Nat) : (sqrtUp m : ℝ) ≤ √(m : ℝ) + 1 := by
  have hroot : (m.sqrt : ℝ) ≤ √(m : ℝ) := Real.nat_sqrt_le_real_sqrt
  rw [sqrtUp_eq]
  split
  · linarith
  · push_cast; linarith

/-! ## The half-angle step -/

/-- The radicand of the half-angle step, `(1 + x) / 2` in units of 2^-480. -/
def radicand (x : Int) : Nat := ((2 ^ precision + x) * 2 ^ (precision - 1)).toNat

theorem halve_eq (b : Bounds) : halve b = ⟨((radicand b.lower).sqrt : Int), (sqrtUp (radicand b.upper) : Int)⟩ := by
  rw [← sqrtDown_eq]; rfl

/-- The bounds hold the cosine `c`. -/
def Bounds.Enclose (b : Bounds) (c : ℝ) : Prop := (b.lower : ℝ) ≤ 2 ^ precision * c ∧ 2 ^ precision * c ≤ (b.upper : ℝ)

theorem Bounds.Enclose.negate {b : Bounds} {c : ℝ} (h : b.Enclose c) : (negate b).Enclose (-c) := by
  obtain ⟨hl, hu⟩ := h
  constructor <;> (simp only [Cosine.negate]; push_cast; linarith)

variable {x : Int} {θ : ℝ}

/-- The half-angle formula in units of 2^-480. -/
theorem sq_scaled_cos (θ : ℝ) :
    (2 ^ precision * Real.cos θ) ^ 2 = (2 ^ precision + 2 ^ precision * Real.cos (2 * θ)) * 2 ^ (precision - 1) := by
  have hhalf : (2 : ℝ) ^ precision = 2 * 2 ^ (precision - 1) := (pow_succ' 2 (precision - 1))
  rw [hhalf, Real.cos_two_mul]
  ring

/-- A radicand below zero is cut off at zero. -/
theorem radicand_eq (x : Int) :
    (radicand x : ℝ) = max (((2 : ℝ) ^ precision + x) * 2 ^ (precision - 1)) 0 := by
  have h := Int.toNat_eq_max ((2 ^ precision + x) * 2 ^ (precision - 1))
  exact_mod_cast congrArg (Int.cast : ℤ → ℝ) h

theorem radicand_le (h : (x : ℝ) ≤ 2 ^ precision * Real.cos (2 * θ)) :
    (radicand x : ℝ) ≤ (2 ^ precision * Real.cos θ) ^ 2 := by
  rw [radicand_eq]
  refine max_le ?_ (sq_nonneg _)
  rw [sq_scaled_cos]
  gcongr

theorem le_radicand (h : 2 ^ precision * Real.cos (2 * θ) ≤ (x : ℝ)) :
    (2 ^ precision * Real.cos θ) ^ 2 ≤ radicand x := by
  rw [radicand_eq, sq_scaled_cos]
  refine le_max_of_le_left ?_
  gcongr

/-- The half-angle step keeps the enclosure, for an angle of the first quadrant. -/
theorem Bounds.Enclose.halve {b : Bounds} (h : b.Enclose (Real.cos (2 * θ))) (hθ : 0 ≤ Real.cos θ) :
    (halve b).Enclose (Real.cos θ) := by
  obtain ⟨hlower, hupper⟩ := h
  have hscaled : 0 ≤ 2 ^ precision * Real.cos θ := by positivity
  rw [halve_eq]
  constructor
  · calc ((radicand b.lower).sqrt : ℝ) ≤ √(radicand b.lower : ℝ) := Real.nat_sqrt_le_real_sqrt
      _ ≤ 2 ^ precision * Real.cos θ := (Real.sqrt_le_left hscaled).2 (radicand_le hlower)
  · calc 2 ^ precision * Real.cos θ ≤ √(radicand b.upper : ℝ) := Real.le_sqrt_of_sq_le (le_radicand hupper)
      _ ≤ sqrtUp (radicand b.upper) := sqrt_le_sqrtUp _

/-- The half-angle step divides the distance of the bounds by `2 cos θ`, up to the two roundings. -/
theorem halve_width {b : Bounds} (h : b.Enclose (Real.cos (2 * θ))) (hθ : 0 ≤ Real.cos θ) :
    (((halve b).upper : ℝ) - (halve b).lower - 2) * (2 * Real.cos θ) ≤ b.upper - b.lower := by
  obtain ⟨hlower, hupper⟩ := h
  set A := √(radicand b.lower : ℝ)
  set B := √(radicand b.upper : ℝ)
  have hroots : ((halve b).upper : ℝ) - (halve b).lower - 2 ≤ B - A := by
    have hA : A < (radicand b.lower).sqrt + 1 := Real.real_sqrt_lt_nat_sqrt_succ
    have hB := sqrtUp_le (radicand b.upper)
    rw [halve_eq]
    push_cast
    linarith
  have hB : 2 ^ precision * Real.cos θ ≤ B := Real.le_sqrt_of_sq_le (le_radicand hupper)
  have hA : A ≤ 2 ^ precision * Real.cos θ := (Real.sqrt_le_left (by positivity)).2 (radicand_le hlower)
  have hsquares : B ^ 2 - A ^ 2 ≤ (b.upper - b.lower) * 2 ^ (precision - 1) := by
    have hsign : 0 ≤ ((2 : ℝ) ^ precision + b.upper) * 2 ^ (precision - 1) := by
      refine (sq_nonneg (2 ^ precision * Real.cos θ)).trans ?_
      rw [sq_scaled_cos]
      gcongr
    have hA2 : ((2 : ℝ) ^ precision + b.lower) * 2 ^ (precision - 1) ≤ A ^ 2 := by
      rw [Real.sq_sqrt (Nat.cast_nonneg _), radicand_eq]
      exact le_max_left _ _
    have hB2 : B ^ 2 = ((2 : ℝ) ^ precision + b.upper) * 2 ^ (precision - 1) := by
      rw [Real.sq_sqrt (Nat.cast_nonneg _), radicand_eq, max_eq_left hsign]
    linarith
  have hdouble : (B - A) * (2 * Real.cos θ) ≤ b.upper - b.lower := by
    have hhalf : (2 : ℝ) ^ precision = 2 * 2 ^ (precision - 1) := pow_succ' 2 (precision - 1)
    refine le_of_mul_le_mul_right ?_ (pow_pos two_pos (precision - 1) : (0 : ℝ) < 2 ^ (precision - 1))
    calc (B - A) * (2 * Real.cos θ) * 2 ^ (precision - 1)
        = (B - A) * (2 ^ precision * Real.cos θ) := by rw [hhalf]; ring
      _ ≤ (B - A) * (B + A) := by
          refine mul_le_mul_of_nonneg_left ?_ (by linarith)
          linarith [Real.sqrt_nonneg (radicand b.lower : ℝ)]
      _ = B ^ 2 - A ^ 2 := by ring
      _ ≤ (b.upper - b.lower) * 2 ^ (precision - 1) := hsquares
  exact (mul_le_mul_of_nonneg_right hroots (by positivity)).trans hdouble

/-! ## The entries that are exact, and one table for all sizes -/

/-- The bounds of the cosine of twice the angle, from which the entry `k` of the table `l + 1` is made. -/
def doubleBounds (l k : Nat) : Bounds := if k ≤ 2 ^ l then bounds l k else negate (bounds l (2 * 2 ^ l - k))

theorem bounds_succ (l k : Nat) : bounds (l + 1) k = halve (doubleBounds l k) := rfl

theorem doubleBounds_low {l k : Nat} (h : k ≤ 2 ^ l) : doubleBounds l k = bounds l k := if_pos h

theorem doubleBounds_high {l k : Nat} (h : 2 ^ l < k) : doubleBounds l k = negate (bounds l (2 * 2 ^ l - k)) :=
  if_neg h.not_ge

theorem bounds_at_zero : ∀ l, bounds l 0 = ⟨2 ^ precision, 2 ^ precision⟩
  | 0 => rfl
  | l + 1 => by
    rw [bounds_succ, doubleBounds_low (Nat.zero_le _), bounds_at_zero l]
    decide +kernel

theorem bounds_at_quarter : ∀ l, bounds l (2 ^ l) = ⟨0, 0⟩
  | 0 => rfl
  | l + 1 => by
    have hhigh : 2 ^ l < 2 ^ (l + 1) := Nat.pow_lt_pow_right (by decide) (Nat.lt_succ_self l)
    rw [bounds_succ, doubleBounds_high hhigh, pow_succ', Nat.sub_self, bounds_at_zero]
    decide +kernel

/-- One table serves all sizes (R102): every second entry of a table is the table of half the size. -/
theorem bounds_double : ∀ {l k : Nat}, k ≤ 2 ^ l → bounds (l + 1) (2 * k) = bounds l k
  | 0, k, hk => by
    rcases Nat.le_one_iff_eq_zero_or_eq_one.1 hk with rfl | rfl
    · exact bounds_at_zero 1
    · exact bounds_at_quarter 1
  | l + 1, k, hk => by
    rw [pow_succ'] at hk
    rw [bounds_succ, bounds_succ l]
    congr 1
    rcases Nat.lt_or_ge (2 ^ l) k with h | h
    · have hrest : 2 * 2 ^ (l + 1) - 2 * k = 2 * (2 * 2 ^ l - k) := by rw [pow_succ']; omega
      rw [doubleBounds_high h, doubleBounds_high (by rw [pow_succ']; omega), hrest, bounds_double (by omega)]
    · rw [doubleBounds_low h, doubleBounds_low (by rw [pow_succ']; omega), bounds_double h]

/-! ## The enclosure -/

/-- The angle of the entry `k` of the table of `4 * 2 ^ l` points. -/
noncomputable def angle (l k : Nat) : ℝ := 2 * Real.pi * k / (4 * 2 ^ l)

theorem angle_zero_right (l : Nat) : angle l 0 = 0 := by simp [angle]

theorem angle_quarter (l : Nat) : angle l (2 ^ l) = Real.pi / 2 := by
  rw [angle]; push_cast; field_simp; norm_num

theorem angle_nonneg (l k : Nat) : 0 ≤ angle l k := by unfold angle; positivity

theorem angle_double (l k : Nat) : angle l k = 2 * angle (l + 1) k := by
  rw [angle, angle, pow_succ]; field_simp

theorem angle_supplement {l k : Nat} (hk : k ≤ 2 * 2 ^ l) : angle l (2 * 2 ^ l - k) = Real.pi - angle l k := by
  rw [angle, angle]
  push_cast [Nat.cast_sub hk]
  field_simp
  ring

theorem angle_le_pi_div_two {l k : Nat} (hk : k ≤ 2 ^ l) : angle l k ≤ Real.pi / 2 := by
  rw [← angle_quarter]
  unfold angle
  gcongr

/-- The smallest step of a table is not too small for the bounds (Jordan's inequality). -/
theorem one_le_sin_angle {l k : Nat} (hk0 : 0 < k) (hk : k ≤ 2 ^ l) : 1 ≤ 2 ^ l * Real.sin (angle l k) := by
  have hjordan := Real.mul_le_sin (angle_nonneg l k) (angle_le_pi_div_two hk)
  have hk1 : (1 : ℝ) ≤ k := mod_cast hk0
  calc (1 : ℝ) ≤ k := hk1
    _ = 2 ^ l * (2 / Real.pi * angle l k) := by
        have := Real.pi_ne_zero
        unfold angle; field_simp; norm_num
    _ ≤ 2 ^ l * Real.sin (angle l k) := by gcongr

/-- The bounds hold the cosine of `θ`, at a distance that the half-angle step keeps in proportion to the sine. -/
structure Bounds.Close (b : Bounds) (l : Nat) (θ : ℝ) : Prop where
  enclose : b.Enclose (Real.cos θ)
  width : ((b.upper : ℝ) - b.lower) ≤ 4 * 2 ^ l * Real.sin θ

theorem Bounds.Close.negate {b : Bounds} {l : Nat} (h : b.Close l θ) : (negate b).Close l (Real.pi - θ) where
  enclose := by rw [Real.cos_pi_sub]; exact h.enclose.negate
  width := by
    have := h.width
    rw [Real.sin_pi_sub]
    simp only [Cosine.negate]
    push_cast
    linarith

theorem bounds_zero_close (l : Nat) : (bounds l 0).Close l (angle l 0) := by
  rw [bounds_at_zero, angle_zero_right]
  constructor <;> simp [Bounds.Enclose]

theorem bounds_quarter_close (l : Nat) : (bounds l (2 ^ l)).Close l (angle l (2 ^ l)) := by
  rw [bounds_at_quarter, angle_quarter]
  constructor <;> simp [Bounds.Enclose]

/-- The step of the invariant away from the two exact ends: the sine of the angle makes up for the division by the cosine,
and is large enough for the two roundings. -/
theorem Bounds.Close.halve {b : Bounds} {l : Nat} (h : b.Close l (2 * θ)) (hcos : 0 < Real.cos θ)
    (hsin : 1 ≤ 2 ^ (l + 1) * Real.sin θ) : (halve b).Close (l + 1) θ where
  enclose := h.enclose.halve hcos.le
  width := by
    have hwidth := (halve_width h.enclose hcos.le).trans h.width
    rw [Real.sin_two_mul] at hwidth
    have hcancel : ((Cosine.halve b).upper : ℝ) - (Cosine.halve b).lower - 2 ≤ 4 * 2 ^ l * Real.sin θ := by
      refine le_of_mul_le_mul_right (hwidth.trans_eq ?_) (by positivity : 0 < 2 * Real.cos θ)
      ring
    rw [pow_succ] at hsin ⊢
    linarith

theorem bounds_close : ∀ {l k : Nat}, k ≤ 2 ^ l → (bounds l k).Close l (angle l k)
  | 0, k, hk => by
    rcases Nat.le_one_iff_eq_zero_or_eq_one.1 hk with rfl | rfl
    · exact bounds_zero_close 0
    · exact bounds_quarter_close 0
  | l + 1, k, hk => by
    rcases Nat.eq_zero_or_pos k with rfl | hpos
    · exact bounds_zero_close (l + 1)
    rcases hk.eq_or_lt with rfl | hlt
    · exact bounds_quarter_close (l + 1)
    have hk2 : k < 2 * 2 ^ l := by rwa [pow_succ'] at hlt
    have hdouble : (doubleBounds l k).Close l (2 * angle (l + 1) k) := by
      rw [← angle_double]
      rcases Nat.lt_or_ge (2 ^ l) k with h | h
      · have hsupplement := (bounds_close (l := l) (k := 2 * 2 ^ l - k) (by omega)).negate
        rwa [angle_supplement hk2.le, sub_sub_cancel, ← doubleBounds_high h] at hsupplement
      · rw [doubleBounds_low h]
        exact bounds_close h
    refine hdouble.halve (Real.cos_pos_of_mem_Ioo ⟨?_, ?_⟩) (one_le_sin_angle hpos hk)
    · linarith [angle_nonneg (l + 1) k, Real.pi_pos]
    · rw [← angle_quarter (l + 1)]
      unfold angle
      gcongr

theorem bounds_width {l k : Nat} (hk : k ≤ 2 ^ l) : (bounds l k).upper - (bounds l k).lower ≤ 2 ^ (l + 2) := by
  have hwidth : ((bounds l k).upper : ℝ) - (bounds l k).lower ≤ 2 ^ (l + 2) := by
    refine (bounds_close hk).width.trans ?_
    calc (4 * 2 ^ l * Real.sin (angle l k) : ℝ) ≤ 4 * 2 ^ l * 1 := by gcongr; exact Real.sin_le_one _
      _ = 2 ^ (l + 2) := by ring
  exact_mod_cast hwidth

/-- The bounds are roots, or the two exact values. -/
theorem bounds_lower_nonneg : ∀ l k, 0 ≤ (bounds l k).lower
  | 0, k => by unfold bounds; split <;> decide
  | l + 1, k => by rw [bounds_succ, halve_eq]; exact Int.natCast_nonneg _

theorem bounds_upper_nonneg : ∀ l k, 0 ≤ (bounds l k).upper
  | 0, k => by unfold bounds; split <;> decide
  | l + 1, k => by rw [bounds_succ, halve_eq]; exact Int.natCast_nonneg _

theorem bounds_lower_le {l k : Nat} (hk : k ≤ 2 ^ l) : (bounds l k).lower ≤ 2 ^ precision := by
  have hcos : (2 : ℝ) ^ precision * Real.cos (angle l k) ≤ 2 ^ precision * 1 := by
    gcongr; exact Real.cos_le_one _
  have hreal := (bounds_close hk).enclose.1.trans hcos
  rw [mul_one] at hreal
  exact_mod_cast hreal

end Sys2Proof.Machine.Cosine
end

section
/-! The twiddle family, one rounding: what the bits of a binade stand for, that no Scalar lies between two neighbours of a
binade, and that `roundMagnitude` gives a nearest Scalar (R126). -/

namespace Sys2Proof.Machine.Binary64

variable {m s d e q : Nat} {negative : Bool}

/-! ## The Scalars of a binade -/

theorem sign_pack {low : Nat} (h : low < 2 ^ 63) : sign (pack negative low) = negative := by
  rw [sign, pack, BitVec.msb_eq_decide, BitVec.toNat_ofNat]
  cases negative <;> simp <;> omega

theorem magnitude_pack {low : Nat} (h : low < 2 ^ 63) : magnitude (pack negative low) =
    if low / 2 ^ 52 = 0 then low % 2 ^ 52 else (2 ^ 52 + low % 2 ^ 52) * 2 ^ (low / 2 ^ 52 - 1) := by
  rw [magnitude, exponent_pack _ h, fraction_pack]

/-- The significand `q` at the place `2 ^ e`: subnormal or with the hidden bit, and with the carry into the next binade. -/
theorem magnitude_pack_binade (he : e = 0 ∨ 2 ^ 52 ≤ q) (hq : q ≤ 2 ^ 53) (h : e * 2 ^ 52 + q < 2 ^ 63) :
    magnitude (pack negative (e * 2 ^ 52 + q)) = q * 2 ^ e := by
  rw [magnitude_pack h]
  rcases Nat.lt_or_ge q (2 ^ 52) with hlow | hhigh
  · obtain rfl : e = 0 := he.resolve_right (by omega)
    rw [if_pos (by omega)]
    omega
  rcases hq.eq_or_lt with rfl | hlt
  · have hexponent : (e * 2 ^ 52 + 2 ^ 53) / 2 ^ 52 = e + 2 := by omega
    have hfraction : (e * 2 ^ 52 + 2 ^ 53) % 2 ^ 52 = 0 := by omega
    rw [hexponent, hfraction, if_neg (by omega), Nat.add_sub_assoc (by decide)]
    ring
  · have hexponent : (e * 2 ^ 52 + q) / 2 ^ 52 = e + 1 := by omega
    have hfraction : 2 ^ 52 + (e * 2 ^ 52 + q) % 2 ^ 52 = q := by omega
    rw [hexponent, hfraction, if_neg (by omega), Nat.add_sub_cancel]

theorem magnitude_lt (y : Scalar) : magnitude y < 2 ^ 53 * 2 ^ (exponent y - 1) := by
  have hfraction : fraction y < 2 ^ 52 := Nat.mod_lt _ (by decide)
  unfold magnitude
  split
  next h => rw [h]; omega
  next => exact Nat.mul_lt_mul_of_pos_right (by omega) (Nat.two_pow_pos _)

/-- A Scalar of a higher exponent is a multiple of the place. -/
theorem pow_dvd_magnitude {y : Scalar} (h : e < exponent y) : 2 ^ e ∣ magnitude y := by
  rw [magnitude, if_neg (by omega)]
  exact Dvd.dvd.mul_left (Nat.pow_dvd_pow 2 (by omega)) _

/-- No Scalar lies between the neighbours `q` and `q + 1` at the place `2 ^ e`. -/
theorem magnitude_le_or_ge (he : e = 0 ∨ 2 ^ 52 ≤ q) (y : Scalar) :
    magnitude y ≤ q * 2 ^ e ∨ (q + 1) * 2 ^ e ≤ magnitude y := by
  by_contra! hbetween
  obtain ⟨hlow, hhigh⟩ := hbetween
  have hmultiple : 2 ^ e ∣ magnitude y := by
    rcases Nat.eq_zero_or_pos e with rfl | hpos
    · exact one_dvd _
    refine pow_dvd_magnitude (Nat.lt_of_not_le fun hexponent => ?_)
    have hbelow : 2 ^ (exponent y - 1) ≤ 2 ^ (e - 1) := Nat.pow_le_pow_right (by decide) (by omega)
    have hdouble : 2 ^ e = 2 * 2 ^ (e - 1) := (mul_pow_sub_one hpos.ne' 2).symm
    have hplace : 2 ^ 52 * 2 ^ e ≤ q * 2 ^ e := Nat.mul_le_mul_right _ (he.resolve_left hpos.ne')
    have hmagnitude := magnitude_lt y
    omega
  obtain ⟨t, ht⟩ := hmultiple
  rw [ht, mul_comm (2 ^ e)] at hlow hhigh
  have hqt : q < t := Nat.lt_of_mul_lt_mul_right hlow
  have htq : t < q + 1 := Nat.lt_of_mul_lt_mul_right hhigh
  omega

theorem units_le_or_ge (he : e = 0 ∨ 2 ^ 52 ≤ q) (y : Scalar) :
    units y ≤ (q * 2 ^ e : Nat) ∨ ((q + 1) * 2 ^ e : Nat) ≤ units y := by
  unfold units
  split
  next => left; omega
  next => exact_mod_cast magnitude_le_or_ge he y

/-! ## Rounding -/

/-- Rounding takes the quotient or the next one, whichever is not farther. -/
theorem divRound_cases (m d : Nat) :
    (divRound m d = m / 2 ^ d ∧ 2 * (m % 2 ^ d) ≤ 2 ^ d) ∨
      (divRound m d = m / 2 ^ d + 1 ∧ 2 ^ d ≤ 2 * (m % 2 ^ d)) := by
  unfold divRound
  dsimp only
  split_ifs <;> omega

/-- The rounded quotient is nearer than every number that does not lie between the quotient and the next one. -/
theorem divRound_nearest {t : ℤ} (ht : t ≤ (m / 2 ^ d * 2 ^ d : Nat) ∨ ((m / 2 ^ d + 1) * 2 ^ d : Nat) ≤ t) :
    |((divRound m d * 2 ^ d : Nat) : ℤ) - m| ≤ |t - m| := by
  have hm := Nat.div_add_mod' m (2 ^ d)
  have hnext : (m / 2 ^ d + 1) * 2 ^ d = m / 2 ^ d * 2 ^ d + 2 ^ d := Nat.succ_mul _ _
  rw [hnext] at ht
  have hbelow := neg_le_abs (t - m)
  have habove := le_abs_self (t - m)
  rw [abs_le]
  rcases divRound_cases m d with ⟨h, hr⟩ | ⟨h, hr⟩
  · rw [h]
    omega
  · rw [h, hnext]
    omega

/-- How many low bits of `m` lie below the last place of the result (R126). -/
def lastPlace (m s : Nat) : Nat := max (Nat.log2 m - 52) s

theorem roundMagnitude_eq (m s : Nat) :
    roundMagnitude m s = min ((lastPlace m s - s) * 2 ^ 52 + divRound m (lastPlace m s)) infinityBits := rfl

theorem le_lastPlace (m s : Nat) : s ≤ lastPlace m s := le_max_right _ _

/-- The significand has at most 53 bits, and 53 where the place is above one unit. -/
theorem div_lastPlace_lt (m s : Nat) : m / 2 ^ lastPlace m s < 2 ^ 53 := by
  refine Nat.div_lt_of_lt_mul (Nat.lt_log2_self.trans_le ?_)
  rw [← pow_add]
  refine Nat.pow_le_pow_right (by decide) ?_
  have : Nat.log2 m - 52 ≤ lastPlace m s := le_max_left _ _
  omega

theorem le_div_lastPlace (m s : Nat) : lastPlace m s - s = 0 ∨ 2 ^ 52 ≤ m / 2 ^ lastPlace m s := by
  rcases Nat.lt_or_ge s (Nat.log2 m - 52) with h | h
  · right
    have hm : m ≠ 0 := by rintro rfl; simp at h
    rw [lastPlace, max_eq_left h.le, Nat.le_div_iff_mul_le (Nat.two_pow_pos _), ← pow_add,
      Nat.add_sub_cancel' (by omega)]
    exact Nat.log2_self_le hm
  · left
    rw [lastPlace, max_eq_right h, Nat.sub_self]

/-- Below 2^1023 nothing overflows. -/
theorem roundMagnitude_lt_infinityBits (h : m < 2 ^ (s + 2097)) : roundMagnitude m s < infinityBits := by
  have hlog : Nat.log2 m < s + 2097 := by
    rcases Nat.eq_zero_or_pos m with rfl | hm
    · simp
    · exact (Nat.log2_lt hm.ne').2 h
  have hplace : lastPlace m s ≤ s + 2044 := max_le (by omega) (by omega)
  have hquotient := div_lastPlace_lt m s
  rw [roundMagnitude_eq]
  refine (min_le_left _ _).trans_lt ?_
  rw [infinityBits]
  rcases divRound_cases m (lastPlace m s) with ⟨hdiv, -⟩ | ⟨hdiv, -⟩ <;> omega

/-- What is rounded without overflow is a nearest value: no Scalar is nearer to `m / 2 ^ s` units. -/
theorem roundMagnitude_nearest (h : roundMagnitude m s < infinityBits) (y : Scalar) :
    |(magnitude (pack negative (roundMagnitude m s)) : ℤ) * 2 ^ s - m| ≤ |units y * 2 ^ s - m| := by
  have hbits : roundMagnitude m s = (lastPlace m s - s) * 2 ^ 52 + divRound m (lastPlace m s) := by
    rw [roundMagnitude_eq] at h ⊢
    exact min_eq_left (Nat.le_of_lt_succ (by omega))
  have hquotient := div_lastPlace_lt m s
  have hplace := le_div_lastPlace m s
  have hshift : 2 ^ lastPlace m s = 2 ^ (lastPlace m s - s) * 2 ^ s := by
    rw [← pow_add, Nat.sub_add_cancel (le_lastPlace m s)]
  have hmagnitude : magnitude (pack negative (roundMagnitude m s)) * 2 ^ s =
      divRound m (lastPlace m s) * 2 ^ lastPlace m s := by
    rw [hbits] at h ⊢
    rw [infinityBits] at h
    have hcases := divRound_cases m (lastPlace m s)
    rw [magnitude_pack_binade (by omega) (by omega) (by omega), mul_assoc, hshift]
  have hunits (q : Nat) : ((q * 2 ^ lastPlace m s : Nat) : ℤ) = (q * 2 ^ (lastPlace m s - s) : Nat) * 2 ^ s := by
    rw [hshift, ← mul_assoc]; push_cast; rfl
  have hgap := (units_le_or_ge hplace y).imp (mul_le_mul_of_nonneg_right · (pow_nonneg two_pos.le s))
    (mul_le_mul_of_nonneg_right · (pow_nonneg two_pos.le s))
  rw [← hunits, ← hunits] at hgap
  have hround := divRound_nearest hgap
  rw [← hmagnitude] at hround
  exact_mod_cast hround

theorem isFinite_pack {low : Nat} (h : low < infinityBits) : isFinite (pack negative low) = true := by
  rw [infinityBits] at h
  have hexponent : low / 2 ^ 52 < 2047 := Nat.div_lt_of_lt_mul (by omega)
  rw [isFinite, exponent_pack negative (by omega)]
  exact bne_iff_ne.2 hexponent.ne

theorem units_pack_false {low : Nat} (h : low < infinityBits) : units (pack false low) = magnitude (pack false low) := by
  rw [infinityBits] at h
  rw [units, sign_pack (by omega)]
  rfl

theorem units_roundMagnitude_nearest (h : roundMagnitude m s < infinityBits) (y : Scalar) :
    |(units (pack false (roundMagnitude m s)) : ℝ) * 2 ^ s - m| ≤ |(units y : ℝ) * 2 ^ s - m| := by
  have hnearest := roundMagnitude_nearest (negative := false) h y
  rw [← units_pack_false h] at hnearest
  exact_mod_cast hnearest

/-! ## Nearness to a real number -/

/-- No finite Scalar is nearer to `x` units than `u`. -/
def Nearest (u : Scalar) (x : ℝ) : Prop :=
  ∀ y : Scalar, isFinite y = true → |(units u : ℝ) - x| ≤ |(units y : ℝ) - x|

variable {u : Scalar} {a b x δ : ℝ}

/-- Moving the target away from `y` on the side of `u` keeps `u` the nearer one. -/
theorem abs_sub_le_of_moved {u y b x : ℝ} (hmove : 0 ≤ (y - u) * (b - x)) (h : |u - b| ≤ |y - b|) :
    |u - x| ≤ |y - x| := by
  rw [← sq_le_sq] at h ⊢
  linarith

/-- What is nearest to both ends of an interval is nearest to all of it. -/
theorem Nearest.of_between (ha : Nearest u a) (hb : Nearest u b) (hax : a ≤ x) (hxb : x ≤ b) : Nearest u x := by
  intro y hy
  rcases le_total (units u : ℝ) (units y) with h | h
  · exact abs_sub_le_of_moved (mul_nonneg (sub_nonneg.2 h) (sub_nonneg.2 hxb)) (hb y hy)
  · exact abs_sub_le_of_moved (mul_nonneg_of_nonpos_of_nonpos (sub_nonpos.2 h) (sub_nonpos.2 hax)) (ha y hy)

/-- A Scalar nearest to `a` is, within twice the distance, nearest to `x`. -/
theorem Nearest.le_add (ha : Nearest u a) (hax : |a - x| ≤ δ) {y : Scalar} (hy : isFinite y = true) :
    |(units u : ℝ) - x| ≤ |(units y : ℝ) - x| + 2 * δ := by
  have hu := abs_sub_le (units u : ℝ) a x
  have hya := abs_sub_le (units y : ℝ) x a
  have hnearest := ha y hy
  rw [abs_sub_comm x a] at hya
  linarith

end Sys2Proof.Machine.Binary64
end

section
/-! The twiddle family, the ROM of binary64: each entry is the rounded lower bound, so its ends, its independence of the size and
its nearness to the cosine (R92, R102) follow from the bounds and from the rounding. -/

namespace Sys2Proof.Machine

open Binary64 Cosine

variable {x : Int} {j k l : Nat}

/-! ## The entries as rounded bounds -/

theorem cosq_eq_round (j k : Nat) : cosq (2 ^ (j + 2)) k = Cosine.round (bounds j k).lower := by
  rw [cosq, Nat.log2_two_pow, Nat.add_sub_cancel]

/-- The index range of a table, by the quarter. -/
theorem two_pow_quarter (j : Nat) : 2 ^ (j + 2) / 4 = 2 ^ j := by
  rw [pow_add]; exact Nat.mul_div_cancel _ (by decide)

theorem cosq_zero (j : Nat) : cosq (2 ^ (j + 2)) 0 = 0x3FF0000000000000#64 := by
  rw [cosq_eq_round, bounds_at_zero]
  decide +kernel

theorem cosq_quarter (j : Nat) : cosq (2 ^ (j + 2)) (2 ^ j) = 0#64 := by
  rw [cosq_eq_round, bounds_at_quarter]
  decide +kernel

/-- At an eighth of a turn the angle's double is the quarter turn, whose cosine is exact. -/
theorem cosq_eighth (j : Nat) : cosq (2 ^ (j + 3)) (2 ^ j) = 0x3FE6A09E667F3BCD#64 := by
  rw [cosq_eq_round, bounds_succ, doubleBounds_low le_rfl, bounds_at_quarter]
  decide +kernel

theorem cosq_double (hk : k ≤ 2 ^ j) : cosq (2 ^ (j + 2)) k = cosq (2 ^ (j + 3)) (2 * k) := by
  rw [cosq_eq_round, cosq_eq_round, bounds_double hk]

/-- Settles O36: the bounds of the ends are exact at every size, and doubling size and index changes no bound. -/
theorem romEndsAreExactAndScaleFree : Obligations.RomEndsAreExactAndScaleFree := by
  refine ⟨fun l hl => ?_, fun l hl => ?_, fun l k hl hk => ?_⟩
  · obtain ⟨j, rfl⟩ := Nat.exists_eq_add_of_le' hl
    rw [two_pow_quarter]
    exact ⟨cosq_zero j, cosq_quarter j⟩
  · obtain ⟨j, rfl⟩ := Nat.exists_eq_add_of_le' hl
    have heighth : 2 ^ (j + 3) / 8 = 2 ^ j := by rw [pow_add]; exact Nat.mul_div_cancel _ (by decide)
    rw [heighth, cosq_eighth]
  · obtain ⟨j, rfl⟩ := Nat.exists_eq_add_of_le' hl
    rw [two_pow_quarter] at hk
    rw [← pow_succ', cosq_double hk]

/-! ## Nearness to the cosine -/

/-- `x` units of 2^-240 as units of 2^-1074. -/
theorem units_of_bound (x : ℝ) : 2 ^ 1074 * x = 2 ^ 834 * (2 ^ precision * x) := by
  rw [← mul_assoc, ← pow_add]; rfl

theorem round_lt_infinityBits (h : x ≤ 2 ^ precision) :
    roundMagnitude (x.toNat * 2 ^ 1074) precision < infinityBits := by
  refine roundMagnitude_lt_infinityBits ?_
  have hx : x.toNat ≤ 2 ^ precision := Int.toNat_le.2 (by exact_mod_cast h)
  calc x.toNat * 2 ^ 1074 ≤ 2 ^ precision * 2 ^ 1074 := Nat.mul_le_mul_right _ hx
    _ = 2 ^ (precision + 1074) := (pow_add _ _ _).symm
    _ < 2 ^ (precision + 2097) := Nat.pow_lt_pow_right (by decide) (by decide)

theorem isFinite_round (h : x ≤ 2 ^ precision) : isFinite (Cosine.round x) = true :=
  isFinite_pack (round_lt_infinityBits h)

/-- A rounded bound is nearest to the bound. -/
theorem nearest_round (h0 : 0 ≤ x) (h : x ≤ 2 ^ precision) : Nearest (Cosine.round x) (2 ^ 834 * x) := by
  intro y _
  have hround := units_roundMagnitude_nearest (round_lt_infinityBits h) y
  have hx : ((x.toNat * 2 ^ 1074 : Nat) : ℝ) = x * 2 ^ 1074 := by
    rw [Nat.cast_mul, Nat.cast_pow, Nat.cast_ofNat, ← Int.cast_natCast, Int.toNat_of_nonneg h0]
  have hscale (u : ℝ) : |u * 2 ^ precision - x * 2 ^ 1074| = |u - 2 ^ 834 * x| * 2 ^ precision := by
    have hexpand : u * 2 ^ precision - x * 2 ^ 1074 = (u - 2 ^ 834 * x) * 2 ^ precision := by
      rw [sub_mul, mul_comm (x : ℝ), units_of_bound, mul_comm _ (x : ℝ), mul_assoc]
    rw [hexpand, abs_mul, abs_of_pos (pow_pos two_pos precision : (0 : ℝ) < 2 ^ precision)]
  rw [hx, hscale, hscale] at hround
  exact le_of_mul_le_mul_right hround (by positivity)

/-- The enclosure in units of 2^-1074, at the angle as the statements write it. -/
theorem scaled_bounds (hk : k ≤ 2 ^ j) :
    2 ^ 834 * ((bounds j k).lower : ℝ) ≤ 2 ^ 1074 * Real.cos (2 * Real.pi * k / 2 ^ (j + 2)) ∧
      2 ^ 1074 * Real.cos (2 * Real.pi * k / 2 ^ (j + 2)) ≤ 2 ^ 834 * ((bounds j k).upper : ℝ) := by
  have hangle : 2 * Real.pi * k / 2 ^ (j + 2) = angle j k := by rw [angle, pow_add]; ring
  obtain ⟨hlower, hupper⟩ := (bounds_close hk).enclose
  rw [hangle, units_of_bound]
  exact ⟨mul_le_mul_of_nonneg_left hlower (by positivity), mul_le_mul_of_nonneg_left hupper (by positivity)⟩

theorem isFinite_cosq (hk : k ≤ 2 ^ j) : isFinite (cosq (2 ^ (j + 2)) k) = true := by
  rw [cosq_eq_round]
  exact isFinite_round (bounds_lower_le hk)

theorem nearest_cosq_lower (hk : k ≤ 2 ^ j) : Nearest (cosq (2 ^ (j + 2)) k) (2 ^ 834 * ((bounds j k).lower : ℝ)) := by
  rw [cosq_eq_round]
  exact nearest_round (bounds_lower_nonneg j k) (bounds_lower_le hk)

/-- The lower bound is as near to the cosine as the bounds are to each other. -/
theorem abs_lower_sub_cos_le (hk : k ≤ 2 ^ j) :
    |2 ^ 834 * ((bounds j k).lower : ℝ) - 2 ^ 1074 * Real.cos (2 * Real.pi * k / 2 ^ (j + 2))| ≤ 2 ^ (j + 836) := by
  obtain ⟨hlower, hupper⟩ := scaled_bounds hk
  have hwidth : ((bounds j k).upper : ℝ) - (bounds j k).lower ≤ 2 ^ (j + 2) := by exact_mod_cast bounds_width hk
  rw [abs_sub_comm, abs_of_nonneg (sub_nonneg.2 hlower)]
  calc 2 ^ 1074 * Real.cos (2 * Real.pi * k / 2 ^ (j + 2)) - 2 ^ 834 * ((bounds j k).lower : ℝ)
      ≤ 2 ^ 834 * ((bounds j k).upper : ℝ) - 2 ^ 834 * ((bounds j k).lower : ℝ) := sub_le_sub_right hupper _
    _ = 2 ^ 834 * (((bounds j k).upper : ℝ) - (bounds j k).lower) := (mul_sub _ _ _).symm
    _ ≤ 2 ^ 834 * 2 ^ (j + 2) := mul_le_mul_of_nonneg_left hwidth (by positivity)
    _ = 2 ^ (j + 836) := by rw [← pow_add, Nat.add_comm]

/-- Settles O37: the bounds by the half-angle invariant, an entry by the rounding and the distance of the bounds. -/
theorem cosineBoundsEncloseTheCosine : Obligations.CosineBoundsEncloseTheCosine := by
  refine ⟨fun l k hk => ?_, fun l k hl hk => ?_⟩
  · obtain ⟨hlower, hupper⟩ := (bounds_close hk).enclose
    exact ⟨hlower, hupper, bounds_width hk⟩
  · obtain ⟨j, rfl⟩ := Nat.exists_eq_add_of_le' hl
    rw [two_pow_quarter] at hk
    refine ⟨isFinite_cosq hk, fun y hy => ?_⟩
    have hslack : (2 : ℝ) ^ (j + 2 + 835) = 2 * 2 ^ (j + 836) := pow_succ' 2 (j + 836)
    rw [hslack]
    exact (nearest_cosq_lower hk).le_add (abs_lower_sub_cos_le hk) hy

/-- Up to 32 points the two bounds of each entry round to the same Scalar. -/
theorem round_upper_eq_round_lower : ∀ j ≤ 3, ∀ k ≤ 2 ^ j, (bounds j k).upper ≤ 2 ^ precision ∧
    Cosine.round (bounds j k).upper = Cosine.round (bounds j k).lower := by decide +kernel

/-- Settles O38: an entry is nearest to both bounds, so also to the cosine between them. -/
theorem romEntriesAreNearestUpToThirtyTwo : Obligations.RomEntriesAreNearestUpToThirtyTwo := by
  intro l k hl hl5 hk
  obtain ⟨j, rfl⟩ := Nat.exists_eq_add_of_le' hl
  rw [two_pow_quarter] at hk
  obtain ⟨hupper, hround⟩ := round_upper_eq_round_lower j (by omega) k hk
  have hnearest := nearest_round (bounds_upper_nonneg j k) hupper
  rw [hround, ← cosq_eq_round] at hnearest
  obtain ⟨hlow, hhigh⟩ := scaled_bounds hk
  exact ⟨isFinite_cosq hk, (nearest_cosq_lower hk).of_between hnearest hlow hhigh⟩

end Sys2Proof.Machine
end

section
/-! The permutation family: what a pass of a build adds to an entry, the closed forms as one digit reversal with the radix as
parameter, and what follows from them: the bijections and where the tables are involutions (R112, R114, R115, R116). -/

namespace Sys2Proof.Machine

/-! ## Digit reversal -/

/-- Reversal of the low `m` digits of `j` in base `r`: both closed forms in one. -/
def digitReverse (r : Nat) : (m j : Nat) → Nat
  | 0, _ => 0
  | m + 1, j => j % r * r ^ m + digitReverse r m (j / r)

theorem bitReverse_eq_digitReverse : ∀ l j, bitReverse l j = digitReverse 2 l j
  | 0, _ => rfl
  | l + 1, j => by rw [bitReverse, digitReverse, bitReverse_eq_digitReverse l]

theorem digitReverse4_eq_digitReverse : ∀ m j, digitReverse4 m j = digitReverse 4 m j
  | 0, _ => rfl
  | m + 1, j => by rw [digitReverse4, digitReverse, digitReverse4_eq_digitReverse m]

section
variable {r : Nat}

theorem digitReverse_succ (m j : Nat) : digitReverse r (m + 1) j = j % r * r ^ m + digitReverse r m (j / r) := rfl

@[simp] theorem digitReverse_at_zero : ∀ m, digitReverse r m 0 = 0
  | 0 => rfl
  | m + 1 => by simp [digitReverse, digitReverse_at_zero m]

theorem digitReverse_lt (hr : 0 < r) : ∀ m j, digitReverse r m j < r ^ m
  | 0, _ => Nat.one_pos
  | m + 1, j => by
    have hlow := digitReverse_lt hr m (j / r)
    have htop : j % r * r ^ m ≤ (r - 1) * r ^ m := Nat.mul_le_mul_right _ (Nat.le_sub_one_of_lt (Nat.mod_lt j hr))
    have hsize : r ^ (m + 1) = (r - 1) * r ^ m + r ^ m := by
      rw [pow_succ', ← Nat.succ_mul, Nat.succ_eq_add_one, Nat.sub_add_cancel hr]
    rw [digitReverse]
    omega

/-- The low `m` digits decide the reversal. -/
theorem digitReverse_mod : ∀ m j, digitReverse r m (j % r ^ m) = digitReverse r m j
  | 0, _ => rfl
  | m + 1, j => by
    rw [digitReverse, digitReverse, pow_succ', Nat.mod_mul_right_mod, Nat.mod_mul_right_div_self, digitReverse_mod m]

/-- The top digit becomes the lowest one. -/
theorem digitReverse_top (hr : 0 < r) {a : Nat} (ha : a < r) :
    ∀ m x, x < r ^ m → digitReverse r (m + 1) (a * r ^ m + x) = a + r * digitReverse r m x
  | 0, x, hx => by
    obtain rfl : x = 0 := Nat.lt_one_iff.1 hx
    simp [digitReverse, Nat.mod_eq_of_lt ha]
  | m + 1, x, hx => by
    have hrest : x / r < r ^ m := Nat.div_lt_of_lt_mul (by rwa [pow_succ'] at hx)
    have hshift : a * r ^ (m + 1) + x = x + a * r ^ m * r := by ring
    rw [digitReverse, hshift, Nat.add_mul_mod_self_right, Nat.add_mul_div_right _ _ hr, Nat.add_comm (x / r),
      digitReverse_top hr ha m _ hrest, digitReverse]
    ring

/-- Reversing twice gives the index back. -/
theorem digitReverse_involutive (hr : 0 < r) : ∀ m j, j < r ^ m → digitReverse r m (digitReverse r m j) = j
  | 0, j, hj => (Nat.lt_one_iff.1 hj).symm
  | m + 1, j, hj => by
    have hrest : j / r < r ^ m := Nat.div_lt_of_lt_mul (by rwa [pow_succ'] at hj)
    rw [digitReverse_succ m j, digitReverse_top hr (Nat.mod_lt j hr) m _ (digitReverse_lt hr m _),
      digitReverse_involutive hr m _ hrest, Nat.mod_add_div]

theorem digitReverse_inj (hr : 0 < r) {m i j : Nat} (hi : i < r ^ m) (hj : j < r ^ m)
    (h : digitReverse r m i = digitReverse r m j) : i = j := by
  rw [← digitReverse_involutive hr m i hi, h, digitReverse_involutive hr m j hj]

end

/-! ## The closed form of PERMGEN4 by the parity of the number of bits -/

theorem two_pow_even (m : Nat) : 2 ^ (2 * m) = 4 ^ m := pow_mul 2 2 m

theorem two_pow_odd (m : Nat) : 2 ^ (2 * m + 1) = 2 * 4 ^ m := by rw [pow_succ', two_pow_even]

theorem mixedReverse_even (m j : Nat) : mixedReverse (2 * m) j = digitReverse 4 m j := by
  rw [mixedReverse, if_pos (by omega), digitReverse4_eq_digitReverse, Nat.mul_div_cancel_left _ two_pos]

theorem mixedReverse_odd (m j : Nat) :
    mixedReverse (2 * m + 1) j = j / 4 ^ m + 2 * digitReverse 4 m j := by
  have hhalf : (2 * m + 1) / 2 = m := by omega
  rw [mixedReverse, if_neg (by omega), digitReverse4_eq_digitReverse, hhalf, Nat.add_sub_cancel, two_pow_even,
    digitReverse_mod]

/-! ## What a pass adds to an entry -/

/-- Adding to the aligned part `c` of `q` slots. -/
theorem read_addRange_part {q : Nat} (hq : 0 < q) (perm : Memory Nat) (c amount p : Nat) :
    Memory.read (addRange perm (c * q) q amount) p =
      if p / q = c then (Memory.read perm p).map (· + amount) else Memory.read perm p := by
  have hpart : (c * q ≤ p ∧ p < c * q + q) ↔ p / q = c := by rw [Nat.div_eq_iff hq]; omega
  simp only [read_addRange, hpart]

/-- In a table of `n` entries, `pass (r * q) fs` adds to each entry `fs` times the digit of its slot that counts the `q`s. -/
def AddsDigit (r n : Nat) (pass : (len fs : Nat) → Memory Nat → Memory Nat) : Prop :=
  ∀ (q fs p : Nat) (perm : Memory Nat), r * q ∣ n → p < n →
    Memory.read (pass (r * q) fs perm) p = (Memory.read perm p).map (· + p / q % r * fs)

/-- A block that divides a table with a slot `p` has parts that are not empty. -/
theorem pos_of_mul_dvd {r q n p : Nat} (hlen : r * q ∣ n) (hp : p < n) : 0 < q :=
  Nat.pos_of_mul_pos_left (Nat.pos_of_dvd_of_pos hlen (Nat.zero_lt_of_lt hp))

theorem permPass2_addsDigit (n : Nat) : AddsDigit 2 n (permPass2 n) := by
  intro q fs p perm hlen hp
  have hq := pos_of_mul_dvd hlen hp
  have hhalf : 2 * q / 2 = q := by omega
  have hblock : p / (2 * q) = p / q / 2 := by rw [Nat.div_div_eq_div_mul, Nat.mul_comm]
  have hown (b : Nat) (t : Memory Nat) : Memory.read (addRange t (b * (2 * q) + 2 * q / 2) (2 * q / 2) fs) p =
      if p / q = 2 * b + 1 then (Memory.read t p).map (· + fs) else Memory.read t p := by
    have hfirst : b * (2 * q) + 2 * q / 2 = (2 * b + 1) * q := by rw [hhalf]; ring
    rw [hfirst, hhalf, read_addRange_part hq]
  refine loop_read_single (Nat.div_lt_div_of_lt_of_dvd hlen hp) (fun t => Memory.read t p = Memory.read perm p) rfl
    (fun b t hb ht => ?_) (fun b t hb _ => ?_) (fun t ht => ?_)
  · rw [hown, if_neg (by omega), ht]
  · rw [hown, if_neg (by omega)]
  · rw [hown, ht, hblock]
    rcases Nat.mod_two_eq_zero_or_one (p / q) with h | h
    · rw [if_neg (by omega), h]; simp
    · rw [if_pos (by omega), h, Nat.one_mul]

theorem permPass4_addsDigit (n : Nat) : AddsDigit 4 n (permPass4 n) := by
  intro q fs p perm hlen hp
  have hq := pos_of_mul_dvd hlen hp
  have hquarter : 4 * q / 4 = q := by omega
  have hblock : p / (4 * q) = p / q / 4 := by rw [Nat.div_div_eq_div_mul, Nat.mul_comm]
  have hown (b k : Nat) (t : Memory Nat) (p : Nat) :
      Memory.read (addRange t (b * (4 * q) + k * (4 * q / 4)) (4 * q / 4) (k * fs)) p =
        if p / q = 4 * b + k then (Memory.read t p).map (· + k * fs) else Memory.read t p := by
    have hfirst : b * (4 * q) + k * (4 * q / 4) = (4 * b + k) * q := by rw [hquarter]; ring
    rw [hfirst, hquarter, read_addRange_part hq]
  have hp4 : p / q = 4 * (p / q / 4) + p / q % 4 := (Nat.div_add_mod _ _).symm
  refine read_sweep (own := fun b k p => p / q = 4 * b + k) (fun b k t p _ _ hne => ?_) (fun b k b' k' p hk hk' h h' => ?_)
    (Nat.div_lt_div_of_lt_of_dvd hlen hp) (Nat.mod_lt (p / q) (by decide)) (by rwa [hblock]) (fun t ht => ?_)
  · rw [hown, if_neg hne]
  · omega
  · rw [hown, hblock, if_pos hp4, ht p (by rwa [hblock])]

/-- The passes of a build: `m` digits are added from the top one down, each with `r` times the weight of the one before, which
is the reversal of the low `m` digits. -/
theorem AddsDigit.read_loop {r n c m p : Nat} {pass : (len fs : Nat) → Memory Nat → Memory Nat}
    (hpass : AddsDigit r n pass) (hr : 0 < r) (hn : r ^ m ∣ n) (hp : p < n) (perm : Memory Nat) :
    Memory.read (loop m (fun t => pass (r ^ m / r ^ t) (c * r ^ t)) perm) p =
      (Memory.read perm p).map (· + c * digitReverse r m p) := by
  have hloop := loop_invariant (n := m) (f := fun t => pass (r ^ m / r ^ t) (c * r ^ t)) (s := perm)
    (P := fun t s => Memory.read s p = (Memory.read perm p).map (· + c * digitReverse r t (p / r ^ (m - t))))
    (by simp [digitReverse]) fun t s ht hs => ?_
  · simpa using hloop
  · obtain ⟨d, rfl⟩ := Nat.exists_eq_add_of_lt ht
    have hlen : r ^ (t + d + 1) / r ^ t = r * r ^ d := by
      rw [Nat.add_assoc, pow_add, Nat.mul_div_cancel_left _ (pow_pos hr t), pow_succ']
    have hdvd : r * r ^ d ∣ n := (Dvd.intro_left (r ^ t) (by ring)).trans hn
    have hbefore : t + d + 1 - t = d + 1 := by omega
    have hafter : t + d + 1 - (t + 1) = d := by omega
    rw [hlen, hpass _ _ _ _ hdvd hp, hs, hbefore, hafter, Option.map_map, digitReverse, Nat.div_div_eq_div_mul, ← pow_succ]
    congr 1
    funext v
    simp only [Function.comp_apply]
    ring

/-! ## What a build leaves in the table -/

theorem read_permgen2 {l j : Nat} (hj : j < 2 ^ l) : Memory.read (permgen2 (2 ^ l) []) j = some (bitReverse l j) := by
  have hpasses := (permPass2_addsDigit (2 ^ l)).read_loop (c := 1) two_pos dvd_rfl hj (permClear (2 ^ l) [])
  simpa [permgen2, Nat.log2_two_pow, read_permClear, hj, bitReverse_eq_digitReverse] using hpasses

theorem read_permgen4_even {m j : Nat} (hj : j < 4 ^ m) :
    Memory.read (permgen4 (4 ^ m) []) j = some (digitReverse 4 m j) := by
  have hbits : Nat.log2 (4 ^ m) = 2 * m := by rw [← two_pow_even, Nat.log2_two_pow]
  have hpasses := (permPass4_addsDigit (4 ^ m)).read_loop (c := 1) four_pos dvd_rfl hj (permClear (4 ^ m) [])
  simpa [permgen4, hbits, read_permClear, hj] using hpasses

/-- The radix-2 step leaves the top bit of the slot in its entry. -/
theorem read_permgen4_odd {m j : Nat} (hj : j < 2 * 4 ^ m) :
    Memory.read (permgen4 (2 * 4 ^ m) []) j = some (j / 4 ^ m + 2 * digitReverse 4 m j) := by
  have hbits : Nat.log2 (2 * 4 ^ m) = 2 * m + 1 := by rw [← two_pow_odd, Nat.log2_two_pow]
  have hparity : (2 * m + 1) % 2 = 1 := by omega
  have hdigits : (2 * m + 1) / 2 = m := by omega
  have hhalf : 2 * 4 ^ m / 2 = 4 ^ m := Nat.mul_div_cancel_left _ two_pos
  have hpasses := (permPass4_addsDigit (2 * 4 ^ m)).read_loop (c := 2) four_pos (Dvd.intro_left 2 rfl) hj
    (addRange (permClear (2 * 4 ^ m) []) (4 ^ m) (4 ^ m) 1)
  have htop : Memory.read (addRange (permClear (2 * 4 ^ m) []) (4 ^ m) (4 ^ m) 1) j = some (j / 4 ^ m) := by
    have hstep := read_addRange_part (pow_pos four_pos m) (permClear (2 * 4 ^ m) []) 1 1 j
    have hbit : j / 4 ^ m < 2 := Nat.div_lt_of_lt_mul (by omega)
    rw [Nat.one_mul, read_permClear, if_pos hj] at hstep
    rcases Nat.le_one_iff_eq_zero_or_eq_one.1 (Nat.lt_succ_iff.1 hbit) with h | h
    · simpa [h] using hstep
    · simpa [h] using hstep
  rw [htop] at hpasses
  simp only [permgen4, hbits, hparity, hdigits, hhalf, if_pos]
  exact hpasses

theorem read_permgen4 {l j : Nat} (hj : j < 2 ^ l) :
    Memory.read (permgen4 (2 ^ l) []) j = some (mixedReverse l j) := by
  obtain ⟨m, rfl | rfl⟩ := Nat.even_or_odd' l
  · rw [two_pow_even] at hj ⊢
    rw [read_permgen4_even hj, mixedReverse_even]
  · rw [two_pow_odd] at hj ⊢
    rw [read_permgen4_odd hj, mixedReverse_odd]

/-- Settles O42: each pass of the build adds one bit of the slot. -/
theorem permgenTwoIsBitReversal : Obligations.PermgenTwoIsBitReversal := fun _ _ hj => read_permgen2 hj

/-- Settles O43: each radix-4 pass adds one base-4 digit of the slot, and for odd `l` the radix-2 step adds its top bit. -/
theorem permgenFourIsMixedDigitReversal : Obligations.PermgenFourIsMixedDigitReversal := fun _ _ _ hj => read_permgen4 hj

/-! ## The tables as permutations of the indices -/

theorem bitReverse_lt (l j : Nat) : bitReverse l j < 2 ^ l := by
  rw [bitReverse_eq_digitReverse]
  exact digitReverse_lt two_pos l j

theorem bitReverse_involutive {l j : Nat} (hj : j < 2 ^ l) : bitReverse l (bitReverse l j) = j := by
  rw [bitReverse_eq_digitReverse, bitReverse_eq_digitReverse, digitReverse_involutive two_pos l j hj]

theorem bitReverse_inj {l i j : Nat} (hi : i < 2 ^ l) (hj : j < 2 ^ l) (h : bitReverse l i = bitReverse l j) : i = j := by
  rw [bitReverse_eq_digitReverse, bitReverse_eq_digitReverse] at h
  exact digitReverse_inj two_pos hi hj h

theorem mixedReverse_lt {l j : Nat} (hj : j < 2 ^ l) : mixedReverse l j < 2 ^ l := by
  obtain ⟨m, rfl | rfl⟩ := Nat.even_or_odd' l
  · rw [mixedReverse_even, two_pow_even]
    exact digitReverse_lt four_pos m j
  · rw [two_pow_odd] at hj ⊢
    have htop : j / 4 ^ m < 2 := Nat.div_lt_of_lt_mul (by omega)
    have hrest := digitReverse_lt four_pos m j
    rw [mixedReverse_odd]
    omega

theorem mixedReverse_involutive {l j : Nat} (hl : l % 2 = 0) (hj : j < 2 ^ l) :
    mixedReverse l (mixedReverse l j) = j := by
  obtain ⟨m, rfl⟩ := Nat.dvd_of_mod_eq_zero hl
  rw [two_pow_even] at hj
  rw [mixedReverse_even, mixedReverse_even, digitReverse_involutive four_pos m j hj]

theorem eq_of_bit_add_double_eq {a b x y : Nat} (ha : a < 2) (hb : b < 2) (h : a + 2 * x = b + 2 * y) :
    a = b ∧ x = y := by omega

theorem mixedReverse_inj {l i j : Nat} (hi : i < 2 ^ l) (hj : j < 2 ^ l) (h : mixedReverse l i = mixedReverse l j) :
    i = j := by
  obtain ⟨m, rfl | rfl⟩ := Nat.even_or_odd' l
  · rw [two_pow_even] at hi hj
    rw [mixedReverse_even, mixedReverse_even] at h
    exact digitReverse_inj four_pos hi hj h
  · rw [two_pow_odd] at hi hj
    rw [mixedReverse_odd, mixedReverse_odd, ← digitReverse_mod m i, ← digitReverse_mod m j] at h
    obtain ⟨htop, hdigits⟩ :=
      eq_of_bit_add_double_eq (Nat.div_lt_of_lt_mul (by omega)) (Nat.div_lt_of_lt_mul (by omega)) h
    have hpos : 0 < 4 ^ m := pow_pos four_pos m
    have hlow := digitReverse_inj four_pos (Nat.mod_lt i hpos) (Nat.mod_lt j hpos) hdigits
    rw [← Nat.div_add_mod i (4 ^ m), htop, hlow, Nat.div_add_mod]

/-- The closed form of the table of a strategy. -/
def permEntry : Radix → (l j : Nat) → Nat
  | .r2 => bitReverse
  | .r4 => mixedReverse

theorem permEntry_lt {l j : Nat} (rdx : Radix) (hj : j < 2 ^ l) : permEntry rdx l j < 2 ^ l := by
  cases rdx with
  | r2 => exact bitReverse_lt l j
  | r4 => exact mixedReverse_lt hj

theorem permEntry_inj {l i j : Nat} (rdx : Radix) (hi : i < 2 ^ l) (hj : j < 2 ^ l)
    (h : permEntry rdx l i = permEntry rdx l j) : i = j := by
  cases rdx with
  | r2 => exact bitReverse_inj hi hj h
  | r4 => exact mixedReverse_inj hi hj h

/-- An injection of the indices into themselves meets each of them. -/
theorem exists_permEntry_eq {l v : Nat} (rdx : Radix) (hv : v < 2 ^ l) : ∃ j < 2 ^ l, permEntry rdx l j = v := by
  have hsurj : Set.SurjOn (permEntry rdx l) (Finset.range (2 ^ l)) (Finset.range (2 ^ l)) :=
    Finset.surjOn_of_injOn_of_card_le _ (fun j hj => by simpa using permEntry_lt rdx (by simpa using hj))
      (fun i hi j hj => permEntry_inj rdx (by simpa using hi) (by simpa using hj)) le_rfl
  simpa using hsurj (by simpa using hv)

/-! ## The tables as memories -/

section
variable {n p : Nat} {perm : Memory Nat} (h : Memory.read perm p = none)
include h

/-- A build adds to the entries that stand in the table and makes no others. -/
theorem read_addRange_none (first count amount : Nat) : Memory.read (addRange perm first count amount) p = none := by
  simp [read_addRange, h]

theorem read_permPass2_none (len fs : Nat) : Memory.read (permPass2 n len fs perm) p = none :=
  loop_keeps (P := fun t => Memory.read t p = none) h fun _ _ _ ht => read_addRange_none ht _ _ _

theorem read_permPass4_none (len fs : Nat) : Memory.read (permPass4 n len fs perm) p = none :=
  loop_keeps (P := fun t => Memory.read t p = none) h fun _ _ _ ht =>
    loop_keeps (P := fun t => Memory.read t p = none) ht fun _ _ _ hs => read_addRange_none hs _ _ _

end

theorem read_permgen_beyond (rdx : Radix) {n j : Nat} (hj : n ≤ j) : Memory.read (permgen rdx n []) j = none := by
  have hclear : Memory.read (permClear n []) j = none := by simp [read_permClear, hj]
  cases rdx with
  | r2 => exact loop_keeps (P := fun t => Memory.read t j = none) hclear fun _ _ _ ht => read_permPass2_none ht _ _
  | r4 =>
    simp only [permgen, permgen4]
    split
    · exact loop_keeps (P := fun t => Memory.read t j = none) (read_addRange_none hclear _ _ _) fun _ _ _ ht =>
        read_permPass4_none ht _ _
    · exact loop_keeps (P := fun t => Memory.read t j = none) hclear fun _ _ _ ht => read_permPass4_none ht _ _

theorem read_permgen (rdx : Radix) (l j : Nat) :
    Memory.read (permgen rdx (2 ^ l) []) j = if j < 2 ^ l then some (permEntry rdx l j) else none := by
  split
  next hj =>
    cases rdx with
    | r2 => exact read_permgen2 hj
    | r4 => exact read_permgen4 hj
  next hj => exact read_permgen_beyond rdx (Nat.le_of_not_lt hj)

theorem read_permgen_eq_some_iff {rdx : Radix} {l j v : Nat} :
    Memory.read (permgen rdx (2 ^ l) []) j = some v ↔ j < 2 ^ l ∧ permEntry rdx l j = v := by
  rw [read_permgen]
  split
  next hj => simp [hj]
  next hj => simp [hj]

/-- Settles O44: the closed forms are injective, and an injection of `0 .. n-1` into itself meets every index. -/
theorem permutationTablesAreBijections : Obligations.PermutationTablesAreBijections := by
  refine fun rdx l _ => ⟨fun j hj => ?_, fun j hj => read_permgen_beyond rdx hj, fun v hv => ?_⟩
  · exact ⟨_, read_permgen_eq_some_iff.2 ⟨hj, rfl⟩, permEntry_lt rdx hj⟩
  · obtain ⟨j, hj, hjv⟩ := exists_permEntry_eq rdx hv
    refine ⟨j, read_permgen_eq_some_iff.2 ⟨hj, hjv⟩, fun i hi => ?_⟩
    obtain ⟨hi, hiv⟩ := read_permgen_eq_some_iff.1 hi
    exact permEntry_inj rdx hi hj (hiv.trans hjv.symm)

/-! ## Where the tables are involutions -/

theorem read_permgen_involutive {rdx : Radix} {l j v : Nat} (hinv : j < 2 ^ l → permEntry rdx l (permEntry rdx l j) = j)
    (h : Memory.read (permgen rdx (2 ^ l) []) j = some v) : Memory.read (permgen rdx (2 ^ l) []) v = some j := by
  obtain ⟨hj, rfl⟩ := read_permgen_eq_some_iff.1 h
  exact read_permgen_eq_some_iff.2 ⟨permEntry_lt rdx hj, hinv hj⟩

/-- For odd `l`, slot 1 holds an even index of the lower half, whose own entry is even and so not 1. -/
theorem mixedReverse_odd_not_involutive (m : Nat) :
    mixedReverse (2 * (m + 1) + 1) (mixedReverse (2 * (m + 1) + 1) 1) ≠ 1 := by
  have hpos : 0 < 4 ^ m := pow_pos four_pos m
  have hsize : 4 ^ (m + 1) = 4 * 4 ^ m := pow_succ' 4 m
  have hone : mixedReverse (2 * (m + 1) + 1) 1 = 2 * 4 ^ m := by
    rw [mixedReverse_odd, Nat.div_eq_of_lt (by omega), digitReverse_succ]
    simp
  rw [hone, mixedReverse_odd, Nat.div_eq_of_lt (by omega)]
  omega

/-- Settles O45: digit reversal undoes itself; for odd `l` slot 1 shows that the table does not. -/
theorem involutionOnlyWhereTheSpecSays : Obligations.InvolutionOnlyWhereTheSpecSays := by
  refine ⟨fun l j v _ => read_permgen_involutive (rdx := .r2) bitReverse_involutive,
    fun l j v _ heven => read_permgen_involutive (rdx := .r4) (mixedReverse_involutive heven),
    fun l hl hodd => ?_, by decide, by decide⟩
  obtain ⟨m, rfl⟩ : ∃ m, l = 2 * (m + 1) + 1 := ⟨l / 2 - 1, by omega⟩
  have hone : 1 < 2 ^ (2 * (m + 1) + 1) := Nat.one_lt_two_pow (by omega)
  refine ⟨1, _, read_permgen4 hone, fun h => ?_⟩
  rw [read_permgen4 (mixedReverse_lt hone), Option.some.injEq] at h
  exact mixedReverse_odd_not_involutive m h

end Sys2Proof.Machine
end

section
/-! The butterfly family, one rounding exactly: where `roundMagnitude` overflows, that a tie goes to the even significand, and so
that a rounded magnitude with a sign is the signed value rounded once to nearest even (R126). -/

namespace Sys2Proof.Machine.Binary64

variable {m s d c : Nat} {negative : Bool}

/-! ## Signs -/

@[simp] theorem sign_neg (x : Scalar) : sign (neg x) = !sign x := by
  have hmask : (0x8000000000000000#64).msb = true := rfl
  rw [sign, neg, BitVec.msb_xor, hmask, Bool.xor_true, sign]

/-- `neg` undoes itself (R126). -/
@[simp] theorem neg_involutive (x : Scalar) : neg (neg x) = x := by
  rw [neg, neg, BitVec.xor_assoc, BitVec.xor_self, BitVec.xor_zero]

@[simp] theorem units_neg (x : Scalar) : units (neg x) = -units x := by
  cases h : sign x <;> simp [units, h]

/-- The integer with the given sign and the given magnitude, as `units` signs a Scalar. -/
def signed (negative : Bool) (m : Nat) : ℤ := if negative then -(m : ℤ) else m

theorem units_eq_signed (x : Scalar) : units x = signed (sign x) (magnitude x) := rfl

@[simp] theorem abs_signed (negative : Bool) (m : Nat) : |signed negative m| = m := by
  cases negative <;> simp [signed]

theorem units_pack {low : Nat} (h : low < 2 ^ 63) :
    units (pack negative low) = signed negative (magnitude (pack negative low)) := by
  rw [units_eq_signed, sign_pack h]

theorem magnitude_pack_true {low : Nat} (h : low < 2 ^ 63) : magnitude (pack true low) = magnitude (pack false low) := by
  rw [magnitude_pack h, magnitude_pack h]

theorem infinityBits_lt : infinityBits < 2 ^ 63 := by decide

theorem isInf_pack_infinityBits : isInf (pack negative infinityBits) = true := by
  rw [isInf, exponent_pack _ infinityBits_lt, fraction_pack]
  decide

/-! ## Overflow -/

theorem roundMagnitude_le_infinityBits (m s : Nat) : roundMagnitude m s ≤ infinityBits := min_le_right _ _

/-- The rounded quotient stays below an even number exactly where the exact one is below the half before it. -/
theorem divRound_lt_iff (hc : c % 2 = 0) (h0 : 0 < c) : divRound m d < c ↔ 2 * m < (2 * c - 1) * 2 ^ d := by
  have hm := Nat.div_add_mod' m (2 ^ d)
  have hr := Nat.mod_lt m (Nat.two_pow_pos d)
  have hcut : (2 * c - 1) * 2 ^ d + 2 ^ d = 2 * (c * 2 ^ d) := by
    rw [← Nat.succ_mul, Nat.succ_eq_add_one, Nat.sub_add_cancel (by omega), mul_assoc]
  rcases lt_trichotomy (m / 2 ^ d + 1) c with hq | rfl | hq
  · have hstep : (m / 2 ^ d + 2) * 2 ^ d ≤ c * 2 ^ d := Nat.mul_le_mul_right _ hq
    have hround := divRound_cases m d
    rw [add_mul] at hstep
    exact iff_of_true (by omega) (by omega)
  · rw [add_mul] at hcut
    unfold divRound
    dsimp only
    split_ifs <;> omega
  · have hstep : c * 2 ^ d ≤ m / 2 ^ d * 2 ^ d := Nat.mul_le_mul_right _ (Nat.le_of_lt_succ hq)
    have hround := divRound_cases m d
    exact iff_of_false (by omega) (by omega)

/-- The overflow threshold: half a last place below 2^1024, in units of 2^-1074. -/
theorem roundMagnitude_lt_infinityBits_iff :
    roundMagnitude m s < infinityBits ↔ 2 * m < (2 ^ 54 - 1) * 2 ^ (s + 2045) := by
  have hround := divRound_cases m (lastPlace m s)
  have hquotient := div_lastPlace_lt m s
  have hm := Nat.div_add_mod' m (2 ^ lastPlace m s)
  have hr := Nat.mod_lt m (Nat.two_pow_pos (lastPlace m s))
  rw [roundMagnitude_eq, min_lt_iff, or_iff_left (lt_irrefl _), infinityBits]
  rcases lt_trichotomy (lastPlace m s) (s + 2045) with hplace | hplace | hplace
  · have hscale : 2 * 2 ^ lastPlace m s ≤ 2 ^ (s + 2045) := by
      rw [← pow_succ']; exact Nat.pow_le_pow_right two_pos hplace
    have hsignificand : (m / 2 ^ lastPlace m s + 1) * 2 ^ lastPlace m s ≤ 2 ^ 53 * 2 ^ lastPlace m s :=
      Nat.mul_le_mul_right _ hquotient
    rw [add_mul] at hsignificand
    exact iff_of_true (by omega) (by omega)
  · have hcarry := divRound_lt_iff (m := m) (d := s + 2045) (c := 2 ^ 53) (by decide) (by decide)
    rw [hplace]
    omega
  · have hhidden := (le_div_lastPlace m s).resolve_left (by omega)
    have hscale : 2 * 2 ^ (s + 2045) ≤ 2 ^ lastPlace m s := by
      rw [← pow_succ']; exact Nat.pow_le_pow_right two_pos hplace
    have hsignificand := Nat.mul_le_mul_right (2 ^ lastPlace m s) hhidden
    exact iff_of_false (by omega) (by omega)

/-- The threshold as the statements write it. -/
theorem lt_threshold_iff :
    (m : ℤ) < (2 ^ 2098 - 2 ^ 2044) * 2 ^ s ↔ roundMagnitude m s < infinityBits := by
  have hthreshold : 2 * ((2 ^ 2098 - 2 ^ 2044) * 2 ^ s : ℤ) = ((2 ^ 54 - 1) * 2 ^ (s + 2045) : Nat) := by
    have hhigh : (2 ^ 2098 : ℤ) = 2 ^ 54 * 2 ^ 2044 := pow_add 2 54 2044
    have hlow : (2 ^ (s + 2045) : ℤ) = 2 * 2 ^ 2044 * 2 ^ s := by rw [← pow_succ', ← pow_add, Nat.add_comm]
    rw [Nat.cast_mul, Nat.cast_pow, Nat.cast_ofNat, hhigh, hlow]
    generalize (2 : ℤ) ^ 2044 = place
    push_cast
    ring
  rw [roundMagnitude_lt_infinityBits_iff, ← Nat.cast_lt (α := ℤ), ← hthreshold, Nat.cast_mul, Nat.cast_ofNat]
  exact (mul_lt_mul_iff_right₀ two_pos).symm

/-! ## Ties -/

theorem divRound_strict_or_even (m d : Nat) :
    (divRound m d = m / 2 ^ d ∧ 2 * (m % 2 ^ d) < 2 ^ d) ∨
      (divRound m d = m / 2 ^ d + 1 ∧ 2 ^ d < 2 * (m % 2 ^ d)) ∨ divRound m d % 2 = 0 := by
  unfold divRound
  dsimp only
  split_ifs <;> omega

/-- Among the numbers that do not lie between the quotient and the next one, only the rounded quotient is as near as an odd
rounded quotient. -/
theorem divRound_tie_even {t : ℤ} (ht : t ≤ (m / 2 ^ d * 2 ^ d : Nat) ∨ ((m / 2 ^ d + 1) * 2 ^ d : Nat) ≤ t)
    (htie : |t - m| ≤ |((divRound m d * 2 ^ d : Nat) : ℤ) - m|) :
    t = (divRound m d * 2 ^ d : Nat) ∨ divRound m d % 2 = 0 := by
  have hm := Nat.div_add_mod' m (2 ^ d)
  have hnext : (m / 2 ^ d + 1) * 2 ^ d = m / 2 ^ d * 2 ^ d + 2 ^ d := Nat.succ_mul _ _
  rw [hnext] at ht
  obtain ⟨hlow, hhigh⟩ := abs_le.1 htie
  rcases divRound_strict_or_even m d with ⟨h, hr⟩ | ⟨h, hr⟩ | h
  · rw [h, abs_of_nonpos (by omega)] at hlow hhigh
    rw [h]
    omega
  · have hr' := Nat.mod_lt m (Nat.two_pow_pos d)
    rw [h, hnext, abs_of_nonneg (by omega)] at hlow hhigh
    rw [h, hnext]
    omega
  · exact .inr h

/-! ## The rounded magnitude -/

section
variable (h : roundMagnitude m s < infinityBits)
include h

theorem roundMagnitude_of_lt : roundMagnitude m s = (lastPlace m s - s) * 2 ^ 52 + divRound m (lastPlace m s) := by
  rw [roundMagnitude_eq] at h ⊢
  exact min_eq_left (by omega)

/-- The rounded magnitude, at the place of the exact one. -/
theorem magnitude_roundMagnitude :
    magnitude (pack negative (roundMagnitude m s)) * 2 ^ s = divRound m (lastPlace m s) * 2 ^ lastPlace m s := by
  have hround := divRound_cases m (lastPlace m s)
  have hquotient := div_lastPlace_lt m s
  have hplace := le_div_lastPlace m s
  have hbits := roundMagnitude_of_lt h
  rw [hbits, infinityBits] at h
  rw [hbits, magnitude_pack_binade (by omega) (by omega) (by omega), mul_assoc, ← pow_add,
    Nat.sub_add_cancel (le_lastPlace m s)]

theorem fraction_roundMagnitude_even :
    fraction (pack negative (roundMagnitude m s)) % 2 = divRound m (lastPlace m s) % 2 := by
  rw [fraction_pack, roundMagnitude_of_lt h]
  omega
end

/-! ## Nearest to even -/

/-- `u` is the value of `x / 2 ^ s` units rounded to nearest even: every finite Scalar of another value is farther, or as far
and the fraction of `u` is even. -/
def NearestEven (u : Scalar) (s : Nat) (x : ℤ) : Prop :=
  ∀ y : Scalar, isFinite y = true → units y ≠ units u →
    |units u * 2 ^ s - x| < |units y * 2 ^ s - x| ∨
      |units u * 2 ^ s - x| = |units y * 2 ^ s - x| ∧ fraction u % 2 = 0

/-- A Scalar as far as the rounded magnitude has its value, unless the rounded fraction is even. -/
theorem roundMagnitude_tie_even (h : roundMagnitude m s < infinityBits) {y : Scalar}
    (htie : |units y * 2 ^ s - m| ≤ |(magnitude (pack negative (roundMagnitude m s)) : ℤ) * 2 ^ s - m|) :
    units y = magnitude (pack negative (roundMagnitude m s)) ∨
      fraction (pack negative (roundMagnitude m s)) % 2 = 0 := by
  have hscale : (0 : ℤ) < 2 ^ s := pow_pos two_pos s
  have hunits (q : Nat) : ((q * 2 ^ lastPlace m s : Nat) : ℤ) = (q * 2 ^ (lastPlace m s - s) : Nat) * 2 ^ s := by
    rw [← Nat.sub_add_cancel (le_lastPlace m s), Nat.add_sub_cancel, pow_add, ← mul_assoc]; push_cast; rfl
  have hmagnitude : (magnitude (pack negative (roundMagnitude m s)) : ℤ) * 2 ^ s =
      (divRound m (lastPlace m s) * 2 ^ lastPlace m s : Nat) := by exact_mod_cast magnitude_roundMagnitude h
  have hgap := (units_le_or_ge (le_div_lastPlace m s) y).imp (mul_le_mul_of_nonneg_right · hscale.le)
    (mul_le_mul_of_nonneg_right · hscale.le)
  rw [← hunits, ← hunits] at hgap
  rw [hmagnitude] at htie
  rw [fraction_roundMagnitude_even h]
  refine (divRound_tie_even hgap htie).imp_left fun hvalue => ?_
  rw [← hmagnitude] at hvalue
  exact mul_right_cancel₀ hscale.ne' hvalue

theorem nearestEven_pack_false (h : roundMagnitude m s < infinityBits) :
    NearestEven (pack false (roundMagnitude m s)) s m := by
  intro y _ hne
  rw [units_pack_false h] at hne ⊢
  refine (roundMagnitude_nearest h y).lt_or_eq.imp_right fun htie => ⟨htie, ?_⟩
  exact (roundMagnitude_tie_even h htie.ge).resolve_left hne

/-- Rounding to nearest even does not see the sign. -/
theorem NearestEven.of_opposite {u v : Scalar} {x : ℤ} (h : NearestEven u s x) (hunits : units v = -units u)
    (hfraction : fraction v = fraction u) : NearestEven v s (-x) := by
  intro y hy hne
  have hflip (z : ℤ) : |-z * 2 ^ s - -x| = |z * 2 ^ s - x| := by rw [← abs_neg]; congr 1; ring
  have hy' := h (neg y) (by rwa [isFinite_neg]) (by rwa [units_neg, ne_eq, neg_eq_iff_eq_neg, ← hunits])
  rw [units_neg, ← hflip, ← hflip (-units y), neg_neg, ← hunits] at hy'
  rwa [hfraction]

/-- The rounded magnitude with a sign is the exact value with that sign, rounded to nearest even. -/
theorem nearestEven_pack (h : roundMagnitude m s < infinityBits) (negative : Bool) :
    NearestEven (pack negative (roundMagnitude m s)) s (signed negative m) := by
  cases negative with
  | false => exact nearestEven_pack_false h
  | true =>
    have hbits := h.trans infinityBits_lt
    refine (nearestEven_pack_false h).of_opposite ?_ ?_
    · rw [units_pack hbits, units_pack hbits, magnitude_pack_true hbits, signed, signed, if_pos rfl, if_neg Bool.false_ne_true]
    · rw [fraction_pack, fraction_pack]

/-- One rounding with overflow (R126), for an exact value of `x / 2 ^ s` units. -/
def RoundsOnce (u : Scalar) (s : Nat) (x : ℤ) : Prop :=
  (|x| < (2 ^ 2098 - 2 ^ 2044) * 2 ^ s → isFinite u = true ∧ NearestEven u s x) ∧
    ((2 ^ 2098 - 2 ^ 2044) * 2 ^ s ≤ |x| → isInf u = true)

theorem roundsOnce_pack (negative : Bool) (m s : Nat) :
    RoundsOnce (pack negative (roundMagnitude m s)) s (signed negative m) := by
  rw [RoundsOnce, abs_signed, ← not_lt, lt_threshold_iff]
  refine ⟨fun h => ⟨isFinite_pack h, nearestEven_pack h negative⟩, fun h => ?_⟩
  have hinfinity : roundMagnitude m s = infinityBits := (roundMagnitude_le_infinityBits m s).antisymm (not_lt.1 h)
  rw [hinfinity, isInf_pack_infinityBits]

end Sys2Proof.Machine.Binary64
end

section
/-! The butterfly family, the binary64 operations: what `add` and `mul` do with NaNs, infinities and finite values, and the
statements about `neg`, the special values and the single rounding (R126, R128 to R130). -/

namespace Sys2Proof.Machine.Binary64

variable {a b x : Scalar} {o : Occ}

/-! ## The classes of Scalars -/

theorem isNaN_eq_false_of_isFinite (h : isFinite x = true) : isNaN x = false := by
  simp_all [isNaN, isFinite]

theorem isInf_eq_false_of_isFinite (h : isFinite x = true) : isInf x = false := by
  simp_all [isInf, isFinite]

theorem isNaN_eq_false_of_isInf (h : isInf x = true) : isNaN x = false := by
  simp_all [isNaN, isInf]

theorem isFinite_eq_false_of_isInf (h : isInf x = true) : isFinite x = false := by
  simp_all [isFinite, isInf]

theorem units_eq_zero_iff : units x = 0 ↔ magnitude x = 0 := by
  rw [← abs_eq_zero, units_eq_signed, abs_signed, Nat.cast_eq_zero]

/-! ## The cases of the operations -/

theorem add_of_isNaN (h : isNaN a = true ∨ isNaN b = true) : add o a b = nan o :=
  if_pos (Bool.or_eq_true _ _ ▸ h)

theorem mul_of_isNaN (h : isNaN a = true ∨ isNaN b = true) : mul o a b = nan o :=
  if_pos (Bool.or_eq_true _ _ ▸ h)

theorem add_inf_left (ha : isInf a = true) (hb : isNaN b = false) :
    add o a b = if isInf b = true ∧ sign a ≠ sign b then nan o else a := by
  simp [add, ha, hb, isNaN_eq_false_of_isInf ha]

theorem add_inf_finite (ha : isInf a = true) (hb : isFinite b = true) : add o a b = a := by
  simp [add_inf_left ha (isNaN_eq_false_of_isFinite hb), isInf_eq_false_of_isFinite hb]

theorem add_finite_inf (ha : isFinite a = true) (hb : isInf b = true) : add o a b = b := by
  simp [add, hb, isNaN_eq_false_of_isFinite ha, isInf_eq_false_of_isFinite ha, isNaN_eq_false_of_isInf hb]

theorem add_finite (ha : isFinite a = true) (hb : isFinite b = true) : add o a b = addFinite a b := by
  simp [add, isNaN_eq_false_of_isFinite, isInf_eq_false_of_isFinite, ha, hb]

theorem mul_comm_operands (o : Occ) (a b : Scalar) : mul o a b = mul o b a := by
  simp only [mul, Bool.or_comm (isNaN a), Bool.or_comm (isInf a), Bool.or_comm (isFinite a && _), Nat.mul_comm (magnitude a),
    bne_comm (a := sign a)]

theorem mul_inf_left (ha : isInf a = true) (hb : isNaN b = false) :
    mul o a b = if isFinite b = true ∧ units b = 0 then nan o else pack (sign a != sign b) infinityBits := by
  simp [mul, ha, hb, isNaN_eq_false_of_isInf ha, isFinite_eq_false_of_isInf ha, units_eq_zero_iff]

theorem mul_finite (ha : isFinite a = true) (hb : isFinite b = true) :
    mul o a b = pack (sign a != sign b) (roundMagnitude (magnitude a * magnitude b) 1074) := by
  simp [mul, isNaN_eq_false_of_isFinite, isInf_eq_false_of_isFinite, ha, hb]

/-! ## Negation and the special values -/

theorem getLsbD_neg (x : Scalar) (i : Nat) :
    (neg x).getLsbD i = if i = 63 then !x.getLsbD i else x.getLsbD i := by
  have hmask : 0x8000000000000000#64 = BitVec.twoPow 64 63 := rfl
  rw [neg, hmask, BitVec.getLsbD_xor, BitVec.getLsbD_twoPow]
  split_ifs with h
  · simp [h]
  · simp [Ne.symm h]

/-- Settles O46: bit by bit, and the mask cancels itself. -/
theorem negFlipsTheSignBitOnly : Obligations.NegFlipsTheSignBitOnly :=
  ⟨fun x i _ => getLsbD_neg x i, neg_involutive⟩

/-- The product of an infinity with another infinity or with a non-zero finite value. -/
theorem mul_inf_left_isInf (ha : isInf a = true) (hb : isNaN b = false) (h : isFinite b = true → units b ≠ 0) :
    isInf (mul o a b) = true ∧ sign (mul o a b) = (sign a != sign b) := by
  rw [mul_inf_left ha hb, if_neg (fun hzero => h hzero.1 hzero.2)]
  exact ⟨isInf_pack_infinityBits, sign_pack infinityBits_lt⟩

theorem specialValues_nan (o : Occ) (h : isNaN a = true ∨ isNaN b = true) :
    isNaN (add o a b) = true ∧ isNaN (sub o a b) = true ∧ isNaN (mul o a b) = true := by
  have hsub : isNaN a = true ∨ isNaN (neg b) = true := by rwa [isNaN_neg]
  rw [sub, add_of_isNaN h, add_of_isNaN hsub, mul_of_isNaN h, isNaN_nan]
  exact ⟨rfl, rfl, rfl⟩

theorem specialValues_inf_inf (o : Occ) (ha : isInf a = true) (hb : isInf b = true) :
    (sign a = sign b → add o a b = a ∧ isNaN (sub o a b) = true) ∧
      (sign a ≠ sign b → isNaN (add o a b) = true ∧ sub o a b = a) := by
  have hnan := isNaN_eq_false_of_isInf hb
  rw [sub, add_inf_left ha hnan, add_inf_left ha (by rwa [isNaN_neg]), isInf_neg, sign_neg]
  constructor
  · intro h
    simp [hb, h]
  · intro h
    simp [hb, Bool.eq_not.2 h]

theorem specialValues_inf_finite (o : Occ) (ha : isInf a = true) (hb : isFinite b = true) :
    add o a b = a ∧ add o b a = a ∧ sub o a b = a ∧ sub o b a = neg a :=
  ⟨add_inf_finite ha hb, add_finite_inf hb ha, add_inf_finite ha (by rwa [isFinite_neg]),
    add_finite_inf hb (by rwa [isInf_neg])⟩

/-- Settles O47: by the classes of the operands. -/
theorem specialValuesPropagate : Obligations.SpecialValuesPropagate := by
  intro o a b
  refine ⟨specialValues_nan o, fun ha hb => ?_, fun ha hb => ?_⟩
  · obtain ⟨hsame, hopposite⟩ := specialValues_inf_inf o ha hb
    obtain ⟨hinf, hsign⟩ := mul_inf_left_isInf (o := o) ha (isNaN_eq_false_of_isInf hb)
      (fun h => absurd h (by simp [isFinite_eq_false_of_isInf hb]))
    exact ⟨hsame, hopposite, hinf, hsign⟩
  · obtain ⟨hadd, hadd', hsub, hsub'⟩ := specialValues_inf_finite o ha hb
    have hnan := isNaN_eq_false_of_isFinite hb
    rw [mul_comm_operands o b a]
    refine ⟨hadd, hadd', hsub, hsub', fun hzero => ?_, fun hne => ?_⟩
    · rw [mul_inf_left ha hnan, if_pos ⟨hb, hzero⟩]
      exact ⟨isNaN_nan o, isNaN_nan o⟩
    · obtain ⟨hinf, hsign⟩ := mul_inf_left_isInf (o := o) ha hnan fun _ => hne
      exact ⟨hinf, hinf, hsign, hsign⟩

/-! ## One rounding -/

/-- The sign of the sum of two finite values: of the exact sum, and of both operands where it is zero (R128). -/
def sumSign (a b : Scalar) : Bool := if units a + units b = 0 then sign a && sign b else decide (units a + units b < 0)

theorem addFinite_eq (a b : Scalar) :
    addFinite a b = pack (sumSign a b) (roundMagnitude (units a + units b).natAbs 0) := by
  unfold addFinite sumSign
  dsimp only
  split_ifs with h
  · rw [h]; rfl
  · rfl

theorem signed_sumSign (a b : Scalar) : signed (sumSign a b) (units a + units b).natAbs = units a + units b := by
  unfold sumSign
  split_ifs with hzero
  · rw [hzero]; cases sign a && sign b <;> rfl
  · unfold signed
    split_ifs with hneg <;> rw [decide_eq_true_eq] at hneg <;> omega

theorem roundsOnce_add (ha : isFinite a = true) (hb : isFinite b = true) : RoundsOnce (add o a b) 0 (units a + units b) := by
  have h := roundsOnce_pack (sumSign a b) (units a + units b).natAbs 0
  rwa [signed_sumSign, ← addFinite_eq, ← add_finite ha hb] at h

theorem sign_pack_roundMagnitude (negative : Bool) (m s : Nat) : sign (pack negative (roundMagnitude m s)) = negative :=
  sign_pack ((roundMagnitude_le_infinityBits m s).trans_lt infinityBits_lt)

theorem sign_add_of_ne_zero (ha : isFinite a = true) (hb : isFinite b = true) (h : units a + units b ≠ 0) :
    sign (add o a b) = decide (units a + units b < 0) := by
  rw [add_finite ha hb, addFinite_eq, sign_pack_roundMagnitude, sumSign, if_neg h]

theorem add_of_sum_zero (ha : isFinite a = true) (hb : isFinite b = true) (h : units a + units b = 0) :
    add o a b = if sign a && sign b then 0x8000000000000000#64 else 0#64 := by
  rw [add_finite ha hb, addFinite, if_pos h]
  cases sign a && sign b <;> rfl

theorem threshold_pos : (0 : ℤ) < 2 ^ 2098 - 2 ^ 2044 :=
  sub_pos.2 (pow_lt_pow_right₀ (by decide) (by decide))

/-- Settles O48: the sum is one rounding of the exact sum; the sign is the exact sum's, which is not 0 at the threshold. -/
theorem addRoundsOnceToNearestEven : Obligations.AddRoundsOnceToNearestEven := by
  intro o a b ha hb sum
  obtain ⟨hbelow, habove⟩ := roundsOnce_add (o := o) ha hb
  simp only [NearestEven, pow_zero, mul_one] at hbelow habove
  refine ⟨hbelow, fun h => ⟨habove h, sign_add_of_ne_zero ha hb ?_⟩, add_of_sum_zero ha hb⟩
  exact abs_pos.1 (threshold_pos.trans_le h)

/-- Settles O60: the difference is the sum with the second operand's sign flipped. -/
theorem subRoundsOnceToNearestEven : Obligations.SubRoundsOnceToNearestEven := by
  intro o a b ha hb difference
  have hdifference : difference = units a + units (neg b) := by rw [units_neg, ← sub_eq_add_neg]
  obtain ⟨hbelow, habove, hzero⟩ := addRoundsOnceToNearestEven o a (neg b) ha (by rwa [isFinite_neg])
  rw [← hdifference, sign_neg] at hzero
  rw [← hdifference] at hbelow habove
  refine ⟨hbelow, habove, hzero, ?_, ?_⟩
  · have hself : units a + units (neg a) = 0 := by rw [units_neg, add_neg_cancel]
    rw [sub, add_of_sum_zero ha (by rwa [isFinite_neg]) hself, sign_neg, Bool.and_not_self, if_neg Bool.false_ne_true]
  · rw [sub, add_of_sum_zero] <;> rfl

theorem signed_mul_signed (negative negative' : Bool) (m m' : Nat) :
    signed negative m * signed negative' m' = signed (negative != negative') (m * m') := by
  cases negative <;> cases negative' <;> simp [signed]

theorem roundsOnce_mul (ha : isFinite a = true) (hb : isFinite b = true) :
    RoundsOnce (mul o a b) 1074 (units a * units b) := by
  rw [mul_finite ha hb, units_eq_signed, units_eq_signed, signed_mul_signed]
  exact roundsOnce_pack _ _ _

/-- Settles O49: the product of the magnitudes, rounded once, with the exclusive or of the signs. -/
theorem mulRoundsOnceToNearestEven : Obligations.MulRoundsOnceToNearestEven := by
  intro o a b ha hb product scaled
  obtain ⟨hbelow, habove⟩ := roundsOnce_mul (o := o) ha hb
  refine ⟨?_, hbelow, habove⟩
  rw [mul_finite ha hb, sign_pack_roundMagnitude]

end Sys2Proof.Machine.Binary64
end

section
/-! The butterfly family, the exact datapath: each micro-operation is the operation of the complex numbers it stands for, and so
is the radix-4 butterfly (R127 to R134, R138). -/

namespace Sys2Proof.Machine

variable (o : Occ) (d : Direction) (w z : Cplx ℝ)

@[simp] theorem toComplex_cadd : toComplex (cadd exactReal o w z) = toComplex w + toComplex z := rfl

@[simp] theorem toComplex_csub : toComplex (csub exactReal o w z) = toComplex w - toComplex z := rfl

@[simp] theorem toComplex_cmul : toComplex (cmul exactReal o w z) = toComplex w * toComplex z := rfl

/-- ROT90 turns by a quarter in the direction of the transform (R131). -/
@[simp] theorem toComplex_rot90 : toComplex (rot90 exactReal d z) = directionSign d * Complex.I * toComplex z := by
  cases d <;> apply Complex.ext <;> simp [toComplex, rot90, exactReal, directionSign]

theorem directionSign_mul_I_sq : ((directionSign d : ℂ) * Complex.I) ^ 2 = -1 := by
  cases d <;> simp [directionSign]

/-- Settles O56: the four results as complex sums, with the powers of `J` reduced by `J ^ 2 = -1`. -/
theorem exactRadixFourButterflyCombines : Obligations.ExactRadixFourButterflyCombines := by
  intro o d w1 w2 w3 a b c dd x J y
  have hJ : J ^ 2 = -1 := directionSign_mul_I_sq d
  have hJ3 : J ^ 3 = -J := by rw [pow_succ, hJ, neg_one_mul]
  have hJ4 : J ^ 4 = 1 := by rw [pow_mul J 2 2, hJ]; norm_num
  have hJ6 : J ^ 6 = -1 := by rw [pow_mul J 2 3, hJ]; norm_num
  have hJ9 : J ^ 9 = J := by rw [pow_succ, pow_mul J 2 4, hJ]; norm_num
  simp only [x, y, radix4, toComplex_cadd, toComplex_csub, toComplex_cmul, toComplex_rot90, Nat.reduceMul, pow_zero, pow_one,
    hJ, hJ3, hJ4, hJ6, hJ9]
  refine ⟨?_, ?_, ?_, ?_⟩ <;> ring

end Sys2Proof.Machine
end

section
/-! The RUN family: what a butterfly leaves in its slots, a pass as its butterflies taken all at once, and what RUN leaves in
OBUF: at the sizes without passes, whatever OBUF held before, and in every element. -/

namespace Sys2Proof.Machine

/-! ## The slots of a butterfly -/

section
variable {β : Type} {r q b k i p n : Nat}

/-- In blocks of `r * q` slots, `p` is one of the slots `k`, `k + q`, `k + 2 * q`, .. of block `b`: those of the butterfly
`(b, k)` (R155, R157). -/
def OwnsSlot (r q b k p : Nat) : Prop := p / (r * q) = b ∧ p % q = k

theorem ownsSlot_part (hk : k < q) (hi : i < r) : OwnsSlot r q b k (b * (r * q) + k + i * q) := by
  have hlt : k + i * q < r * q := by nlinarith
  constructor
  · rw [Nat.add_assoc, Nat.mul_comm b, Nat.mul_add_div (by omega), Nat.div_eq_of_lt hlt, Nat.add_zero]
  · rw [Nat.add_mul_mod_self_right, ← Nat.mul_assoc, Nat.mul_add_mod', Nat.mod_eq_of_lt hk]

theorem ownsSlot_first (hk : k < q) (hr : 0 < r) : OwnsSlot r q b k (b * (r * q) + k) := by
  simpa using ownsSlot_part (b := b) hk hr

theorem ownsSlot_second (hk : k < q) (hr : 1 < r) : OwnsSlot r q b k (b * (r * q) + k + q) := by
  simpa using ownsSlot_part (b := b) hk hr

/-- A slot from its block, its offset in a part and its part. -/
theorem slot_eq (r q p : Nat) : p / (r * q) * (r * q) + p % q + p % (r * q) / q * q = p := by
  have hoffset : p % (r * q) % q = p % q := Nat.mod_mod_of_dvd p (Dvd.intro_left r rfl)
  rw [← hoffset, Nat.add_assoc, Nat.mod_add_div', Nat.div_add_mod']

theorem part_lt (hq : 0 < q) (hr : 0 < r) : p % (r * q) / q < r :=
  Nat.div_lt_of_lt_mul (by rw [Nat.mul_comm q]; exact Nat.mod_lt p (Nat.mul_pos hr hq))

/-- No butterfly owns a slot at or beyond `n` (R162). -/
theorem not_ownsSlot_of_le (hb : b < n / (r * q)) (hp : n ≤ p) : ¬ OwnsSlot r q b k p := by
  rintro ⟨rfl, -⟩
  exact absurd hb (not_lt.2 (Nat.div_le_div_right hp))

/-- Every `f b k` touches the slots of the butterfly `(b, k)` only. -/
def TouchesOwnSlots (r q : Nat) (f : Nat → Nat → Memory β → Memory β) : Prop :=
  ∀ b k t p, k < q → ¬ OwnsSlot r q b k p → Memory.read (f b k t) p = Memory.read t p

/-- A slot of butterfly `(b, k)` holds after the sweep what it makes of the memory before: no slot has two owners (R135). -/
theorem TouchesOwnSlots.read_loop {f : Nat → Nat → Memory β → Memory β} {m : Memory β} (hf : TouchesOwnSlots r q f)
    (hb : b < n / (r * q)) (hk : k < q) {v : Option β}
    (hv : ∀ t, (∀ p, OwnsSlot r q b k p → Memory.read t p = Memory.read m p) → Memory.read (f b k t) p = v)
    (hp : OwnsSlot r q b k p) : Memory.read (loop (n / (r * q)) (fun b t => loop q (f b) t) m) p = v :=
  read_sweep (fun b k t p _ => hf b k t p)
    (fun _ _ _ _ _ _ _ h h' => ⟨h.1.symm.trans h'.1, h.2.symm.trans h'.2⟩) hb hk hp hv

theorem TouchesOwnSlots.read_loop_beyond {f : Nat → Nat → Memory β → Memory β} {m : Memory β}
    (hf : TouchesOwnSlots r q f) (hp : n ≤ p) :
    Memory.read (loop (n / (r * q)) (fun b t => loop q (f b) t) m) p = Memory.read m p :=
  loop_read_untouched fun b _ hb => loop_read_untouched fun k t hk => hf b k t p hk (not_ownsSlot_of_le hb hp)

end

section
variable {α : Type} (A : Arith α) (o : Occ) (draw n : Nat) (tw : Memory α) (d : Direction) (m : Memory (Cplx α))

/-- The index of TWLOOKUP counts modulo `n` only (R97). -/
theorem twlookup_mod (r : Nat) : twlookup A n tw d ((r % n : Nat) : Int) = twlookup A n tw d (r : Int) := by
  simp [twlookup]

/-! ## A radix-2 pass -/

/-- BFLY2 puts its results in its two slots: both, or that there is neither. -/
theorem bfly2_eq_put (p0 p1 r : Nat) : bfly2 A o n tw d p0 p1 r m =
    let x := bfly2Results A o (twlookup A n tw d r) (Memory.read m p0) (Memory.read m p1)
    Memory.put (Memory.put m p0 (x.map (·.1))) p1 (x.map (·.2)) := by
  unfold bfly2
  cases Memory.read m p0 with
  | none => rfl
  | some e =>
  cases Memory.read m p1 with
  | none => rfl
  | some odd =>
  cases twlookup A n tw d r with
  | none => rfl
  | some w => rfl

/-- Butterfly `(b, k)` of the radix-2 pass at block size `2 * q`. -/
def passBfly2 (q b k : Nat) : Memory (Cplx α) → Memory (Cplx α) :=
  bfly2 A ⟨draw, 2 * q, b * (2 * q) + k, 0⟩ n tw d (b * (2 * q) + k) (b * (2 * q) + k + q) (k * (n / (2 * q)) % n)

theorem pass2_eq_loop (q : Nat) : pass2 A draw n tw d (2 * q) m =
    loop (n / (2 * q)) (fun b t => loop q (passBfly2 A draw n tw d q b) t) m := by
  have hhalf : 2 * q / 2 = q := by omega
  simp only [pass2, hhalf]
  rfl

/-- The results of butterfly `(b, k)`, from OBUF before the pass. -/
def passResults2 (q b k : Nat) : Option (Cplx α × Cplx α) :=
  bfly2Results A ⟨draw, 2 * q, b * (2 * q) + k, 0⟩ (twlookup A n tw d ((k * (n / (2 * q)) : Nat) : Int))
    (Memory.read m (b * (2 * q) + k)) (Memory.read m (b * (2 * q) + k + q))

variable {q b k : Nat}

theorem touchesOwnSlots_passBfly2 : TouchesOwnSlots 2 q (passBfly2 A draw n tw d q) := fun _ _ _ _ hk hp =>
  read_bfly2_other _ _ _ _ _ _ _ (fun h => hp (h ▸ ownsSlot_first hk two_pos))
    (fun h => hp (h ▸ ownsSlot_second hk one_lt_two))

/-- The butterfly on a memory that agrees with `m` in its slots. -/
theorem passBfly2_eq_put (hk : k < q) {t : Memory (Cplx α)}
    (ht : ∀ p, OwnsSlot 2 q b k p → Memory.read t p = Memory.read m p) : passBfly2 A draw n tw d q b k t =
      Memory.put (Memory.put t (b * (2 * q) + k) ((passResults2 A draw n tw d m q b k).map (·.1)))
        (b * (2 * q) + k + q) ((passResults2 A draw n tw d m q b k).map (·.2)) := by
  rw [passBfly2, bfly2_eq_put, twlookup_mod, ht _ (ownsSlot_first hk two_pos), ht _ (ownsSlot_second hk one_lt_two)]
  rfl

/-- A radix-2 pass leaves in the two slots of each butterfly its results. -/
theorem read_pass2_slots (hb : b < n / (2 * q)) (hk : k < q) :
    Memory.read (pass2 A draw n tw d (2 * q) m) (b * (2 * q) + k) = (passResults2 A draw n tw d m q b k).map (·.1) ∧
    Memory.read (pass2 A draw n tw d (2 * q) m) (b * (2 * q) + k + q) =
      (passResults2 A draw n tw d m q b k).map (·.2) := by
  have hown := touchesOwnSlots_passBfly2 A draw n tw d (q := q)
  rw [pass2_eq_loop]
  refine ⟨hown.read_loop hb hk (fun t ht => ?_) (ownsSlot_first hk two_pos),
    hown.read_loop hb hk (fun t ht => ?_) (ownsSlot_second hk one_lt_two)⟩
  · have hne : b * (2 * q) + k ≠ b * (2 * q) + k + q := by omega
    rw [passBfly2_eq_put A draw n tw d m hk ht, Memory.read_put, if_neg hne, Memory.read_put, if_pos rfl]
  · rw [passBfly2_eq_put A draw n tw d m hk ht, Memory.read_put, if_pos rfl]

/-- A radix-2 pass as all its butterflies at once (R160). -/
theorem read_pass2 (hlen : 2 * q ∣ n) (p : Nat) : Memory.read (pass2 A draw n tw d (2 * q) m) p =
    if p < n then pass2At A draw n tw d (2 * q) m p else Memory.read m p := by
  split
  next hp =>
    have hhalf : 2 * q / 2 = q := by omega
    have hq := pos_of_mul_dvd hlen hp
    obtain ⟨h0, h1⟩ := read_pass2_slots A draw n tw d m (Nat.div_lt_div_of_lt_of_dvd hlen hp) (Nat.mod_lt p hq)
    have hslot := slot_eq 2 q p
    simp only [pass2At, hhalf, twlookup_mod]
    split
    next hfirst =>
      rw [Nat.div_eq_of_lt hfirst, Nat.zero_mul, Nat.add_zero] at hslot
      rwa [hslot] at h0
    next hsecond =>
      have hpart : p % (2 * q) / q = 1 :=
        le_antisymm (Nat.lt_succ_iff.1 (part_lt hq two_pos)) (Nat.div_pos (not_lt.1 hsecond) hq)
      rw [hpart, Nat.one_mul] at hslot
      rwa [hslot] at h1
  next hp =>
    rw [pass2_eq_loop]
    exact (touchesOwnSlots_passBfly2 A draw n tw d).read_loop_beyond (not_lt.1 hp)

/-! ## A radix-4 pass -/

/-- BFLY4 puts its results in its four slots: all, or that there is none. -/
theorem bfly4_eq_put (p0 p1 p2 p3 r1 r2 r3 : Nat) : bfly4 A o n tw d p0 p1 p2 p3 r1 r2 r3 m =
    let x := bfly4Results A o d (twlookup A n tw d r1) (twlookup A n tw d r2) (twlookup A n tw d r3)
      (Memory.read m p0) (Memory.read m p1) (Memory.read m p2) (Memory.read m p3)
    Memory.put (Memory.put (Memory.put (Memory.put m p0 (x.map (·.1))) p1 (x.map (·.2.1))) p2 (x.map (·.2.2.1)))
      p3 (x.map (·.2.2.2)) := by
  unfold bfly4
  cases Memory.read m p0 with
  | none => rfl
  | some a =>
  cases Memory.read m p1 with
  | none => rfl
  | some b =>
  cases Memory.read m p2 with
  | none => rfl
  | some c =>
  cases Memory.read m p3 with
  | none => rfl
  | some e =>
  cases twlookup A n tw d r1 with
  | none => rfl
  | some w1 =>
  cases twlookup A n tw d r2 with
  | none => rfl
  | some w2 =>
  cases twlookup A n tw d r3 with
  | none => rfl
  | some w3 => rfl

/-- Butterfly `(b, k)` of the radix-4 pass at block size `4 * q`. -/
def passBfly4 (q b k : Nat) : Memory (Cplx α) → Memory (Cplx α) :=
  bfly4 A ⟨draw, 4 * q, b * (4 * q) + k, 0⟩ n tw d (b * (4 * q) + k) (b * (4 * q) + k + q) (b * (4 * q) + k + 2 * q)
    (b * (4 * q) + k + 3 * q) (k * (n / (4 * q)) % n) (k * (2 * (n / (4 * q))) % n) (k * (3 * (n / (4 * q))) % n)

theorem pass4_eq_loop (q : Nat) : pass4 A draw n tw d (4 * q) m =
    loop (n / (4 * q)) (fun b t => loop q (passBfly4 A draw n tw d q b) t) m := by
  have hquarter : 4 * q / 4 = q := by omega
  simp only [pass4, hquarter]
  rfl

/-- The results of butterfly `(b, k)`, from OBUF before the pass. -/
def passResults4 (q b k : Nat) : Option (Cplx α × Cplx α × Cplx α × Cplx α) :=
  bfly4Results A ⟨draw, 4 * q, b * (4 * q) + k, 0⟩ d (twlookup A n tw d ((k * (n / (4 * q)) : Nat) : Int))
    (twlookup A n tw d ((k * (2 * (n / (4 * q))) : Nat) : Int)) (twlookup A n tw d ((k * (3 * (n / (4 * q))) : Nat) : Int))
    (Memory.read m (b * (4 * q) + k)) (Memory.read m (b * (4 * q) + k + q))
    (Memory.read m (b * (4 * q) + k + 2 * q)) (Memory.read m (b * (4 * q) + k + 3 * q))

theorem touchesOwnSlots_passBfly4 : TouchesOwnSlots 4 q (passBfly4 A draw n tw d q) := fun _ _ _ _ hk hp =>
  read_bfly4_other _ _ _ _ _ _ _ _ _ (fun h => hp (h ▸ ownsSlot_first hk (by decide)))
    (fun h => hp (h ▸ ownsSlot_second hk (by decide))) (fun h => hp (h ▸ ownsSlot_part hk (by decide)))
    (fun h => hp (h ▸ ownsSlot_part hk (by decide)))

theorem passBfly4_eq_put (hk : k < q) {t : Memory (Cplx α)}
    (ht : ∀ p, OwnsSlot 4 q b k p → Memory.read t p = Memory.read m p) : passBfly4 A draw n tw d q b k t =
      Memory.put (Memory.put (Memory.put (Memory.put t
        (b * (4 * q) + k) ((passResults4 A draw n tw d m q b k).map (·.1)))
        (b * (4 * q) + k + q) ((passResults4 A draw n tw d m q b k).map (·.2.1)))
        (b * (4 * q) + k + 2 * q) ((passResults4 A draw n tw d m q b k).map (·.2.2.1)))
        (b * (4 * q) + k + 3 * q) ((passResults4 A draw n tw d m q b k).map (·.2.2.2)) := by
  rw [passBfly4, bfly4_eq_put, twlookup_mod, twlookup_mod, twlookup_mod, ht _ (ownsSlot_first hk (by decide)),
    ht _ (ownsSlot_second hk (by decide)), ht _ (ownsSlot_part hk (by decide)), ht _ (ownsSlot_part hk (by decide))]
  rfl

/-- A radix-4 pass leaves in the four slots of each butterfly its results. -/
theorem read_pass4_slots (hb : b < n / (4 * q)) (hk : k < q) :
    Memory.read (pass4 A draw n tw d (4 * q) m) (b * (4 * q) + k) = (passResults4 A draw n tw d m q b k).map (·.1) ∧
    Memory.read (pass4 A draw n tw d (4 * q) m) (b * (4 * q) + k + q) =
      (passResults4 A draw n tw d m q b k).map (·.2.1) ∧
    Memory.read (pass4 A draw n tw d (4 * q) m) (b * (4 * q) + k + 2 * q) =
      (passResults4 A draw n tw d m q b k).map (·.2.2.1) ∧
    Memory.read (pass4 A draw n tw d (4 * q) m) (b * (4 * q) + k + 3 * q) =
      (passResults4 A draw n tw d m q b k).map (·.2.2.2) := by
  have hq : q ≠ 0 := by omega
  have hown := touchesOwnSlots_passBfly4 A draw n tw d (q := q)
  rw [pass4_eq_loop]
  refine ⟨hown.read_loop hb hk (fun t ht => ?_) (ownsSlot_first hk (by decide)),
    hown.read_loop hb hk (fun t ht => ?_) (ownsSlot_second hk (by decide)),
    hown.read_loop hb hk (fun t ht => ?_) (ownsSlot_part hk (by decide)),
    hown.read_loop hb hk (fun t ht => ?_) (ownsSlot_part hk (by decide))⟩ <;>
  simp [passBfly4_eq_put A draw n tw d m hk ht, Memory.read_put, hq]

/-- A radix-4 pass as all its butterflies at once (R160). -/
theorem read_pass4 (hlen : 4 * q ∣ n) (p : Nat) : Memory.read (pass4 A draw n tw d (4 * q) m) p =
    if p < n then pass4At A draw n tw d (4 * q) m p else Memory.read m p := by
  split
  next hp =>
    have hquarter : 4 * q / 4 = q := by omega
    have hq := pos_of_mul_dvd hlen hp
    obtain ⟨h0, h1, h2, h3⟩ :=
      read_pass4_slots A draw n tw d m (Nat.div_lt_div_of_lt_of_dvd hlen hp) (Nat.mod_lt p hq)
    have hpart : p % (4 * q) / q < 4 := part_lt hq (by decide)
    have hslot := slot_eq 4 q p
    simp only [pass4At, hquarter, twlookup_mod]
    generalize p % (4 * q) / q = i at hpart hslot ⊢
    match i, hpart with
    | 0, _ => rw [Nat.zero_mul, Nat.add_zero] at hslot; rwa [hslot] at h0
    | 1, _ => rw [Nat.one_mul] at hslot; rwa [hslot] at h1
    | 2, _ => rwa [hslot] at h2
    | 3, _ => rwa [hslot] at h3
  next hp =>
    rw [pass4_eq_loop]
    exact (touchesOwnSlots_passBfly4 A draw n tw d).read_loop_beyond (not_lt.1 hp)

end

/-- Settles O50: no slot has two owners, so each butterfly finds its operands as they were before the pass. -/
theorem radixTwoPassEqualsSimultaneousButterflies : Obligations.RadixTwoPassEqualsSimultaneousButterflies := by
  rintro α A draw n len tw d m ⟨q, rfl⟩ hlen -
  refine ⟨read_pass2 A draw n tw d m hlen, fun b k e odd w hb hk he hodd hw => ?_⟩
  have hhalf : 2 * q / 2 = q := by omega
  rw [hhalf] at hk hodd ⊢
  obtain ⟨h0, h1⟩ := read_pass2_slots A draw n tw d m hb hk
  rw [passResults2, he, hodd, hw] at h0 h1
  exact ⟨Occ.plus ⟨draw, 2 * q, b * (2 * q) + k, 0⟩, h0, h1⟩

/-- Settles O51: likewise for the four slots of a radix-4 butterfly. -/
theorem radixFourPassEqualsSimultaneousButterflies : Obligations.RadixFourPassEqualsSimultaneousButterflies := by
  rintro α A draw n len tw d m ⟨q, rfl⟩ hlen -
  refine ⟨read_pass4 A draw n tw d m hlen, fun b k x0 x1 x2 x3 w1 w2 w3 hb hk h0 h1 h2 h3 hw1 hw2 hw3 => ?_⟩
  have hquarter : 4 * q / 4 = q := by omega
  rw [hquarter] at hk h1 h2 h3 ⊢
  rw [Nat.mul_comm 2 k, Nat.mul_assoc] at hw2
  rw [Nat.mul_comm 3 k, Nat.mul_assoc] at hw3
  have hslots := read_pass4_slots A draw n tw d m hb hk
  rw [passResults4, h0, h1, h2, h3, hw1, hw2, hw3] at hslots
  refine ⟨Occ.plus ⟨draw, 4 * q, b * (4 * q) + k, 0⟩, ?_⟩
  cases d <;> exact hslots

/-! ## RUN at the sizes without passes -/

/-- RUN changes nothing else than OBUF (R166). -/
theorem sameButObuf_runEffect (d : Direction) (s : State) : s.sameButObuf (runEffect d s) := rfl

/-- Settles O19: SMALL1 puts the element 0 of IBUF in OBUF and leaves the other elements. -/
theorem runOfSizeOneCopies : Obligations.RunOfSizeOneCopies := by
  intro d s hp hn
  have hobuf : (runEffect d s).obuf = Memory.put s.obuf 0 (Memory.read s.ibuf 0) := by rw [runEffect_obuf, hn]; rfl
  refine ⟨_, exec_run_of_length d hp (by rw [hn]; rfl), fun z hz => ?_, fun j hj => ?_, sameButObuf_runEffect d s⟩
  · rw [hobuf, Memory.read_put, if_pos rfl, hz]
  · rw [hobuf, Memory.read_put, if_neg hj]

/-- SMALL2 on two written elements. -/
theorem small2_of_written {α : Type} (A : Arith α) (draw : Nat) {ibuf : Memory (Cplx α)} (obuf : Memory (Cplx α))
    {a b : Cplx α} (ha : Memory.read ibuf 0 = some a) (hb : Memory.read ibuf 1 = some b) : small2 A draw ibuf obuf =
      Memory.write (Memory.write obuf 0 (cadd A ⟨draw, 2, 0, 0⟩ a b)) 1 (csub A ⟨draw, 2, 0, 2⟩ a b) := by
  simp only [small2, ha, hb]

/-- Settles O20: SMALL2 writes the sum and the difference in the elements 0 and 1 and leaves the other elements. -/
theorem runOfSizeTwoAddsAndSubtracts : Obligations.RunOfSizeTwoAddsAndSubtracts := by
  intro d s a b hp hn ha hb
  have hobuf : (runEffect d s).obuf = small2 binary64 s.draws s.ibuf s.obuf := by rw [runEffect_obuf, hn]; rfl
  rw [small2_of_written binary64 s.draws s.obuf ha hb] at hobuf
  refine ⟨_, ⟨s.draws, 2, 0, 0⟩, ⟨s.draws, 2, 0, 1⟩, ⟨s.draws, 2, 0, 2⟩, ⟨s.draws, 2, 0, 3⟩,
    exec_run_of_length d hp (by rw [hn]; rfl), ?_, ?_, fun j hj => ?_, sameButObuf_runEffect d s⟩
  · rw [hobuf, Memory.read_write_other (by decide), Memory.read_write_same]; rfl
  · rw [hobuf, Memory.read_write_same]; rfl
  · rw [hobuf, Memory.read_write_other (by omega), Memory.read_write_other (by omega)]

/-! ## The previous contents of OBUF -/

/-- Within one command, equal operands give equal results. -/
theorem respects_eq {α : Type} (A : Arith α) (draw : Nat) : A.Respects Eq draw draw where
  refl _ := rfl
  neg := congrArg _
  add := congrArg₂ _
  sub := congrArg₂ _
  mul := congrArg₂ _

theorem eq_of_partsRelated_eq {α : Type} {x x' : Option (Cplx α)} (h : Option.Rel (partsRelated Eq) x x') : x = x' := by
  cases h with
  | none => rfl
  | some h => obtain ⟨hre, him⟩ := h; exact congrArg some (congrArg₂ Cplx.mk hre him)

/-- Settles O52: two runs of one command on two OBUFs leave results that are equal below N. -/
theorem runIgnoresThePreviousObuf : Obligations.RunIgnoresThePreviousObuf := by
  intro d len s t old _ hp hlen ht
  rw [exec_run_of_length d hp hlen] at ht
  cases ht
  refine ⟨_, exec_run_of_length (s := { s with obuf := old }) d hp hlen, fun k hk => ?_⟩
  exact eq_of_partsRelated_eq (runBody_agree (respects_eq binary64 s.draws) s.tw d _ s.perm s.ibuf k hk)

/-! ## A value in every element -/

section
variable {α : Type} {n : Nat} {m : Memory α}

/-- Every element below `n` holds a value. -/
def Memory.Filled (n : Nat) (m : Memory α) : Prop := ∀ k, k < n → ∃ v, Memory.read m k = some v

theorem Memory.Filled.write (h : Memory.Filled n m) (i : Nat) (v : α) : Memory.Filled n (Memory.write m i v) := by
  intro k hk
  rw [Memory.read_write]
  split
  · exact ⟨v, rfl⟩
  · exact h k hk

/-- TWLOOKUP answers for every index. -/
def TwiddlesDefined (A : Arith α) (n : Nat) (tw : Memory α) (d : Direction) : Prop :=
  ∀ r, ∃ w, twlookup A n tw d r = some w

end

section
variable {α : Type} {A : Arith α} {draw n : Nat} {tw : Memory α} {d : Direction} {m : Memory (Cplx α)}
variable (hw : TwiddlesDefined A n tw d)
include hw

theorem bfly2_filled (o : Occ) {p0 p1 : Nat} (r : Nat) (h0 : p0 < n) (h1 : p1 < n) (h : Memory.Filled n m) :
    Memory.Filled n (bfly2 A o n tw d p0 p1 r m) := by
  obtain ⟨e, he⟩ := h p0 h0
  obtain ⟨odd, hodd⟩ := h p1 h1
  obtain ⟨w, hw⟩ := hw r
  simp only [bfly2, he, hodd, hw]
  exact (h.write _ _).write _ _

theorem bfly4_filled (o : Occ) {p0 p1 p2 p3 : Nat} (r1 r2 r3 : Nat) (h0 : p0 < n) (h1 : p1 < n) (h2 : p2 < n)
    (h3 : p3 < n) (h : Memory.Filled n m) : Memory.Filled n (bfly4 A o n tw d p0 p1 p2 p3 r1 r2 r3 m) := by
  obtain ⟨a, ha⟩ := h p0 h0
  obtain ⟨b, hb⟩ := h p1 h1
  obtain ⟨c, hc⟩ := h p2 h2
  obtain ⟨e, he⟩ := h p3 h3
  obtain ⟨w1, hw1⟩ := hw r1
  obtain ⟨w2, hw2⟩ := hw r2
  obtain ⟨w3, hw3⟩ := hw r3
  simp only [bfly4, ha, hb, hc, he, hw1, hw2, hw3]
  exact (((h.write _ _).write _ _).write _ _).write _ _

theorem pass2_filled (len : Nat) (h : Memory.Filled n m) : Memory.Filled n (pass2 A draw n tw d len m) :=
  loop_keeps h fun b _ hb ht => loop_keeps ht fun k _ hk ht => by
    have h0 := slot_lt hb (x := k) (by omega)
    have h1 := slot_lt hb (x := k + len / 2) (by omega)
    exact bfly2_filled hw _ _ h0 (by omega) ht

theorem pass4_filled (len : Nat) (h : Memory.Filled n m) : Memory.Filled n (pass4 A draw n tw d len m) :=
  loop_keeps h fun b _ hb ht => loop_keeps ht fun k _ hk ht => by
    have h0 := slot_lt hb (x := k) (by omega)
    have h1 := slot_lt hb (x := k + len / 4) (by omega)
    have h2 := slot_lt hb (x := k + 2 * (len / 4)) (by omega)
    have h3 := slot_lt hb (x := k + 3 * (len / 4)) (by omega)
    exact bfly4_filled hw _ _ _ _ h0 (by omega) (by omega) (by omega) ht

theorem sched_filled (rdx : Radix) (h : Memory.Filled n m) : Memory.Filled n (sched A draw n rdx tw d m) := by
  cases rdx with
  | r2 => exact loop_keeps h fun _ _ _ => pass2_filled hw _
  | r4 =>
    have hfours : Memory.Filled n (loop (Nat.log2 n / 2) (fun p obuf => pass4 A draw n tw d (4 ^ (p + 1)) obuf) m) :=
      loop_keeps h fun _ _ _ => pass4_filled hw _
    simp only [sched, sched4]
    split
    · exact pass2_filled hw n hfours
    · exact hfours

end

section
variable {α : Type} {ibuf : Memory (Cplx α)} (obuf : Memory (Cplx α))

/-- The entries of the built table are indices below its size, whose elements of IBUF hold values. -/
theorem permute_filled (rdx : Radix) (l : Nat) (h : Memory.Filled (2 ^ l) ibuf) :
    Memory.Filled (2 ^ l) (permute (2 ^ l) (permgen rdx (2 ^ l) []) ibuf obuf) := by
  intro k hk
  rw [read_permute, if_pos hk, read_permgen, if_pos hk]
  exact h _ (permEntry_lt rdx hk)

theorem small1_filled (h : Memory.Filled 1 ibuf) : Memory.Filled 1 (small1 ibuf obuf) := by
  intro k hk
  obtain rfl : k = 0 := by omega
  rw [small1, Memory.read_put, if_pos rfl]
  exact h 0 one_pos

theorem small2_filled (A : Arith α) (draw : Nat) (h : Memory.Filled 2 ibuf) :
    Memory.Filled 2 (small2 A draw ibuf obuf) := by
  obtain ⟨a, ha⟩ := h 0 two_pos
  obtain ⟨b, hb⟩ := h 1 one_lt_two
  intro k hk
  rw [small2_of_written A draw obuf ha hb, Memory.read_write, Memory.read_write]
  split_ifs with h1 h0
  · exact ⟨_, rfl⟩
  · exact ⟨_, rfl⟩
  · omega

/-- RUNBODY fills OBUF from a filled IBUF with the tables that PREPARE builds for sizes of 4 and more. -/
theorem runBody_filled (A : Arith α) (draw l : Nat) (rdx : Radix) (d : Direction) {perm : Memory Nat} {tw : Memory α}
    (htables : 4 ≤ 2 ^ l → tw = twgen A (2 ^ l) [] ∧ perm = permgen rdx (2 ^ l) []) (h : Memory.Filled (2 ^ l) ibuf) :
    Memory.Filled (2 ^ l) (runBody A draw (2 ^ l) rdx d perm tw ibuf obuf) := by
  match l with
  | 0 => exact small1_filled obuf h
  | 1 => exact small2_filled obuf A draw h
  | l + 2 =>
    have h4 : 4 ≤ 2 ^ (l + 2) := Nat.pow_le_pow_right two_pos (Nat.le_add_left 2 l)
    obtain ⟨rfl, rfl⟩ := htables h4
    have hw : TwiddlesDefined A (2 ^ (l + 2)) (twgen A (2 ^ (l + 2)) []) d := fun r =>
      ⟨_, twlookup_of_table A h4 (read_twgen_of_le A _) d r⟩
    rw [runBody, if_neg (by omega), if_neg (by omega)]
    exact sched_filled hw rdx (permute_filled obuf rdx (l + 2) h)

end

/-- Settles O54: the invariant gives the size and its tables, with which each pass keeps OBUF filled. -/
theorem runFillsTheOutput : Obligations.RunFillsTheOutput := by
  intro d len s hs hp hlen hibuf
  obtain ⟨-, -, hn⟩ := hs.kernel.2 hp
  have hbody := runBody_filled s.obuf binary64 s.draws (statusLogn s.status) (statusRdx s.status) d
    (hn ▸ hs.tables.1) (hn ▸ fun j hj => Option.ne_none_iff_exists'.1 (hibuf j hj))
  rw [← hn, ← runEffect_obuf] at hbody
  exact ⟨_, exec_run_of_length d hp hlen, fun k hk => Option.ne_none_iff_exists'.2 (hbody k hk)⟩

end Sys2Proof.Machine
end

section
/-! The reference family, the transform: the roots of unity as powers, the transform by its parts for any radix, the reference
kernel as the radix-2 case of it, and the transform in one direction after the other (R175, R176, R179). -/

namespace Sys2Proof.Machine

variable (d : Direction)

/-! ## Roots of unity -/

@[simp] theorem rootOfUnity_zero (n : Nat) : rootOfUnity d n 0 = 1 := by simp [rootOfUnity]

theorem rootOfUnity_add (n : Nat) (r t : ℤ) : rootOfUnity d n (r + t) = rootOfUnity d n r * rootOfUnity d n t := by
  rw [rootOfUnity, rootOfUnity, rootOfUnity, ← Complex.exp_add]
  congr 1
  push_cast
  ring

theorem rootOfUnity_natCast_mul (n j : Nat) (r : ℤ) : rootOfUnity d n (j * r) = rootOfUnity d n r ^ j := by
  rw [rootOfUnity, rootOfUnity, ← Complex.exp_nat_mul]
  congr 1
  push_cast
  ring

/-- The root depends on the ratio of the index to the length only. -/
theorem rootOfUnity_scale {c : Nat} (hc : 0 < c) (n : Nat) (r : ℤ) : rootOfUnity d (c * n) (c * r) = rootOfUnity d n r := by
  have hc : (c : ℂ) ≠ 0 := Nat.cast_ne_zero.2 hc.ne'
  rw [rootOfUnity, rootOfUnity]
  congr 3
  push_cast
  rw [mul_left_comm, mul_div_mul_left _ _ hc]

theorem rootOfUnity_eq_one_iff {n : Nat} (hn : 0 < n) (r : ℤ) : rootOfUnity d n r = 1 ↔ (n : ℤ) ∣ r := by
  have hn : (n : ℂ) ≠ 0 := Nat.cast_ne_zero.2 hn.ne'
  have hturns : ∀ m : ℤ, Complex.I * (directionSign d * (2 * Real.pi * r / n)) = m * (2 * Real.pi * Complex.I) ↔
      directionSign d * r = m * n := fun m => by
    have harg : Complex.I * (directionSign d * (2 * Real.pi * r / n)) =
        directionSign d * r / n * (2 * Real.pi * Complex.I) := by ring
    rw [harg, mul_left_inj' Complex.two_pi_I_ne_zero, div_eq_iff hn]
    norm_cast
  rw [rootOfUnity, Complex.exp_eq_one_iff, exists_congr hturns, ← dvd_iff_exists_eq_mul_left]
  cases d <;> simp [directionSign]

/-- A half turn, in both directions. -/
theorem rootOfUnity_two_one : rootOfUnity d 2 1 = -1 := by
  have hangle : 2 * Real.pi * (1 : ℤ) / (2 : Nat) = Real.pi := by push_cast; ring
  rw [rootOfUnity_eq_toComplex, hangle, Real.cos_pi, Real.sin_pi]
  cases d <;> apply Complex.ext <;> simp [toComplex, applyDirection, exactReal]

/-- A quarter turn, which ROT90 makes (R131). -/
theorem rootOfUnity_four_one : rootOfUnity d 4 1 = directionSign d * Complex.I := by
  have hangle : 2 * Real.pi * (1 : ℤ) / (4 : Nat) = Real.pi / 2 := by push_cast; ring
  rw [rootOfUnity_eq_toComplex, hangle, Real.cos_pi_div_two, Real.sin_pi_div_two]
  cases d <;> apply Complex.ext <;> simp [toComplex, applyDirection, exactReal, directionSign]

/-- The other direction turns the other way (R10). -/
theorem rootOfUnity_of_ne {d d' : Direction} (h : d ≠ d') (n : Nat) (r : ℤ) : rootOfUnity d' n r = rootOfUnity d n (-r) := by
  have hsign : directionSign d' = -directionSign d := by cases d <;> cases d' <;> simp_all [directionSign]
  rw [rootOfUnity, rootOfUnity, hsign]
  congr 1
  push_cast
  ring

/-! ## The transform by its parts -/

/-- The sum over `range (r * q)` taken by the residue modulo `r`. -/
theorem sum_range_mul_by_residue (r q : Nat) (f : Nat → ℂ) :
    ∑ j ∈ Finset.range (r * q), f j = ∑ a ∈ Finset.range r, ∑ j ∈ Finset.range q, f (r * j + a) := by
  rw [Finset.sum_comm]
  induction q with
  | zero => rfl
  | succ q ih => rw [Nat.mul_succ, Finset.sum_range_add, ih, Finset.sum_range_succ _ q]

/-- The radix-`r` combination of the element `k` of each of `r` transforms of length `q` into the element `k + i * q` of one
of length `r * q` (R155, R157). -/
noncomputable def combine (r q k i : Nat) (v : Nat → ℂ) : ℂ :=
  ∑ a ∈ Finset.range r, rootOfUnity d r (a * i) * (rootOfUnity d (r * q) (a * k) * v a)

/-- Decimation in time (R176): the parts are the inputs with equal index modulo `r`. -/
theorem dft_mul {r q : Nat} (hr : 0 < r) (hq : 0 < q) (x : Nat → ℂ) (k i : Nat) :
    dft d (r * q) x (k + i * q) = combine d r q k i fun a => dft d q (fun j => x (r * j + a)) k := by
  rw [dft, sum_range_mul_by_residue]
  refine Finset.sum_congr rfl fun a _ => ?_
  simp only [dft, Finset.mul_sum]
  refine Finset.sum_congr rfl fun j _ => ?_
  have hindex : ((r * j + a : Nat) * (k + i * q : Nat) : ℤ) =
      (r * q : Nat) * (j * i) + (q * (a * i) + (r * (j * k) + a * k)) := by push_cast; ring
  have hturns : rootOfUnity d (r * q) ((r * q : Nat) * (j * i)) = 1 :=
    (rootOfUnity_eq_one_iff d (Nat.mul_pos hr hq) _).2 (Dvd.intro _ rfl)
  have hcoarse : rootOfUnity d (r * q) (q * (a * i)) = rootOfUnity d r (a * i) := by
    rw [Nat.mul_comm r q, rootOfUnity_scale d hq]
  rw [hindex, rootOfUnity_add, rootOfUnity_add, rootOfUnity_add, hturns, hcoarse, rootOfUnity_scale d hr]
  ring

theorem combine_two_first (q k : Nat) (v : Nat → ℂ) : combine d 2 q k 0 v = v 0 + rootOfUnity d (2 * q) k * v 1 := by
  simp [combine, Finset.sum_range_succ]

theorem combine_two_second (q k : Nat) (v : Nat → ℂ) : combine d 2 q k 1 v = v 0 - rootOfUnity d (2 * q) k * v 1 := by
  simp [combine, Finset.sum_range_succ, rootOfUnity_two_one]
  ring

/-- The radix-4 combination as the butterfly of R138 has it. -/
theorem combine_four (q k i : Nat) (v : Nat → ℂ) : combine d 4 q k i v =
    v 0 + (directionSign d * Complex.I) ^ i * (rootOfUnity d (4 * q) k * v 1) +
      (directionSign d * Complex.I) ^ (2 * i) * (rootOfUnity d (4 * q) (2 * k) * v 2) +
      (directionSign d * Complex.I) ^ (3 * i) * (rootOfUnity d (4 * q) (3 * k) * v 3) := by
  have hroot : ∀ a : Nat, rootOfUnity d 4 (a * i) = (directionSign d * Complex.I) ^ (a * i) := fun a => by
    rw [← rootOfUnity_four_one, ← rootOfUnity_natCast_mul]; push_cast; rw [mul_one]
  simp [combine, Finset.sum_range_succ, hroot]

theorem dft_congr {n : Nat} {x y : Nat → ℂ} (h : ∀ j, j < n → x j = y j) (k : Nat) : dft d n x k = dft d n y k :=
  Finset.sum_congr rfl fun j hj => by rw [h j (Finset.mem_range.1 hj)]

/-- A transform of length 1 is its input (R175). -/
theorem dft_one (x : Nat → ℂ) (k : Nat) : dft d 1 x k = x 0 := by simp [dft]

/-! ## The reference kernel -/

/-- Settles O57: each level of the recursion is the radix-2 decimation in time. -/
theorem referenceKernelIsTheDft : Obligations.ReferenceKernelIsTheDft := by
  intro d l
  induction l with
  | zero =>
    intro x k hk
    obtain rfl : k = 0 := Nat.lt_one_iff.1 hk
    exact (dft_one d x 0).symm
  | succ l ih =>
    intro x k hk
    rw [pow_succ'] at hk
    simp only [reference]
    rw [pow_succ']
    have hparts := dft_mul d two_pos (Nat.two_pow_pos l) x
    split
    next hfirst =>
      have hk := hparts k 0
      rw [combine_two_first, Nat.zero_mul, Nat.add_zero] at hk
      rw [ih _ _ hfirst, ih _ _ hfirst, hk]
      rfl
    next hsecond =>
      obtain ⟨j, rfl⟩ := Nat.exists_eq_add_of_le' (not_lt.1 hsecond)
      have hj : j < 2 ^ l := by omega
      have hk := hparts j 1
      rw [combine_two_second, Nat.one_mul] at hk
      rw [Nat.add_sub_cancel, ih _ _ hj, ih _ _ hj, hk]
      rfl

/-! ## One direction after the other -/

/-- The roots with the multiples of an index that is not a whole number of turns sum to zero. -/
theorem sum_rootOfUnity {n : Nat} (hn : 0 < n) (r : ℤ) :
    ∑ j ∈ Finset.range n, rootOfUnity d n (j * r) = if (n : ℤ) ∣ r then (n : ℂ) else 0 := by
  simp only [rootOfUnity_natCast_mul]
  split
  next hr => simp [(rootOfUnity_eq_one_iff d hn r).2 hr]
  next hr =>
    have hne : rootOfUnity d n r - 1 ≠ 0 := sub_ne_zero.2 (mt (rootOfUnity_eq_one_iff d hn r).1 hr)
    have hpow : rootOfUnity d n r ^ n = 1 := by
      rw [← rootOfUnity_natCast_mul]
      exact (rootOfUnity_eq_one_iff d hn _).2 (Dvd.intro _ rfl)
    refine (mul_eq_zero.1 ?_).resolve_left hne
    rw [mul_geom_sum, hpow, sub_self]

theorem dvd_sub_iff_eq {n i k : Nat} (hi : i < n) (hk : k < n) : (n : ℤ) ∣ i - k ↔ i = k := by
  refine ⟨fun h => ?_, by rintro rfl; simp⟩
  have hzero := Int.eq_zero_of_abs_lt_dvd h (by rw [abs_lt]; omega)
  omega

/-- The inverse is not scaled (R165, R179). -/
theorem dft_dft {d d' : Direction} (h : d ≠ d') {n : Nat} (x : Nat → ℂ) {k : Nat} (hk : k < n) :
    dft d' n (dft d n x) k = n * x k := by
  have hterm : ∀ i j : Nat, x i * rootOfUnity d n (i * j) * rootOfUnity d' n (j * k) =
      x i * rootOfUnity d n (j * (i - k)) := fun i j => by
    rw [rootOfUnity_of_ne h, mul_assoc, ← rootOfUnity_add]
    congr 2
    ring
  calc dft d' n (dft d n x) k
      = ∑ i ∈ Finset.range n, x i * ∑ j ∈ Finset.range n, rootOfUnity d n (j * (i - k)) := by
        simp only [dft, Finset.sum_mul, Finset.mul_sum, hterm]
        exact Finset.sum_comm
    _ = ∑ i ∈ Finset.range n, if i = k then n * x k else 0 := by
        refine Finset.sum_congr rfl fun i hi => ?_
        rw [sum_rootOfUnity d (Nat.zero_lt_of_lt hk)]
        simp only [dvd_sub_iff_eq (Finset.mem_range.1 hi) hk]
        split
        next hik => rw [hik, mul_comm]
        next => rw [mul_zero]
    _ = n * x k := by simp [hk]

end Sys2Proof.Machine
end

section
/-! The reference family, the engine: with the exact Scalar each pass combines the transforms of the parts of its blocks, and
the table of PERM puts the parts where the passes find them (R163). So RUN leaves the transform in OBUF (R177, R179). -/

namespace Sys2Proof.Machine

/-! ## One pass of the exact engine -/

/-- The element at index `p` holds the complex number `c`. -/
def HoldsValue (m : Memory (Cplx ℝ)) (p : Nat) (c : ℂ) : Prop := ∃ z, Memory.read m p = some z ∧ toComplex z = c

/-- The pass combines in every block of `r * q` slots the `r` parts of `q` slots, as decimation in time does. -/
def CombinesParts (d : Direction) (n r q : Nat) (pass : Memory (Cplx ℝ) → Memory (Cplx ℝ)) : Prop :=
  ∀ (m : Memory (Cplx ℝ)) (b k : Nat) (v : Nat → ℂ), b < n / (r * q) → k < q →
    (∀ a, a < r → HoldsValue m (b * (r * q) + k + a * q) (v a)) →
    ∀ i, i < r → HoldsValue (pass m) (b * (r * q) + k + i * q) (combine d r q k i v)

section
variable (draw : Nat) (d : Direction) {l len : Nat}

/-- The twiddle that a pass at block size `len` takes for the index `j` (R155, R157). -/
theorem exists_twiddle_of_stride (hl : 2 ≤ l) (hlen : len ∣ 2 ^ l) (j : Nat) :
    ∃ w, twlookup exactReal (2 ^ l) (twgen exactReal (2 ^ l) []) d ((j * (2 ^ l / len) : Nat) : Int) = some w ∧
      toComplex w = rootOfUnity d len j := by
  obtain ⟨w, hw, hroot⟩ := exactTwiddleIsTheRootOfUnity l d (j * (2 ^ l / len) : Nat) hl
  refine ⟨w, hw, hroot.trans ?_⟩
  have hstride : 0 < 2 ^ l / len := Nat.div_pos (Nat.le_of_dvd (Nat.two_pow_pos l) hlen)
    (Nat.pos_of_dvd_of_pos hlen (Nat.two_pow_pos l))
  have hscale := rootOfUnity_scale d hstride len j
  rw [Nat.div_mul_cancel hlen] at hscale
  rw [← hscale]
  push_cast
  rw [mul_comm]

theorem combinesParts_pass2 {q : Nat} (hl : 2 ≤ l) (hlen : 2 * q ∣ 2 ^ l) : CombinesParts d (2 ^ l) 2 q
    (pass2 exactReal draw (2 ^ l) (twgen exactReal (2 ^ l) []) d (2 * q)) := by
  intro m b k v hb hk hv i hi
  obtain ⟨w, hw, hroot⟩ := exists_twiddle_of_stride d hl hlen k
  obtain ⟨e, he, hv0⟩ := hv 0 two_pos
  obtain ⟨odd, hodd, hv1⟩ := hv 1 one_lt_two
  rw [Nat.zero_mul, Nat.add_zero] at he
  rw [Nat.one_mul] at hodd
  obtain ⟨hfirst, hsecond⟩ := read_pass2_slots exactReal draw (2 ^ l) (twgen exactReal (2 ^ l) []) d m hb hk
  rw [passResults2, he, hodd, hw] at hfirst hsecond
  match i, hi with
  | 0, _ =>
    rw [Nat.zero_mul, Nat.add_zero, combine_two_first, ← hroot, ← hv0, ← hv1]
    exact ⟨_, hfirst, rfl⟩
  | 1, _ =>
    rw [Nat.one_mul, combine_two_second, ← hroot, ← hv0, ← hv1]
    exact ⟨_, hsecond, rfl⟩

theorem combinesParts_pass4 {q : Nat} (hl : 2 ≤ l) (hlen : 4 * q ∣ 2 ^ l) : CombinesParts d (2 ^ l) 4 q
    (pass4 exactReal draw (2 ^ l) (twgen exactReal (2 ^ l) []) d (4 * q)) := by
  intro m b k v hb hk hv i hi
  obtain ⟨w1, hw1, hroot1⟩ := exists_twiddle_of_stride d hl hlen k
  obtain ⟨w2, hw2, hroot2⟩ := exists_twiddle_of_stride d hl hlen (2 * k)
  obtain ⟨w3, hw3, hroot3⟩ := exists_twiddle_of_stride d hl hlen (3 * k)
  rw [Nat.mul_comm 2 k, Nat.mul_assoc] at hw2
  rw [Nat.mul_comm 3 k, Nat.mul_assoc] at hw3
  obtain ⟨x0, hx0, hv0⟩ := hv 0 (by decide)
  obtain ⟨x1, hx1, hv1⟩ := hv 1 (by decide)
  obtain ⟨x2, hx2, hv2⟩ := hv 2 (by decide)
  obtain ⟨x3, hx3, hv3⟩ := hv 3 (by decide)
  rw [Nat.zero_mul, Nat.add_zero] at hx0
  rw [Nat.one_mul] at hx1
  obtain ⟨hs0, hs1, hs2, hs3⟩ := read_pass4_slots exactReal draw (2 ^ l) (twgen exactReal (2 ^ l) []) d m hb hk
  rw [passResults4, hx0, hx1, hx2, hx3, hw1, hw2, hw3] at hs0 hs1 hs2 hs3
  obtain ⟨hy0, hy1, hy2, hy3⟩ :=
    exactRadixFourButterflyCombines ⟨draw, 4 * q, b * (4 * q) + k, 0⟩ d w1 w2 w3 x0 x1 x2 x3
  push_cast at hroot2 hroot3
  rw [combine_four, ← hroot1, ← hroot2, ← hroot3, ← hv0, ← hv1, ← hv2, ← hv3]
  match i, hi with
  | 0, _ =>
    rw [Nat.zero_mul, Nat.add_zero]
    exact ⟨_, hs0, hy0⟩
  | 1, _ =>
    rw [Nat.one_mul]
    exact ⟨_, hs1, hy1⟩
  | 2, _ => exact ⟨_, hs2, hy2⟩
  | 3, _ => exact ⟨_, hs3, hy3⟩

end

/-! ## The digits of the permutation -/

/-- Part `a` of a block of `r` parts of `q` slots begins `a * s` inputs after the block (R112, R114). -/
def SplitsBlocks (P : Nat → Nat) (r q s : Nat) : Prop :=
  ∀ b a, a < r → P ((b * r + a) * q) = P (b * (r * q)) + a * s

section
variable {r : Nat} (hr : 0 < r)
include hr

/-- A factor `r ^ t` of the slot is `t` digits that are zero. -/
theorem digitReverse_mul_pow : ∀ t m j, digitReverse r (t + m) (j * r ^ t) = digitReverse r m j
  | 0, m, j => by rw [Nat.zero_add, pow_zero, Nat.mul_one]
  | t + 1, m, j => by
    have hshift : j * r ^ (t + 1) = j * r ^ t * r := by rw [pow_succ, Nat.mul_assoc]
    rw [Nat.add_right_comm, digitReverse_succ, hshift, Nat.mul_mod_left, Nat.zero_mul, Nat.zero_add,
      Nat.mul_div_cancel _ hr, digitReverse_mul_pow t m j]

theorem digitReverse_mul_add {a : Nat} (ha : a < r) (m b : Nat) :
    digitReverse r (m + 1) (b * r + a) = digitReverse r m b + a * r ^ m := by
  rw [digitReverse_succ, Nat.mul_add_mod', Nat.mod_eq_of_lt ha, Nat.add_comm (b * r), Nat.add_mul_div_right _ _ hr,
    Nat.div_eq_of_lt ha, Nat.zero_add, Nat.add_comm]

theorem splitsBlocks_digitReverse (t m : Nat) : SplitsBlocks (digitReverse r (t + m + 1)) r (r ^ t) (r ^ m) := by
  intro b a ha
  have hblock := digitReverse_mul_pow hr (t + 1) m b
  rw [Nat.add_right_comm, pow_succ'] at hblock
  rw [Nat.add_assoc, digitReverse_mul_pow hr, digitReverse_mul_add hr ha, ← Nat.add_assoc, hblock]

end

/-- The radix-4 passes of a size with a radix-2 tail: the top bit of the slot is that of the block. -/
theorem splitsBlocks_mixedReverse (t m : Nat) :
    SplitsBlocks (mixedReverse (2 * (t + m + 1) + 1)) 4 (4 ^ t) (2 * 4 ^ m) := by
  intro b a ha
  have htop : (b * 4 + a) * 4 ^ t / 4 ^ (t + m + 1) = b * (4 * 4 ^ t) / 4 ^ (t + m + 1) := by
    have hpos : 0 < 4 ^ t := pow_pos four_pos t
    have hsize : 4 ^ (t + m + 1) = 4 ^ t * (4 * 4 ^ m) := by ring
    have hblock : b * (4 * 4 ^ t) = 4 ^ t * (b * 4) := by ring
    rw [hsize, hblock, Nat.mul_comm _ (4 ^ t), Nat.mul_div_mul_left _ _ hpos, Nat.mul_div_mul_left _ _ hpos,
      ← Nat.div_div_eq_div_mul, ← Nat.div_div_eq_div_mul]
    congr 1
    omega
  rw [mixedReverse_odd, mixedReverse_odd, htop, splitsBlocks_digitReverse four_pos t m b a ha]
  ring

/-- The radix-2 tail (R158): the halves of the block are the even and the odd inputs. -/
theorem splitsBlocks_mixedReverse_tail (m : Nat) : SplitsBlocks (mixedReverse (2 * m + 1)) 2 (4 ^ m) 1 := by
  intro b a _
  have hpos : 0 < 4 ^ m := pow_pos four_pos m
  have hzero : ∀ j, digitReverse 4 m (j * 4 ^ m) = 0 := digitReverse_mul_pow four_pos m 0
  rw [mixedReverse_odd, mixedReverse_odd, ← Nat.mul_assoc, hzero, hzero, Nat.mul_div_cancel _ hpos,
    Nat.mul_div_cancel _ hpos]
  ring

theorem permEntry_zero (rdx : Radix) (l : Nat) : permEntry rdx l 0 = 0 := by
  cases rdx with
  | r2 => rw [permEntry, bitReverse_eq_digitReverse, digitReverse_at_zero]
  | r4 => simp [permEntry, mixedReverse, digitReverse4_eq_digitReverse]

/-! ## What the passes establish -/

/-- R163: OBUF is `s` blocks of `len` slots, and each holds the transform of every `s`-th input from the entry of `P` at its
first slot on. -/
def HoldsTransforms (d : Direction) (x : Nat → ℂ) (P : Nat → Nat) (s len : Nat) (m : Memory (Cplx ℝ)) : Prop :=
  ∀ b, b < s → ∀ k, k < len → HoldsValue m (b * len + k) (dft d len (fun j => x (P (b * len) + j * s)) k)

section
variable {d : Direction} {x : Nat → ℂ} {P : Nat → Nat} {n r q s : Nat} {m : Memory (Cplx ℝ)}

/-- A pass makes blocks of `r * q` slots from blocks of `q`. -/
theorem HoldsTransforms.pass {pass : Memory (Cplx ℝ) → Memory (Cplx ℝ)} (h : HoldsTransforms d x P (s * r) q m)
    (hpass : CombinesParts d n r q pass) (hsplit : SplitsBlocks P r q s) (hq : 0 < q) (hr : 0 < r)
    (hn : s * (r * q) = n) : HoldsTransforms d x P s (r * q) (pass m) := by
  intro b hb p hp
  have hk := Nat.mod_lt p hq
  have hi : p / q < r := Nat.div_lt_of_lt_mul (by rwa [Nat.mul_comm])
  have hblocks : n / (r * q) = s := by rw [← hn, Nat.mul_div_cancel _ (Nat.mul_pos hr hq)]
  have hparts : ∀ a, a < r → HoldsValue m (b * (r * q) + p % q + a * q)
      (dft d q (fun j => x (P (b * (r * q)) + (r * j + a) * s)) (p % q)) := fun a ha => by
    have hpart := h (b * r + a) (by nlinarith) (p % q) hk
    have hslot : (b * r + a) * q + p % q = b * (r * q) + p % q + a * q := by ring
    have hindex : ∀ j, P (b * (r * q)) + a * s + j * (s * r) = P (b * (r * q)) + (r * j + a) * s := fun j => by ring
    simpa only [hsplit b a ha, hslot, hindex] using hpart
  have hcombined := hpass m b (p % q) _ (hblocks ▸ hb) hk hparts (p / q) hi
  have hdft := dft_mul d hr hq (fun j => x (P (b * (r * q)) + j * s)) (p % q) (p / q)
  rw [Nat.mod_add_div'] at hdft
  rwa [Nat.add_assoc, Nat.mod_add_div', ← hdft] at hcombined

/-- The passes of one radix, from single elements to blocks of `r ^ c`. -/
theorem HoldsTransforms.loop {c : Nat} {pass : Nat → Memory (Cplx ℝ) → Memory (Cplx ℝ)}
    (h : HoldsTransforms d x P n 1 m) (hr : 0 < r) (hpass : ∀ t, t < c → CombinesParts d n r (r ^ t) (pass t))
    (hsplit : ∀ t, t < c → ∀ s, s * r ^ (t + 1) = n → SplitsBlocks P r (r ^ t) s) (hn : s * r ^ c = n) :
    HoldsTransforms d x P s (r ^ c) (Machine.loop c pass m) := by
  have hall : ∀ s, s * r ^ c = n → HoldsTransforms d x P s (r ^ c) (Machine.loop c pass m) :=
    loop_invariant (P := fun t m => ∀ s, s * r ^ t = n → HoldsTransforms d x P s (r ^ t) m)
      (fun s hs => by rw [pow_zero, Nat.mul_one] at hs; rwa [hs]) fun t m ht hm s hs => by
        have hsplit := hsplit t ht s hs
        rw [pow_succ'] at hs ⊢
        exact (hm (s * r) (by rwa [Nat.mul_assoc])).pass (hpass t ht) hsplit (pow_pos hr t) hr hs
  exact hall s hn

end

/-! ## The schedules -/

section
variable {d : Direction} {x : Nat → ℂ} {l : Nat} {m : Memory (Cplx ℝ)} (draw : Nat) (hl : 2 ≤ l)
include hl

theorem holdsTransforms_sched2 (h : HoldsTransforms d x (bitReverse l) (2 ^ l) 1 m) :
    HoldsTransforms d x (bitReverse l) 1 (2 ^ l)
      (sched2 exactReal draw (2 ^ l) (twgen exactReal (2 ^ l) []) d m) := by
  rw [sched2, Nat.log2_two_pow]
  refine h.loop two_pos (fun t ht => ?_) (fun t ht s hs => ?_) (Nat.one_mul _)
  · have hlen := pow_dvd_pow 2 ht
    rw [pow_succ'] at hlen ⊢
    exact combinesParts_pass2 draw d hl hlen
  · obtain ⟨j, rfl⟩ := Nat.exists_eq_add_of_lt ht
    obtain rfl : s = 2 ^ j := Nat.eq_of_mul_eq_mul_right (Nat.two_pow_pos (t + 1)) (hs.trans (by ring))
    simpa only [funext (bitReverse_eq_digitReverse _)] using splitsBlocks_digitReverse two_pos t j

/-- The radix-4 passes of SCHED4, up to blocks of `4 ^ c` slots. -/
theorem holdsTransforms_fours {c s : Nat} {P : Nat → Nat} (hs : s * 4 ^ c = 2 ^ l)
    (hsplit : ∀ t j, c = t + j + 1 → SplitsBlocks P 4 (4 ^ t) (s * 4 ^ j)) (h : HoldsTransforms d x P (2 ^ l) 1 m) :
    HoldsTransforms d x P s (4 ^ c)
      (loop c (fun p obuf => pass4 exactReal draw (2 ^ l) (twgen exactReal (2 ^ l) []) d (4 ^ (p + 1)) obuf) m) := by
  refine h.loop four_pos (fun t ht => ?_) (fun t ht u hu => ?_) hs
  · have hlen := (pow_dvd_pow 4 ht).trans (Dvd.intro_left s hs)
    rw [pow_succ'] at hlen ⊢
    exact combinesParts_pass4 draw d hl hlen
  · obtain ⟨j, rfl⟩ := Nat.exists_eq_add_of_lt ht
    obtain rfl : u = s * 4 ^ j :=
      Nat.eq_of_mul_eq_mul_right (pow_pos four_pos (t + 1)) ((hu.trans hs.symm).trans (by ring))
    exact hsplit t j rfl

theorem holdsTransforms_sched4 (h : HoldsTransforms d x (mixedReverse l) (2 ^ l) 1 m) :
    HoldsTransforms d x (mixedReverse l) 1 (2 ^ l)
      (sched4 exactReal draw (2 ^ l) (twgen exactReal (2 ^ l) []) d m) := by
  simp only [sched4, Nat.log2_two_pow]
  obtain ⟨c, rfl | rfl⟩ := Nat.even_or_odd' l
  · have hdigits : 2 * c / 2 = c := by omega
    have hfours := holdsTransforms_fours draw hl (c := c) (s := 1) (by rw [two_pow_even, Nat.one_mul])
      (fun t j hc => by
        subst hc
        simpa only [funext (mixedReverse_even _), Nat.one_mul] using splitsBlocks_digitReverse four_pos t j) h
    rw [if_neg (by omega), hdigits]
    rwa [two_pow_even] at hfours ⊢
  · have hdigits : (2 * c + 1) / 2 = c := by omega
    have hfours := holdsTransforms_fours draw hl (c := c) (s := 2) (two_pow_odd c).symm
      (fun t j hc => by subst hc; exact splitsBlocks_mixedReverse t j) h
    have htail := combinesParts_pass2 draw d hl (q := 4 ^ c) (two_pow_odd c ▸ dvd_rfl)
    have hall := HoldsTransforms.pass (s := 1) hfours htail (splitsBlocks_mixedReverse_tail c) (pow_pos four_pos c) two_pos
      (by rw [Nat.one_mul, two_pow_odd])
    rw [if_pos (by omega), hdigits]
    rwa [← two_pow_odd] at hall

theorem holdsTransforms_sched (rdx : Radix) (h : HoldsTransforms d x (permEntry rdx l) (2 ^ l) 1 m) :
    HoldsTransforms d x (permEntry rdx l) 1 (2 ^ l)
      (sched exactReal draw (2 ^ l) rdx (twgen exactReal (2 ^ l) []) d m) := by
  cases rdx with
  | r2 => exact holdsTransforms_sched2 draw hl h
  | r4 => exact holdsTransforms_sched4 draw hl h

end

/-! ## RUN -/

section
variable {x : Nat → Cplx ℝ} {ibuf : Memory (Cplx ℝ)} (obuf : Memory (Cplx ℝ)) (rdx : Radix) (d : Direction)

/-- PERMUTE leaves blocks of one slot, which are the transforms of single inputs. -/
theorem holdsTransforms_permute {l : Nat} (hx : ∀ j, j < 2 ^ l → Memory.read ibuf j = some (x j)) :
    HoldsTransforms d (fun j => toComplex (x j)) (permEntry rdx l) (2 ^ l) 1
      (permute (2 ^ l) (permgen rdx (2 ^ l) []) ibuf obuf) := by
  intro b hb k hk
  obtain rfl : k = 0 := Nat.lt_one_iff.1 hk
  refine ⟨x (permEntry rdx l b), ?_, ?_⟩
  · rw [Nat.mul_one, Nat.add_zero, read_permute, if_pos hb, read_permgen, if_pos hb]
    exact hx _ (permEntry_lt rdx hb)
  · rw [dft_one, Nat.mul_one, Nat.zero_mul, Nat.add_zero]

theorem small1_holds_dft (hx : Memory.read ibuf 0 = some (x 0)) (k : Nat) (hk : k < 1) :
    HoldsValue (small1 ibuf obuf) k (dft d 1 (fun j => toComplex (x j)) k) := by
  obtain rfl : k = 0 := Nat.lt_one_iff.1 hk
  rw [dft_one]
  exact ⟨x 0, by rw [small1, Memory.read_put, if_pos rfl, hx], rfl⟩

theorem small2_holds_dft (draw : Nat) (h0 : Memory.read ibuf 0 = some (x 0)) (h1 : Memory.read ibuf 1 = some (x 1))
    (k : Nat) (hk : k < 2) :
    HoldsValue (small2 exactReal draw ibuf obuf) k (dft d 2 (fun j => toComplex (x j)) k) := by
  rw [small2_of_written exactReal draw obuf h0 h1]
  match k, hk with
  | 0, _ =>
    refine ⟨_, by rw [Memory.read_write_other (by decide), Memory.read_write_same], ?_⟩
    simp [dft, Finset.sum_range_succ]
  | 1, _ =>
    refine ⟨_, Memory.read_write_same _ _ _, ?_⟩
    simp [dft, Finset.sum_range_succ, rootOfUnity_two_one, sub_eq_add_neg]

end

/-- Settles O58: R163 at block size `n`, and the two sizes without passes. -/
theorem exactRunComputesTheDft : Obligations.ExactRunComputesTheDft := by
  intro rdx d l x ibuf obuf hx k hk
  match l with
  | 0 => exact small1_holds_dft obuf d (hx 0 (by decide)) k hk
  | 1 => exact small2_holds_dft obuf d 0 (hx 0 (by decide)) (hx 1 (by decide)) k hk
  | l + 2 =>
    have h4 : 4 ≤ 2 ^ (l + 2) := Nat.pow_le_pow_right two_pos (Nat.le_add_left 2 l)
    have hall := holdsTransforms_sched 0 (Nat.le_add_left 2 l) rdx (holdsTransforms_permute obuf rdx d hx) 0 one_pos k hk
    simp only [Nat.zero_mul, permEntry_zero, Nat.zero_add, Nat.mul_one] at hall
    rw [exactRun, runBody, if_neg (by omega), if_neg (by omega)]
    exact hall

/-- Settles O59: each RUN is the transform, and the transforms in the two directions give `n` times the input. -/
theorem exactRoundTripScalesByN : Obligations.ExactRoundTripScalesByN := by
  intro rdx d d' l x ibuf obuf obuf' hd hx k hk
  have hinhabited : Nonempty (Cplx ℝ) := ⟨x 0⟩
  choose! y hy hval using exactRunComputesTheDft rdx d l x ibuf obuf hx
  obtain ⟨z, hz, hback⟩ := exactRunComputesTheDft rdx d' l y _ obuf' hy k hk
  refine ⟨z, hz, ?_⟩
  calc toComplex z
      = dft d' (2 ^ l) (dft d (2 ^ l) fun j => toComplex (x j)) k := by
        rw [hback, dft_congr d' hval]
    _ = (2 ^ l : ℂ) * toComplex (x k) := by
        rw [dft_dft hd _ hk]
        push_cast
        rfl

end Sys2Proof.Machine
end

section
/-! The command family, RUN with an unwritten input: an undefined slot makes every slot of its butterfly undefined, so a pass
widens a block without a value to the block of its parts, and the last block is all of OBUF below N (R195, I6). -/

namespace Sys2Proof.Machine

/-! ## One pass -/

section
variable {β : Type} {n r q : Nat} {m : Memory β}

/-- No slot of block `b` of `len` slots holds a value. -/
def EmptyBlock (len b : Nat) (m : Memory β) : Prop := ∀ p, p < len → Memory.read m (b * len + p) = none

/-- A butterfly of the pass with an operand that holds no value leaves no value in any of its `r` slots. -/
def SpreadsGaps (n r q : Nat) (pass : Memory β → Memory β) : Prop :=
  ∀ (m : Memory β) (b k a : Nat), b < n / (r * q) → k < q → a < r → Memory.read m (b * (r * q) + k + a * q) = none →
    ∀ i, i < r → Memory.read (pass m) (b * (r * q) + k + i * q) = none

/-- Every butterfly of the block that has an empty part reads one of its slots. -/
theorem EmptyBlock.pass {pass : Memory β → Memory β} {c : Nat} (h : EmptyBlock q c m) (hpass : SpreadsGaps n r q pass)
    (hr : 0 < r) (hc : c / r < n / (r * q)) : EmptyBlock (r * q) (c / r) (pass m) := by
  intro p hp
  have hk : p % q < q := Nat.mod_lt p (Nat.pos_of_mul_pos_left (by omega : 0 < r * q))
  have hi : p / q < r := Nat.div_lt_of_lt_mul (by rwa [Nat.mul_comm])
  have hslot : c / r * (r * q) + p % q + c % r * q = c * q + p % q := by
    calc c / r * (r * q) + p % q + c % r * q = (c / r * r + c % r) * q + p % q := by ring
      _ = c * q + p % q := by rw [Nat.div_add_mod']
  have hspread := hpass m (c / r) (p % q) (c % r) hc hk (Nat.mod_lt c hr) (hslot ▸ h _ hk) (p / q) hi
  rwa [Nat.add_assoc, Nat.mod_add_div'] at hspread

/-- The passes of one radix, from a single slot to its block of `r ^ t`. -/
theorem EmptyBlock.loop {p t : Nat} {pass : Nat → Memory β → Memory β} (hr : 0 < r) (hp : p < n) (hdvd : r ^ t ∣ n)
    (hpass : ∀ i, i < t → SpreadsGaps n r (r ^ i) (pass i)) (h : Memory.read m p = none) :
    EmptyBlock (r ^ t) (p / r ^ t) (Machine.loop t pass m) := by
  refine loop_invariant (P := fun i m => EmptyBlock (r ^ i) (p / r ^ i) m) (fun k hk => ?_) fun i m hi hm => ?_
  · rw [pow_zero, Nat.lt_one_iff] at hk
    simpa [hk] using h
  · have hlen : r * r ^ i ∣ n := pow_succ' r i ▸ (pow_dvd_pow r hi).trans hdvd
    have hblock : p / r ^ i / r = p / (r * r ^ i) := by rw [Nat.div_div_eq_div_mul, Nat.mul_comm]
    have hwider := hm.pass (hpass i hi) hr (hblock ▸ Nat.div_lt_div_of_lt_of_dvd hlen hp)
    rwa [hblock, ← pow_succ'] at hwider

/-- The block that is all of the memory below `n`. -/
theorem EmptyBlock.read_eq_none {p : Nat} (h : EmptyBlock n (p / n) m) (hp : p < n) : ∀ k, k < n → Memory.read m k = none := by
  rw [Nat.div_eq_of_lt hp] at h
  simpa only [EmptyBlock, Nat.zero_mul, Nat.zero_add] using h

end

section
variable {α : Type} (A : Arith α) (o : Occ) (draw : Nat) (tw : Memory α) (d : Direction) {n q : Nat}

theorem bfly2Results_of_gap {w e odd : Option (Cplx α)} (h : e = none ∨ odd = none) :
    bfly2Results A o w e odd = none := by
  unfold bfly2Results
  split
  · simp at h
  · rfl

theorem bfly4Results_of_gap {w1 w2 w3 a b c e : Option (Cplx α)} (h : a = none ∨ b = none ∨ c = none ∨ e = none) :
    bfly4Results A o d w1 w2 w3 a b c e = none := by
  unfold bfly4Results
  split
  · simp at h
  · rfl

theorem spreadsGaps_pass2 : SpreadsGaps n 2 q (pass2 A draw n tw d (2 * q)) := by
  intro m b k a hb hk ha hgap i hi
  obtain ⟨hfirst, hsecond⟩ := read_pass2_slots A draw n tw d m hb hk
  have hresults : passResults2 A draw n tw d m q b k = none := bfly2Results_of_gap A _ <| by
    match a, ha with
    | 0, _ => left; simpa using hgap
    | 1, _ => right; simpa using hgap
  rw [hresults] at hfirst hsecond
  match i, hi with
  | 0, _ => simpa using hfirst
  | 1, _ => simpa using hsecond

theorem spreadsGaps_pass4 : SpreadsGaps n 4 q (pass4 A draw n tw d (4 * q)) := by
  intro m b k a hb hk ha hgap i hi
  obtain ⟨h0, h1, h2, h3⟩ := read_pass4_slots A draw n tw d m hb hk
  have hresults : passResults4 A draw n tw d m q b k = none := bfly4Results_of_gap A _ d <| by
    match a, ha with
    | 0, _ => left; simpa using hgap
    | 1, _ => right; left; simpa using hgap
    | 2, _ => right; right; left; exact hgap
    | 3, _ => right; right; right; exact hgap
  rw [hresults] at h0 h1 h2 h3
  match i, hi with
  | 0, _ => simpa using h0
  | 1, _ => simpa using h1
  | 2, _ => exact h2
  | 3, _ => exact h3

/-! ## The schedules and RUNBODY -/

/-- One slot without a value before the passes leaves none with a value after them. -/
theorem sched_eq_none_of_gap {l p : Nat} {m : Memory (Cplx α)} (rdx : Radix) (hp : p < 2 ^ l)
    (h : Memory.read m p = none) : ∀ k, k < 2 ^ l → Memory.read (sched A draw (2 ^ l) rdx tw d m) k = none := by
  cases rdx with
  | r2 =>
    rw [sched, sched2, Nat.log2_two_pow]
    refine (EmptyBlock.loop two_pos hp dvd_rfl (fun i _ => ?_) h).read_eq_none hp
    rw [pow_succ']
    exact spreadsGaps_pass2 A draw tw d
  | r4 =>
    have hfours : ∀ c, 4 ^ c ∣ 2 ^ l → EmptyBlock (4 ^ c) (p / 4 ^ c)
        (loop c (fun i obuf => pass4 A draw (2 ^ l) tw d (4 ^ (i + 1)) obuf) m) := fun c hc =>
      EmptyBlock.loop four_pos hp hc (fun i _ => pow_succ' 4 i ▸ spreadsGaps_pass4 A draw tw d) h
    simp only [sched, sched4, Nat.log2_two_pow]
    obtain ⟨c, rfl | rfl⟩ := Nat.even_or_odd' l
    · have hdigits : 2 * c / 2 = c := by omega
      rw [if_neg (by omega), hdigits]
      rw [two_pow_even] at hp hfours ⊢
      exact (hfours c dvd_rfl).read_eq_none hp
    · have hdigits : (2 * c + 1) / 2 = c := by omega
      rw [if_pos (by omega), hdigits]
      rw [two_pow_odd] at hp hfours ⊢
      have hblock : p / 4 ^ c / 2 = p / (2 * 4 ^ c) := by rw [Nat.div_div_eq_div_mul, Nat.mul_comm]
      have htail := (hfours c (Dvd.intro_left 2 rfl)).pass (spreadsGaps_pass2 A draw tw d) two_pos
        (hblock ▸ Nat.div_lt_div_of_lt_of_dvd dvd_rfl hp)
      rw [hblock] at htail
      exact htail.read_eq_none hp

theorem small1_of_gap {ibuf : Memory (Cplx α)} (obuf : Memory (Cplx α)) (h : Memory.read ibuf 0 = none) (k : Nat)
    (hk : k < 1) : Memory.read (small1 ibuf obuf) k = none := by
  obtain rfl : k = 0 := by omega
  rw [small1, Memory.read_put, if_pos rfl, h]

theorem small2_of_gap {ibuf : Memory (Cplx α)} (obuf : Memory (Cplx α)) {j : Nat} (hj : j < 2)
    (h : Memory.read ibuf j = none) (k : Nat) (hk : k < 2) : Memory.read (small2 A draw ibuf obuf) k = none := by
  have hforget : small2 A draw ibuf obuf = Memory.forget (Memory.forget obuf 0) 1 := by
    unfold small2
    split
    next a b ha hb =>
      match j, hj with
      | 0, _ => rw [h] at ha; cases ha
      | 1, _ => rw [h] at hb; cases hb
    next => rfl
  rw [hforget, Memory.read_forget, Memory.read_forget]
  match k, hk with
  | 0, _ => rfl
  | 1, _ => rfl

/-- The table sends some slot to the unwritten element, so PERMUTE leaves that slot without a value. -/
theorem exists_permute_eq_none {ibuf : Memory (Cplx α)} (obuf : Memory (Cplx α)) (rdx : Radix) {l j : Nat}
    (hj : j < 2 ^ l) (h : Memory.read ibuf j = none) :
    ∃ p < 2 ^ l, Memory.read (permute (2 ^ l) (permgen rdx (2 ^ l) []) ibuf obuf) p = none := by
  obtain ⟨p, hp, rfl⟩ := exists_permEntry_eq rdx hj
  refine ⟨p, hp, ?_⟩
  rw [read_permute, if_pos hp, read_permgen, if_pos hp]
  exact h

theorem runBody_of_gap (rdx : Radix) {perm : Memory Nat} {ibuf : Memory (Cplx α)} (obuf : Memory (Cplx α)) {l j : Nat}
    (hperm : 4 ≤ 2 ^ l → perm = permgen rdx (2 ^ l) []) (hj : j < 2 ^ l) (h : Memory.read ibuf j = none) :
    ∀ k, k < 2 ^ l → Memory.read (runBody A draw (2 ^ l) rdx d perm tw ibuf obuf) k = none := by
  match l with
  | 0 =>
    obtain rfl : j = 0 := by omega
    exact small1_of_gap obuf h
  | 1 => exact small2_of_gap A draw obuf hj h
  | l + 2 =>
    have h4 : 4 ≤ 2 ^ (l + 2) := Nat.pow_le_pow_right two_pos (Nat.le_add_left 2 l)
    obtain rfl := hperm h4
    obtain ⟨p, hp, hgap⟩ := exists_permute_eq_none obuf rdx hj h
    rw [runBody, if_neg (by omega), if_neg (by omega)]
    exact sched_eq_none_of_gap A draw tw d rdx hp hgap

end

/-- Settles O55: PERMUTE takes the unwritten element to some slot, and the passes spread it over all of OBUF below N. -/
theorem unwrittenInputLeavesNoDefinedOutput : Obligations.UnwrittenInputLeavesNoDefinedOutput := by
  intro d len s j hs hp hlen hj hgap
  obtain ⟨-, -, hn⟩ := hs.kernel.2 hp
  have hbody := runBody_of_gap binary64 s.draws s.tw d (statusRdx s.status) s.obuf
    (hn ▸ fun h4 => (hs.tables.1 h4).2) (hn ▸ hj) hgap
  rw [← hn, ← runEffect_obuf] at hbody
  exact ⟨_, exec_run_of_length d hp hlen, hbody⟩

end Sys2Proof.Machine
end

section
/-! The command family, the commands: the answer of each command under each of its causes, what a response carries, and words
with a reserved bit set (R190 to R201). -/

namespace Sys2Proof.Machine

variable {s t : State} {w : Word}

/-! ## Every step answers -/

theorem exec_next (i : Instr) (s : State) : ∃ t, exec i s = .next t := by
  rcases exec_cases i s with ⟨_, _, _, _, h⟩ | ⟨_, _, _, _, h⟩ | ⟨_, _, _, _, h⟩ | ⟨_, _, _, _, h⟩ | ⟨_, _, _, _, h⟩ |
    ⟨_, _, _, _, h⟩ | ⟨_, _, _, _, _, h⟩ | ⟨_, _, _, _, _, h⟩ | ⟨_, _, h⟩ | ⟨_, h⟩ | ⟨_, _, _, _, h⟩ | ⟨_, _, _, h⟩ <;>
  exact ⟨_, h⟩

theorem presentWord_next (w : Word) (s : State) : ∃ t, presentWord w s = .next t := by
  cases hd : decode w with
  | legal i => rw [presentWord_legal hd]; exact exec_next i s
  | illegal why => exact ⟨_, presentWord_illegal hd s⟩

theorem takeInput_next (input : HostInput) (s : State) : ∃ t, takeInput input s = .next t := by
  cases input with
  | command w => exact presentWord_next w s
  | writeData | readData | reset => exact ⟨_, rfl⟩

theorem step_next (s : State) : ∃ t, step s = .next t := by
  cases hi : s.inputs with
  | nil => exact ⟨_, step_nil hi⟩
  | cons input rest => rw [step_cons hi]; exact takeInput_next input _

theorem WordAnswer.responds (h : WordAnswer w s t) : ∃ code a b, t.output = .response code a b := by
  cases h with
  | fault | prepare | dispose | setin | get | run | csr => exact ⟨_, _, _, rfl⟩

/-- A command takes nothing from the host's inputs. -/
theorem WordAnswer.inputs_eq (h : WordAnswer w s t) : t.inputs = s.inputs := by
  cases h with
  | prepare => simp [prepareEffect]
  | fault | dispose | setin | get | run | csr => rfl

/-- Settles O5: each input has an answer, and each answer to a word is a response. -/
theorem everyWordGetsAResponse : Obligations.EveryWordGetsAResponse := by
  refine ⟨step_next, fun s w rest hi => ?_⟩
  obtain ⟨t, ht⟩ := presentWord_next w { s with inputs := rest }
  have hanswer := presentWord_wordAnswer ht
  obtain ⟨code, a, b, hout⟩ := hanswer.responds
  exact ⟨t, code, a, b, (step_cons hi).trans ht, hout, hanswer.inputs_eq⟩

/-- Settles O4: a command word is presented on the state without it, and decides by what it decodes to. -/
theorem stepRunsTheDecodedCommand : Obligations.StepRunsTheDecodedCommand := by
  intro s w rest hi
  have hstep : step s = presentWord w { s with inputs := rest } := step_cons hi
  exact ⟨hstep, fun i hd => hstep.trans (presentWord_legal hd _), fun why hd => hstep.trans (presentWord_illegal hd _)⟩

/-! ## The data registers -/

theorem readHeld_of_value {r : Held Scalar} {v : Scalar} (h : r = .value v) (draw pos : Nat) : readHeld r draw pos = v := by
  rw [h, readHeld]

/-- Settles O3: the two host moves, written out. -/
theorem hostMovesTouchOnlyDataRegisters : Obligations.HostMovesTouchOnlyDataRegisters := by
  refine ⟨fun s re im rest hi => step_cons hi, fun s rest hi => ⟨s.readData.re, s.readData.im, step_cons hi, ?_, ?_⟩⟩
  · exact fun a ha => readHeld_of_value ha _ _
  · exact fun b hb => readHeld_of_value hb _ _

/-! ## Words with a reserved bit set -/

/-- A word of a format whose reserved bits are not all 0 raises IllegalCommand (R78, R79). -/
theorem presentWord_reservedBit {reserved : Word} {i : Instr} (hd : decode w = unlessReserved w reserved i)
    (h : w &&& reserved ≠ 0#32) (s : State) : presentWord w s = .next (s.raise .illegalCommand 0#32 w) :=
  presentWord_illegal (hd.trans (if_neg h)) s

theorem decode_of_opcode_prepare (h : opcodeOf w = 1#4) :
    decode w = unlessReserved w 0x0E000000#32 (.prepare (radixOf w) (field24 w)) := by rw [decode, h]; rfl

theorem decode_of_opcode_setin (h : opcodeOf w = 2#4) :
    decode w = unlessReserved w 0x0F000000#32 (.setin (field24 w)) := by rw [decode, h]; rfl

theorem decode_of_opcode_getin (h : opcodeOf w = 3#4) :
    decode w = unlessReserved w 0x0F000000#32 (.getin (field24 w)) := by rw [decode, h]; rfl

theorem decode_of_opcode_run (h : opcodeOf w = 4#4) :
    decode w = unlessReserved w 0x0E000000#32 (.run (directionOf w) (field24 w)) := by rw [decode, h]; rfl

theorem decode_of_opcode_getout (h : opcodeOf w = 5#4) :
    decode w = unlessReserved w 0x0F000000#32 (.getout (field24 w)) := by rw [decode, h]; rfl

theorem decode_of_opcode_dispose (h : opcodeOf w = 6#4) :
    decode w = unlessReserved w 0x0FFFFFFF#32 .dispose := by rw [decode, h]; rfl

/-- RDCSR tests the reserved bits before the register number (R78). -/
theorem decode_rdcsr_reservedBit (h : opcodeOf w = 7#4) (hbits : w &&& 0x0FFFFFF0#32 ≠ 0#32) :
    decode w = .illegal .reservedBit := by simp [decode, h, unlessReserved, hbits]

/-- The word of RDCSR with a reserved register number (R26, R78). -/
theorem decode_rdcsr_reservedCsr {csr : BitVec 4} (h : 6 < csr.toNat) :
    decode (0x70000000#32 ||| csr.setWidth 32) = .illegal .reservedCsr := by revert csr; decide

/-! ## PREPARE and DISPOSE -/

theorem exec_prepare_of_validSize (rdx : Radix) {size : BitVec 24} (h : s.validSize size) :
    exec (.prepare rdx size) s = .next (prepareEffect rdx size s) := by
  rw [exec, execPrepare, (invalidSize_eq_false_iff size).2 h]; rfl

theorem exec_prepare_of_not_validSize (rdx : Radix) {size : BitVec 24} (h : ¬ s.validSize size) :
    exec (.prepare rdx size) s = .next (s.raise .invalidSize (BitVec.ofNat 32 s.nMax) (zext size)) := by
  rw [← invalidSize_eq_false_iff, Bool.not_eq_false] at h
  rw [exec, execPrepare, h]; rfl

theorem exec_dispose (s : State) : exec .dispose s = .next (disposeEffect s) := rfl

/-- PREPARE overwrites everything that DISPOSE clears (R192 (a)). -/
theorem prepareEffect_disposeEffect (rdx : Radix) (size : BitVec 24) (s : State) :
    prepareEffect rdx size (disposeEffect s) = prepareEffect rdx size s := by
  unfold prepareEffect State.buildTables
  split
  · rfl
  · rfl

/-- Settles O10: PREPARE's effect field by field, and its two faults. -/
theorem prepareBuildsOrRefuses : Obligations.PrepareBuildsOrRefuses := by
  refine fun rdx size s => ⟨fun hv => ⟨_, exec_prepare_of_validSize rdx hv, prepareEffect_n rdx size,
    prepareEffect_status rdx size, ?_, ?_, ?_, ?_⟩, exec_prepare_of_not_validSize rdx,
    fun w ho h => presentWord_reservedBit (decode_of_opcode_prepare ho) h s⟩
  · simp [prepareEffect]
  · intro h4; rw [prepareEffect_tw, prepareEffect_perm, if_pos h4, if_pos h4]; exact ⟨rfl, rfl⟩
  · intro h4 j; rw [prepareEffect_tw, prepareEffect_perm, if_neg (not_le.2 h4), if_neg (not_le.2 h4)]; exact ⟨rfl, rfl⟩
  · simp [prepareEffect]

/-- Settles O11: TWGEN writes the entries up to `n / 4`, on a ROM without values. -/
theorem prepareFillsTheTwiddleRom : Obligations.PrepareFillsTheTwiddleRom := by
  refine fun rdx size s hv h4 => ⟨_, exec_prepare_of_validSize rdx hv, fun k => ?_⟩
  rw [prepareEffect_tw, if_pos h4, read_twgen]
  rfl

/-- Settles O12: the size stays valid because DISPOSE keeps CAP, and PREPARE overwrites what DISPOSE clears. -/
theorem prepareReplacesLikeDisposeThenPrepare : Obligations.PrepareReplacesLikeDisposeThenPrepare := by
  intro rdx size s hv
  have hv' : (disposeEffect s).validSize size := hv
  refine ⟨_, _, exec_dispose s, exec_prepare_of_validSize rdx hv', ?_⟩
  rw [prepareEffect_disposeEffect]
  exact exec_prepare_of_validSize rdx hv

/-- Settles O17: DISPOSE's effect field by field. -/
theorem disposeForgetsTheKernel : Obligations.DisposeForgetsTheKernel :=
  fun s => ⟨_, exec_dispose s, rfl, rfl, fun _ => ⟨rfl, rfl, rfl, rfl⟩, rfl, rfl, rfl, rfl, rfl, rfl, rfl, rfl, rfl,
    fun _ ho h => presentWord_reservedBit (decode_of_opcode_dispose ho) h s⟩

/-- Settles O33: PREPARE of a valid size and DISPOSE set STATUS and N, and no other answer writes them. -/
theorem preparedFollowsTheStateMachine : Obligations.PreparedFollowsTheStateMachine := by
  intro w s t h
  refine ⟨fun rdx size hd hv => ?_, fun hd => ?_, fun hprepare hdispose => ?_⟩
  · rw [presentWord_legal hd, exec_prepare_of_validSize rdx hv] at h
    cases h
    rw [State.prepared, prepareEffect_status, prepareEffect_n]
    exact ⟨statusPrep_statusPrepared _ _, statusRdx_statusPrepared _ _, rfl⟩
  · rw [presentWord_legal hd, exec_dispose] at h
    cases h
    exact ⟨show statusPrep 0#32 = false by decide, rfl⟩
  · cases presentWord_wordAnswer h with
    | prepare hd hv => exact absurd hv (hprepare _ _ hd)
    | dispose hd => exact absurd hd hdispose
    | fault | setin | get | run | csr => exact ⟨rfl, rfl⟩

/-! ## SETIN, GETIN and GETOUT -/

theorem readElement_of_read {m : Memory (Cplx Scalar)} {idx : Nat} {z : Cplx Scalar} (h : Memory.read m idx = some z) :
    s.readElement m idx = z := by rw [State.readElement, h]

theorem ifInRange_of_lt {idx : BitVec 24} {effect : State} (h : idx.toNat < s.n.toNat) : s.ifInRange idx effect = effect :=
  if_pos h

theorem ifInRange_of_le {idx : BitVec 24} {effect : State} (h : s.n.toNat ≤ idx.toNat) :
    s.ifInRange idx effect = s.raise .indexRange s.n (zext idx) := if_neg (not_lt.2 h)

/-- The three answers of the commands with an element index, in the order of their checks (R191). -/
theorem ifPrepared_ifInRange_answers (s : State) (i : Instr) (idx : BitVec 24) (effect : State) :
    (s.prepared = false → s.ifPrepared i (s.ifInRange idx effect) =
      .next (s.raise .notPrepared 0#32 ((opcode i).setWidth 32))) ∧
    (s.prepared = true → s.n.toNat ≤ idx.toNat → s.ifPrepared i (s.ifInRange idx effect) =
      .next (s.raise .indexRange s.n (zext idx))) ∧
    (s.prepared = true → idx.toNat < s.n.toNat → s.ifPrepared i (s.ifInRange idx effect) = .next effect) := by
  refine ⟨ifPrepared_of_unprepared, fun hp hi => ?_, fun hp hi => ?_⟩
  · rw [ifPrepared_of_prepared hp, ifInRange_of_le hi]
  · rw [ifPrepared_of_prepared hp, ifInRange_of_lt hi]

/-- Settles O13: SETIN's checks and its one write. -/
theorem setinWritesOneInputElement : Obligations.SetinWritesOneInputElement := by
  intro idx s
  obtain ⟨hunprepared, hrange, heffect⟩ := ifPrepared_ifInRange_answers s (.setin idx) idx (setinEffect idx s)
  rw [opcode_setin] at hunprepared
  refine ⟨hunprepared, hrange, fun hp hi => ?_,
    fun w ho h => presentWord_reservedBit (decode_of_opcode_setin ho) h s⟩
  exact ⟨_, s.readData.re, s.readData.im, heffect hp hi, Memory.read_write_same _ _ _, fun a ha => readHeld_of_value ha _ _,
    fun b hb => readHeld_of_value hb _ _, fun j hj => Memory.read_write_other hj, rfl⟩

/-- Settles O14: GETIN's checks and its one read. -/
theorem getinReadsOneInputElement : Obligations.GetinReadsOneInputElement := by
  intro idx s
  obtain ⟨hunprepared, hrange, heffect⟩ :=
    ifPrepared_ifInRange_answers s (.getin idx) idx (getEffect (s.readElement s.ibuf idx.toNat) s)
  rw [opcode_getin] at hunprepared
  refine ⟨hunprepared, hrange, fun hp hi => ?_,
    fun w ho h => presentWord_reservedBit (decode_of_opcode_getin ho) h s⟩
  exact ⟨s.readElement s.ibuf idx.toNat, _, heffect hp hi, rfl, fun _ hv => readElement_of_read hv⟩

/-- Settles O15: GETOUT's checks and its one read. -/
theorem getoutReadsOneOutputElement : Obligations.GetoutReadsOneOutputElement := by
  intro idx s
  obtain ⟨hunprepared, hrange, heffect⟩ :=
    ifPrepared_ifInRange_answers s (.getout idx) idx (getEffect (s.readElement s.obuf idx.toNat) s)
  rw [opcode_getout] at hunprepared
  refine ⟨hunprepared, hrange, fun hp hi => ?_,
    fun w ho h => presentWord_reservedBit (decode_of_opcode_getout ho) h s⟩
  exact ⟨s.readElement s.obuf idx.toNat, _, heffect hp hi, rfl, fun _ hv => readElement_of_read hv⟩

/-! ## RUN -/

section
variable {α : Type} (A : Arith α) (draw : Nat) {n p : Nat} (tw : Memory α) (d : Direction) (m : Memory (Cplx α)) (hp : n ≤ p)
include hp

theorem read_pass2_beyond (len : Nat) : Memory.read (pass2 A draw n tw d len m) p = Memory.read m p :=
  loop_read_untouched fun b _ hb => loop_read_untouched fun k t hk => by
    have h0 := slot_lt hb (x := k) (by omega)
    have h1 := slot_lt hb (x := k + len / 2) (by omega)
    exact read_bfly2_other _ _ _ _ _ _ _ (by omega) (by omega)

theorem read_pass4_beyond (len : Nat) : Memory.read (pass4 A draw n tw d len m) p = Memory.read m p :=
  loop_read_untouched fun b _ hb => loop_read_untouched fun k t hk => by
    have h0 := slot_lt hb (x := k) (by omega)
    have h1 := slot_lt hb (x := k + len / 4) (by omega)
    have h2 := slot_lt hb (x := k + 2 * (len / 4)) (by omega)
    have h3 := slot_lt hb (x := k + 3 * (len / 4)) (by omega)
    exact read_bfly4_other _ _ _ _ _ _ _ _ _ (by omega) (by omega) (by omega) (by omega)

theorem read_sched_beyond (rdx : Radix) : Memory.read (sched A draw n rdx tw d m) p = Memory.read m p := by
  cases rdx with
  | r2 => exact loop_read_untouched fun _ t _ => read_pass2_beyond A draw tw d t hp _
  | r4 =>
    have hfours : Memory.read (loop (Nat.log2 n / 2) (fun i obuf => pass4 A draw n tw d (4 ^ (i + 1)) obuf) m) p =
        Memory.read m p := loop_read_untouched fun _ t _ => read_pass4_beyond A draw tw d t hp _
    simp only [sched, sched4]
    split
    · exact (read_pass2_beyond A draw tw d _ hp n).trans hfours
    · exact hfours

/-- RUNBODY leaves OBUF at and beyond `n` as it was (R162). -/
theorem read_runBody_beyond (rdx : Radix) (perm : Memory Nat) (ibuf : Memory (Cplx α)) :
    Memory.read (runBody A draw n rdx d perm tw ibuf m) p = Memory.read m p := by
  rw [runBody]
  split_ifs with h1 h2
  · rw [small1, Memory.read_put, if_neg (by omega)]
  · unfold small2
    split
    · rw [Memory.read_write_other (by omega), Memory.read_write_other (by omega)]
    · rw [Memory.read_forget, if_neg (by omega), Memory.read_forget, if_neg (by omega)]
  · rw [read_sched_beyond A draw tw d _ hp, read_permute, if_neg (not_lt.2 hp)]

end

/-- Settles O16: RUN's checks, and the frame of RUNBODY. -/
theorem runChecksThenWritesOnlyObuf : Obligations.RunChecksThenWritesOnlyObuf := by
  refine fun d len s => ⟨fun hp => ?_, fun hp hlen => ?_, fun hp hlen => ?_,
    fun w ho h => presentWord_reservedBit (decode_of_opcode_run ho) h s⟩
  · rw [exec, execRun, ifPrepared_of_unprepared hp, opcode_run]; rfl
  · rw [exec, execRun, ifPrepared_of_prepared hp, State.ifLength, if_neg (zext_eq_iff.not.2 hlen)]; rfl
  · exact ⟨_, exec_run_of_length d hp hlen, rfl, fun j hj => read_runBody_beyond binary64 s.draws s.tw d s.obuf hj _ _ _,
      sameButObuf_runEffect d s, rfl⟩

/-! ## RDCSR and what a response carries -/

theorem exec_rdcsr_of_csr {csr : BitVec 4} {r : Csr} (h : csrOfNumber csr = some r) (s : State) :
    exec (.rdcsr csr) s = .next (s.respondOk (s.readCsr r) 0#32) := by rw [exec, execRdcsr, h]

/-- Settles O18: the seven registers by number, and the illegal words. -/
theorem rdcsrRespondsWithTheRegister : Obligations.RdcsrRespondsWithTheRegister := by
  refine fun s => ⟨exec_rdcsr_of_csr (r := .status) rfl s, exec_rdcsr_of_csr (r := .n) rfl s,
    exec_rdcsr_of_csr (r := .cap) rfl s, exec_rdcsr_of_csr (r := .fsticky) rfl s, exec_rdcsr_of_csr (r := .fcode) rfl s,
    exec_rdcsr_of_csr (r := .fexp) rfl s, exec_rdcsr_of_csr (r := .fact) rfl s, ?_, ?_⟩
  · rintro csr hcsr w rfl
    exact presentWord_illegal (decode_rdcsr_reservedCsr hcsr) s
  · exact fun w ho h => presentWord_illegal (decode_rdcsr_reservedBit ho h) s

/-- `info0` of an OK response: the register for RDCSR and 0 for every other command (R201). -/
def okInfo (s : State) : Instr → Word
  | .rdcsr csr => (csrOfNumber csr).elim 0#32 s.readCsr
  | _ => 0#32

/-- A command takes a fault, or it responds OK with the register or 0. -/
theorem exec_fault_or_ok {i : Instr} (h : exec i s = .next t) :
    (∃ c a b, t = s.raise c a b) ∨ t.output = .response 0#4 (okInfo s i) 0#32 := by
  rcases exec_cases i s with ⟨_, _, rfl, -, he⟩ | ⟨_, _, rfl, -, he⟩ | ⟨_, rfl, -, -, he⟩ | ⟨_, rfl, -, -, he⟩ |
    ⟨_, rfl, -, -, he⟩ | ⟨_, -, -, -, he⟩ | ⟨_, _, rfl, -, -, he⟩ | ⟨_, _, rfl, -, -, he⟩ | ⟨-, -, he⟩ | ⟨rfl, he⟩ |
    ⟨csr, r, rfl, hr, he⟩ | ⟨_, rfl, -, he⟩ <;>
  rw [he] at h <;> cases h
  · exact .inl ⟨_, _, _, rfl⟩
  · exact .inr rfl
  · exact .inr rfl
  · exact .inr rfl
  · exact .inr rfl
  · exact .inl ⟨_, _, _, rfl⟩
  · exact .inr rfl
  · exact .inl ⟨_, _, _, rfl⟩
  · exact .inl ⟨_, _, _, rfl⟩
  · exact .inr rfl
  · right; simp [okInfo, hr]
  · exact .inl ⟨_, _, _, rfl⟩

theorem presentWord_fault_or_ok (h : presentWord w s = .next t) :
    (∃ c a b, t = s.raise c a b) ∨ ∃ i, decode w = .legal i ∧ t.output = .response 0#4 (okInfo s i) 0#32 := by
  cases hd : decode w with
  | legal i =>
    rw [presentWord_legal hd] at h
    exact (exec_fault_or_ok h).imp_right fun hok => ⟨i, rfl, hok⟩
  | illegal why => rw [presentWord_illegal hd] at h; cases h; exact .inl ⟨_, _, _, rfl⟩

/-- Settles O24: a fault's response is what it records, and its code is not 0; an OK response carries `okInfo`. -/
theorem responseCarriesTheRegisterOrZero : Obligations.ResponseCarriesTheRegisterOrZero := by
  intro w s t code a b h hout
  rcases presentWord_fault_or_ok h with ⟨c, a', b', rfl⟩ | ⟨i, hd, hok⟩
  · rw [State.raise_output, Output.response.injEq] at hout
    obtain ⟨rfl, rfl, rfl⟩ := hout
    exact ⟨fun hcode => absurd hcode c.number_ne_zero, fun _ => ⟨rfl, rfl, rfl⟩⟩
  · rw [hok, Output.response.injEq] at hout
    obtain ⟨rfl, rfl, rfl⟩ := hout
    refine ⟨fun _ => ⟨rfl, fun csr r hcsr hr => ?_, fun hne => ?_⟩, fun hcode => absurd rfl hcode⟩
    · obtain rfl : i = .rdcsr csr := Decoded.legal.inj (hd.symm.trans hcsr)
      simp [okInfo, hr]
    · cases i with
      | rdcsr csr => exact absurd hd (hne csr)
      | prepare | setin | getin | run | getout | dispose => rfl

end Sys2Proof.Machine
end

section
/-! The exceptions family: a command is its check and then its effect, so a word answers with the fault of the matrix or with
OK, and what follows for the trace of a fault, its repetition and what the checks read (R229 to R233). -/

namespace Sys2Proof.Machine

variable {s t : State} {w : Word}

/-! ## A check and then an effect -/

/-- Takes a fault that stands as in the matrix: its code and its two information words (R229, R231). -/
def State.raiseFault (s : State) (f : FaultCode × Word × Word) : State := s.raise f.1 f.2.1 f.2.2

/-- The effect of a command that passes its checks. -/
def okEffect : Instr → State → State
  | .prepare rdx size, s => prepareEffect rdx size s
  | .setin idx, s => setinEffect idx s
  | .getin idx, s => getEffect (s.readElement s.ibuf idx.toNat) s
  | .run d _, s => runEffect d s
  | .getout idx, s => getEffect (s.readElement s.obuf idx.toNat) s
  | .dispose, s => disposeEffect s
  | .rdcsr csr, s => s.respondOk (okInfo s (.rdcsr csr)) 0#32

theorem okEffect_output (i : Instr) (s : State) : (okEffect i s).output = .response 0#4 (okInfo s i) 0#32 := by
  cases i with
  | prepare | setin | getin | run | getout | dispose | rdcsr => rfl

/-- The sizes of the matrix are the valid ones (R192, R222). -/
theorem exists_mem_range_iff_validSize (size : BitVec 24) :
    (∃ e ∈ List.range (s.cap.toNat + 1), size.toNat = 2 ^ e) ↔ s.validSize size := by
  simp only [List.mem_range, Nat.lt_succ_iff, State.validSize, and_comm]

/-- The state check and the check of an element index are the matrix's row of SETIN, GETIN and GETOUT. -/
theorem ifPrepared_ifInRange_eq_faultOfIndex {i : Instr} {op : Nat} (hop : (opcode i).setWidth 32 = BitVec.ofNat 32 op)
    (idx : BitVec 24) (effect s : State) :
    s.ifPrepared i (s.ifInRange idx effect) = .next ((s.faultOfIndex op idx).elim effect s.raiseFault) := by
  rw [State.faultOfIndex]
  split_ifs with hp hi
  · rw [ifPrepared_of_unprepared hp, hop]; rfl
  · rw [ifPrepared_of_prepared (Bool.eq_true_of_not_eq_false hp), ifInRange_of_lt hi]; rfl
  · rw [ifPrepared_of_prepared (Bool.eq_true_of_not_eq_false hp), ifInRange_of_le (not_lt.1 hi)]; rfl

theorem exec_prepare_eq_faultOf (rdx : Radix) (size : BitVec 24) (s : State) :
    exec (.prepare rdx size) s =
      .next ((s.faultOf (.prepare rdx size)).elim (prepareEffect rdx size s) s.raiseFault) := by
  rw [State.faultOf]
  split_ifs with hv
  · exact exec_prepare_of_validSize rdx ((exists_mem_range_iff_validSize size).1 hv)
  · exact exec_prepare_of_not_validSize rdx (mt (exists_mem_range_iff_validSize size).2 hv)

theorem exec_run_eq_faultOf (d : Direction) (len : BitVec 24) (s : State) :
    exec (.run d len) s = .next ((s.faultOf (.run d len)).elim (runEffect d s) s.raiseFault) := by
  obtain ⟨hunprepared, hmismatch, -⟩ := runChecksThenWritesOnlyObuf d len s
  rw [State.faultOf]
  split_ifs with hp hlen
  · exact hunprepared hp
  · exact exec_run_of_length d (Bool.eq_true_of_not_eq_false hp) hlen
  · exact hmismatch (Bool.eq_true_of_not_eq_false hp) hlen

/-- The word of RDCSR is its opcode and its register number (R76). -/
theorem encode_rdcsr (csr : BitVec 4) : encode (.rdcsr csr) = 0x70000000#32 ||| csr.setWidth 32 := by
  revert csr; decide

theorem exec_rdcsr_eq_faultOf (csr : BitVec 4) (s : State) :
    exec (.rdcsr csr) s = .next ((s.faultOf (.rdcsr csr)).elim (okEffect (.rdcsr csr) s) s.raiseFault) := by
  rw [State.faultOf]
  cases hcsr : csrOfNumber csr with
  | none =>
    have hlegal : ¬ csr.toNat ≤ 6 := not_le.2 ((csrOfNumber_eq_none_iff csr).1 hcsr)
    rw [exec, execRdcsr, hcsr, if_neg hlegal, encode_rdcsr]; rfl
  | some r =>
    have hlegal : csr.toNat ≤ 6 := by
      rw [← not_lt, ← csrOfNumber_eq_none_iff, hcsr]; exact Option.some_ne_none r
    rw [exec_rdcsr_of_csr hcsr, if_pos hlegal, Option.elim_none, okEffect, okInfo, hcsr]; rfl

/-- A command takes the fault that the matrix of R229 has for it, or it has its effect. -/
theorem exec_eq_faultOf (i : Instr) (s : State) :
    exec i s = .next ((s.faultOf i).elim (okEffect i s) s.raiseFault) := by
  cases i with
  | prepare rdx size => exact exec_prepare_eq_faultOf rdx size s
  | setin idx => exact ifPrepared_ifInRange_eq_faultOfIndex (by rw [opcode_setin]; rfl) idx _ s
  | getin idx => exact ifPrepared_ifInRange_eq_faultOfIndex (by rw [opcode_getin]; rfl) idx _ s
  | run d len => exact exec_run_eq_faultOf d len s
  | getout idx => exact ifPrepared_ifInRange_eq_faultOfIndex (by rw [opcode_getout]; rfl) idx _ s
  | dispose => exact exec_dispose s
  | rdcsr csr => exact exec_rdcsr_eq_faultOf csr s

/-- Settles O22: an illegal word by the decoder, and a legal one by its command's row of the matrix. -/
theorem faultMatrixIsComplete : Obligations.FaultMatrixIsComplete := by
  refine fun w s => ⟨fun why hd => presentWord_illegal hd s, fun i c a b hd hf => ?_, fun i hd hf => ?_⟩
  · rw [presentWord_legal hd, exec_eq_faultOf, hf]; rfl
  · rw [presentWord_legal hd, exec_eq_faultOf, hf]
    exact ⟨_, okInfo s i, rfl, okEffect_output i s⟩

/-- Settles O21: `State.raise` is written as R231 has it. -/
theorem faultEntryWritesTheRecord : Obligations.FaultEntryWritesTheRecord :=
  fun _ _ _ _ => ⟨rfl, rfl, rfl, rfl, rfl, rfl, rfl⟩

/-! ## A word that faults -/

/-- A response with a code other than 0 is that of a fault, which made the next state. -/
theorem presentWord_eq_raise {code : BitVec 4} {a b : Word} (h : presentWord w s = .next t)
    (hout : t.output = .response code a b) (hcode : code ≠ 0#4) : ∃ c, c.number = code ∧ t = s.raise c a b := by
  rcases presentWord_fault_or_ok h with ⟨c, a', b', rfl⟩ | ⟨i, -, hok⟩
  · rw [State.raise_output, Output.response.injEq] at hout
    obtain ⟨rfl, rfl, rfl⟩ := hout
    exact ⟨c, rfl, rfl⟩
  · rw [hok, Output.response.injEq] at hout
    exact absurd hout.1.symm hcode

/-- Settles O23: the next state is that of fault entry. -/
theorem faultLeavesNoOtherTrace : Obligations.FaultLeavesNoOtherTrace := by
  intro w s t code info0 info1 h hout hcode
  obtain ⟨c, rfl, rfl⟩ := presentWord_eq_raise h hout hcode
  exact ⟨rfl, rfl, rfl, rfl, rfl⟩

/-! ## What the checks read -/

/-- The matrix reads STATUS, N and CAP only. -/
theorem faultOf_congr {s' : State} (hstatus : s.status = s'.status) (hn : s.n = s'.n) (hcap : s.cap = s'.cap) (i : Instr) :
    s.faultOf i = s'.faultOf i := by
  have hprepared : s.prepared = s'.prepared := congrArg statusPrep hstatus
  have hindex (op : Nat) (idx : BitVec 24) : s.faultOfIndex op idx = s'.faultOfIndex op idx := by
    rw [State.faultOfIndex, State.faultOfIndex, hprepared, hn]
  cases i with
  | prepare rdx size => rw [State.faultOf, State.faultOf, hcap]
  | setin idx => exact hindex 2 idx
  | getin idx => exact hindex 3 idx
  | run d len => rw [State.faultOf, State.faultOf, hprepared, hn]
  | getout idx => exact hindex 5 idx
  | dispose | rdcsr => rfl

/-- The fault of a word, or nothing: IllegalCommand for an illegal one, and its command's for a legal one (R230). -/
def State.faultOfWord (s : State) (w : Word) : Option (FaultCode × Word × Word) :=
  match decode w with
  | .legal i => s.faultOf i
  | .illegal _ => some (.illegalCommand, 0#32, w)

theorem faultOfWord_congr {s' : State} (hstatus : s.status = s'.status) (hn : s.n = s'.n) (hcap : s.cap = s'.cap)
    (w : Word) : s.faultOfWord w = s'.faultOfWord w := by
  unfold State.faultOfWord
  split
  · exact faultOf_congr hstatus hn hcap _
  · rfl

/-- A word with a fault responds with it. -/
theorem output_of_faultOfWord_eq_some {c : FaultCode} {a b : Word} (h : presentWord w s = .next t)
    (hf : s.faultOfWord w = some (c, a, b)) : t.output = .response c.number a b := by
  obtain ⟨hillegal, hfault, -⟩ := faultMatrixIsComplete w s
  unfold State.faultOfWord at hf
  split at hf
  next i hd => rw [hfault i c a b hd hf] at h; cases h; rfl
  next why hd => rw [hillegal why hd] at h; cases h; cases hf; rfl

/-- A word without a fault responds OK. -/
theorem output_of_faultOfWord_eq_none (h : presentWord w s = .next t) (hf : s.faultOfWord w = none) :
    ∃ a, t.output = .response 0#4 a 0#32 := by
  obtain ⟨-, -, hok⟩ := faultMatrixIsComplete w s
  unfold State.faultOfWord at hf
  split at hf
  next i hd =>
    obtain ⟨_, a, hnext, hout⟩ := hok i hd hf
    rw [hnext] at h; cases h
    exact ⟨a, hout⟩
  next => cases hf

/-- Settles O27: the word has the same fault in both states, and the fault decides the code and the words. -/
theorem checksReadOnlyStatusNAndCap : Obligations.ChecksReadOnlyStatusNAndCap := by
  intro w s s' t t' code code' a b a' b' hstatus hn hcap h h' hout hout'
  have hsame := faultOfWord_congr hstatus hn hcap w
  cases hf : s.faultOfWord w with
  | some f =>
    rw [output_of_faultOfWord_eq_some h hf] at hout
    rw [output_of_faultOfWord_eq_some h' (hsame.symm.trans hf)] at hout'
    cases hout; cases hout'
    exact ⟨rfl, fun _ => ⟨rfl, rfl⟩⟩
  | none =>
    obtain ⟨x, hok⟩ := output_of_faultOfWord_eq_none h hf
    obtain ⟨x', hok'⟩ := output_of_faultOfWord_eq_none h' (hsame.symm.trans hf)
    rw [hok] at hout
    rw [hok'] at hout'
    cases hout; cases hout'
    exact ⟨rfl, absurd rfl⟩

/-- Settles O26: fault entry writes none of STATUS, N and CAP, which are all that the checks read. -/
theorem sameWordRaisesTheSameFaultAgain : Obligations.SameWordRaisesTheSameFaultAgain := by
  intro w s t code info0 info1 h hout hcode
  obtain ⟨c, -, rfl⟩ := presentWord_eq_raise h hout hcode
  obtain ⟨u, hu⟩ := presentWord_next w (s.raise c info0 info1)
  obtain ⟨code', a, b, hout'⟩ := (presentWord_wordAnswer hu).responds
  obtain ⟨rfl, hwords⟩ :=
    checksReadOnlyStatusNAndCap w s (s.raise c info0 info1) _ _ _ _ _ _ _ _ rfl rfl rfl h hu hout hout'
  obtain ⟨rfl, rfl⟩ := hwords hcode
  exact ⟨u, hu, hout'⟩

end Sys2Proof.Machine
end

section
/-! The reset event: the reset values come from State.reset (R250), what it keeps from the state before it (log 11). -/

namespace Sys2Proof.Machine

variable {s : State}

/-- With reset as the host's next input, a step is the reset event on the state from which that input has been taken. -/
theorem step_reset {rest : List HostInput} (hi : s.inputs = .reset :: rest) :
    step s = .next (State.resetEvent { s with inputs := rest }) := step_cons hi

/-- Settles O2: but for CAP and the later inputs, the reset event gives the values of State.reset, which O1 lists. -/
theorem resetEventRestoresResetState : Obligations.ResetEventRestoresResetState := by
  intro s rest hi
  obtain ⟨hstatus, hn, -, hfsticky, hfcode, hfexp, hfact, hdre, hdim, hmemories⟩ := resetLeavesUnpreparedAndUndefined
  exact ⟨_, step_reset hi, hstatus, hn, State.resetEvent_cap _, hfsticky, hfcode, hfexp, hfact, hdre, hdim, hmemories,
    State.resetEvent_inputs _, State.resetEvent_output _⟩

end Sys2Proof.Machine
end
